-- ==== Sys2Proof/Word.lean ====
section
/-! DEFINITION. Word types of GSMCODEC (00_scope.md R11, R14): what a register, a buffer element and a length are. -/

namespace Sys2Proof

/-- A register, and a word on the host bus: 32 bits (R11). -/
abbrev Word := BitVec 32

/-- A length register's implemented field, bits 15:0 (R11). -/
abbrev Half := BitVec 16

/-- A septet, 0x00 to 0x7F (R14); an element of SEP (10_state.md R41). -/
abbrev Septet := BitVec 7

/-- An octet (R14); an element of OCT (10_state.md R42). -/
abbrev Octet := BitVec 8

/-- An element of TXT: 32 bits, any value (10_state.md R40). A Unicode code point is such a value up to 0x10FFFF (R14). -/
abbrev CodePoint := BitVec 32

end Sys2Proof
end

