-- ==== Sys2Proof/Syntax.lean ====
section
/-! DEFINITION. Syntax: the sixteen commands (30_encoding.md R92), the host's bus accesses (00_scope.md R13) and the
host-program notation (30_encoding.md R99, R100). -/

namespace Sys2Proof

/-- One constructor per row of the opcode map (30_encoding.md R92). A command has no register, immediate or mode
field (R90, R95): its operands are in SRC_LEN, AUX, ARG and the buffers. -/
inductive Instr where
  | nop
  | semiEncNum
  | semiDecNum
  | semiEncDig
  | semiDecDig
  | semiEncTz
  | semiDecTz
  | g7Map
  | g7Unmap
  | septPack
  | septUnpack
  | g7Encode
  | g7Decode
  | ussdPack
  | ucs2Enc
  | ucs2Dec
deriving DecidableEq, Repr

/-- The three element buffers (10_state.md R40 to R42). -/
inductive Buf where
  | txt
  | sep
  | oct
deriving DecidableEq, Repr

/-- The registers of the map (10_state.md section 2). -/
inductive Reg where
  | id
  | ctrl
  | status
  | cmd
  | srcLen
  | aux
  | arg
  | dstLen
  | lenf
  | consumed
  | result
deriving DecidableEq, Repr

/-- What a word of the window holds (20_memory.md R61): a register, a buffer element, or nothing (R63). -/
inductive Target where
  | reg (r : Reg)
  | elem (b : Buf) (i : Nat)
  | reserved
deriving DecidableEq, Repr

/-- How wide a bus access is. The block gives meaning to a word only (20_memory.md R64). -/
inductive AccessSize where
  | byte
  | halfword
  | word
deriving DecidableEq, Repr

/-- One move of the host. `write` and `read` are HostWrite and HostRead at a byte address of the host bus
(00_scope.md R13); `wait` is the polling loop WAIT (30_encoding.md R100): one read of STATUS per host turn, until a
read shows BUSY = 0. -/
inductive HostOp where
  | write (addr : Nat) (size : AccessSize) (v : Word)
  | read (addr : Nat) (size : AccessSize)
  | wait
deriving DecidableEq, Repr

/-- One line of the host-program notation (30_encoding.md R99), with the pseudo-instruction WAIT (R100). -/
inductive HostLine where
  | w (r : Reg) (v : Word)
  | r (r : Reg)
  | wb (b : Buf) (i : Nat) (v : Word)
  | rb (b : Buf) (i : Nat)
  | wait
deriving DecidableEq, Repr

end Sys2Proof
end

