-- ==== Sys2Proof/Machine/State.lean ====
section
/-! DEFINITION. The state of GSMCODEC (10_state.md R47), the reasons a step can stop, and the state right after power-on reset. -/

namespace Sys2Proof.Machine

/-- A buffer, keyed by element index: indices strictly rising, one entry per element written since power-on. An
index with no entry has no value (10_state.md R43: a model tracks which elements have been written). -/
abbrev Buffer (w : Nat) := List (Nat × BitVec w)

/-- The three buffers (10_state.md R40 to R42). An OCT entry is a Host.Cell. -/
structure Memory where
  txt : Buffer 32
  sep : Buffer 7
  oct : List Host.Cell
deriving DecidableEq, Repr

/-- Who takes a step. The spec leaves the interleaving of host accesses and engine steps open
(70_reset_and_hazards.md R276), and `rst` is an input (R260), so the schedule is data in the state. Log 6, DESIGN CHOICE. -/
inductive Turn where
  /-- The host makes the next access of its program, if it has one. -/
  | host
  /-- One engine step. -/
  | engine
  /-- Power-up with the first assertion of `rst`: the power-on reset. -/
  | powerOnReset
  /-- `rst` is asserted later: a pin reset. -/
  | rstAssert
  /-- `rst` is deasserted. -/
  | rstDeassert
deriving DecidableEq, Repr

/-- Every piece of state of R47 (`ie` to `remaining`), the input `rst` (R260), and the model's own record of the
outside: the host's remaining accesses, the schedule, what the host last read, and how many free values were drawn. -/
structure State where
  ie        : Bool
  busy      : Bool
  done      : Bool
  ovr       : Bool
  errCode   : BitVec 4
  cmd       : Word
  srcLen    : Half
  aux       : Half
  arg       : Word
  dstLen    : Half
  lenf      : Half
  consumed  : Half
  result    : Word
  mem       : Memory
  remaining : Nat
  rst       : Bool
  program   : List HostOp
  sched     : List Turn
  readData  : Option Word
  draws     : Nat
deriving DecidableEq, Repr

/-- The faults of the model. -/
inductive Fault where
  /-- Raised by a command whose pseudocode reads a source element never written since power-on (10_state.md R43,
  93_implementation_defined.md U1). Safe: the block would compute something, and no claim may rest on what. -/
  | unwrittenElement (b : Buf) (i : Nat)
deriving DecidableEq, Repr

/-- The refusals of the model. -/
inductive Refusal where
  /-- Raised by exec for a command that has no meaning yet. Safe. No arm of this model raises it. -/
  | notModelled (mnemonic : String)
  /-- Raised by a byte or halfword host access (20_memory.md R64). Safe. -/
  | narrowAccess
  /-- Raised by a host access at an address that is not word-aligned (20_memory.md R64). Safe. -/
  | misalignedAccess
  /-- Raised by a host access while `rst` is asserted (70_reset_and_hazards.md R264). Safe. -/
  | accessDuringReset
  /-- Raised by a host access outside the window: it does not reach this block (20_memory.md R60; log 12, DEDUCED). Safe. -/
  | outsideWindow
deriving DecidableEq, Repr

/-- The machine right after power-on reset, `rst` deasserted again: every register 0 (70_reset_and_hazards.md R261),
every buffer element unwritten (R262). `remaining` is meaningless there (log 10, DESIGN CHOICE); the last four fields are the
model's own (logs 6, 8, 9, DESIGN CHOICE). -/
def State.reset : State where
  ie := false
  busy := false
  done := false
  ovr := false
  errCode := 0
  cmd := 0
  srcLen := 0
  aux := 0
  arg := 0
  dstLen := 0
  lenf := 0
  consumed := 0
  result := 0
  mem := { txt := [], sep := [], oct := [] }
  remaining := 0
  rst := false
  program := []
  sched := []
  readData := none
  draws := 0

end Sys2Proof.Machine
end

