-- ==== Sys2Proof/Config.lean ====
section
/-! DEFINITION. What a build of the block fixes (00_scope.md section 4), and the values the spec leaves open. The default tables and the default build stand in Machine/Tables.lean. -/

namespace Sys2Proof

/-- The parameters of a build (00_scope.md section 4): buffer capacities (R10), the ID value (R21) and the two
alphabet ROMs, each a partial map written as its list of (septet, code point) entries (R140, R141). -/
structure Params where
  nTxt    : Nat
  nSep    : Nat
  nOct    : Nat
  idValue : Word
  basic   : List (Septet × CodePoint)
  ext     : List (Septet × CodePoint)
deriving DecidableEq, Repr

/-- The window's place on the host bus, in units of 16 KiB: a platform parameter the spec leaves open
(20_memory.md R60, U8). It has no body: every claim holds for every place. Log 3, DEDUCED, safe. -/
opaque Config.baseIndex : Nat

/-- BASE, aligned to 16 KiB (20_memory.md R60). -/
def Config.base : Nat := 0x4000 * Config.baseIndex

/-- The n-th free word: what a host read returns where the spec says "an unconstrained draw"
(10_state.md R43, 70_reset_and_hazards.md R271). No body. Log 5, DEDUCED, safe. -/
opaque Config.freeWord : Nat → Word

/-- The n-th latency draw, less 1: LAT is any integer of 1 or more (70_reset_and_hazards.md R275). No body. Log 4, DEDUCED, safe. -/
opaque Config.freeLatency : Nat → Nat

end Sys2Proof
end

