-- ==== Sys2Proof/Machine/Tables.lean ====
section
/-! DEFINITION. The default alphabet tables (42_gsm7.md R143, R144) and the default build (00_scope.md section 4). Log 1, DESIGN CHOICE, and log 2, PRESUMED: both unsafe. -/

namespace Sys2Proof.Machine

/-- Consecutive entries of a table, from septet `first` on. -/
def tableRow (first : Nat) : List CodePoint → List (Septet × CodePoint)
  | [] => []
  | c :: rest => (BitVec.ofNat 7 first, c) :: tableRow (first + 1) rest

/-- The default GSM7_BASIC (R143), row by row; 0x1B has no entry (R140). -/
def gsm7BasicDefault : List (Septet × CodePoint) :=
  tableRow 0x00 [0x40, 0xA3, 0x24, 0xA5, 0xE8, 0xE9, 0xF9, 0xEC]
  ++ tableRow 0x08 [0xF2, 0xC7, 0x0A, 0xD8, 0xF8, 0x0D, 0xC5, 0xE5]
  ++ tableRow 0x10 [0x394, 0x5F, 0x3A6, 0x393, 0x39B, 0x3A9, 0x3A0, 0x3A8]
  ++ tableRow 0x18 [0x3A3, 0x398, 0x39E]
  ++ tableRow 0x1C [0xC6, 0xE6, 0xDF, 0xC9]
  ++ tableRow 0x20 [0x20, 0x21, 0x22, 0x23, 0xA4, 0x25, 0x26, 0x27]
  ++ tableRow 0x28 [0x28, 0x29, 0x2A, 0x2B, 0x2C, 0x2D, 0x2E, 0x2F]
  ++ tableRow 0x30 [0x30, 0x31, 0x32, 0x33, 0x34, 0x35, 0x36, 0x37]
  ++ tableRow 0x38 [0x38, 0x39, 0x3A, 0x3B, 0x3C, 0x3D, 0x3E, 0x3F]
  ++ tableRow 0x40 [0xA1, 0x41, 0x42, 0x43, 0x44, 0x45, 0x46, 0x47]
  ++ tableRow 0x48 [0x48, 0x49, 0x4A, 0x4B, 0x4C, 0x4D, 0x4E, 0x4F]
  ++ tableRow 0x50 [0x50, 0x51, 0x52, 0x53, 0x54, 0x55, 0x56, 0x57]
  ++ tableRow 0x58 [0x58, 0x59, 0x5A, 0xC4, 0xD6, 0xD1, 0xDC, 0xA7]
  ++ tableRow 0x60 [0xBF, 0x61, 0x62, 0x63, 0x64, 0x65, 0x66, 0x67]
  ++ tableRow 0x68 [0x68, 0x69, 0x6A, 0x6B, 0x6C, 0x6D, 0x6E, 0x6F]
  ++ tableRow 0x70 [0x70, 0x71, 0x72, 0x73, 0x74, 0x75, 0x76, 0x77]
  ++ tableRow 0x78 [0x78, 0x79, 0x7A, 0xE4, 0xF6, 0xF1, 0xFC, 0xE0]

/-- The default GSM7_EXT (R144): ten entries. -/
def gsm7ExtDefault : List (Septet × CodePoint) :=
  [(0x0A, 0x0C), (0x14, 0x5E), (0x28, 0x7B), (0x29, 0x7D), (0x2F, 0x5C),
   (0x3C, 0x5B), (0x3D, 0x7E), (0x3E, 0x5D), (0x40, 0x7C), (0x65, 0x20AC)]

/-- The default build (00_scope.md section 4): capacities 512, ID_VALUE 0x4753_4D01 (10_state.md R21), the default tables. -/
def defaultParams : Params where
  nTxt := 512
  nSep := 512
  nOct := 512
  idValue := 0x47534D01
  basic := gsm7BasicDefault
  ext := gsm7ExtDefault

end Sys2Proof.Machine
end

