-- ==== Sys2Proof/Machine/Ops.lean ====
section
/-! DEFINITION. The named operations over buffers and registers: element reads and writes, the commit primitives
(30_encoding.md R97), the error outcome (60_exceptions.md R228), reset (70_reset_and_hazards.md R261, R262), free values. -/

namespace Sys2Proof.Machine

/-! ## Buffers -/

/-- The value of element `i`, if it has been written since power-on (10_state.md R43). -/
def readElem {w : Nat} (b : Buffer w) (i : Nat) : Option (BitVec w) :=
  match b with
  | [] => none
  | (j, v) :: rest => if i = j then some v else readElem rest i

/-- BUF[i] <- v, keeping the indices rising. -/
def writeElem {w : Nat} (b : Buffer w) (i : Nat) (v : BitVec w) : Buffer w :=
  match b with
  | [] => [(i, v)]
  | (j, u) :: rest =>
    if i < j then (i, v) :: (j, u) :: rest
    else if i = j then (i, v) :: rest
    else (j, u) :: writeElem rest i v

/-- Write the list to the elements from `i` on, in order. -/
def stageFrom {w : Nat} (b : Buffer w) (i : Nat) : List (BitVec w) → Buffer w
  | [] => b
  | v :: rest => stageFrom (writeElem b i v) (i + 1) rest

/-- stage(BUF, out): elements 0 to len(out) - 1 are written, the others keep their values (R97). -/
def stage {w : Nat} (b : Buffer w) (out : List (BitVec w)) : Buffer w := stageFrom b 0 out

/-- Indices strictly rising. -/
def rising {w : Nat} : Buffer w → Bool
  | [] => true
  | (i, _) :: rest => rest.all (fun e => decide (i < e.1)) && rising rest

/-- The canonical form of a buffer: indices strictly rising and below the capacity. -/
def bufferWf {w : Nat} (cap : Nat) (b : Buffer w) : Bool :=
  rising b && b.all (fun e => decide (e.1 < cap))

/-- The canonical form of the memory under the default capacities: equal contents are equal data. -/
def Memory.wf (m : Memory) : Bool :=
  bufferWf defaultParams.nTxt m.txt && bufferWf defaultParams.nSep m.sep && bufferWf defaultParams.nOct m.oct

/-! ## Errors and commits -/

/-- The error kinds a command raises (60_exceptions.md R220). -/
inductive ErrKind where
  | illegalCommand
  | incorrectSize
  | truncated
  | truncatedEscape
  | unmappableChar
  | invalidDigits
deriving DecidableEq, Repr

/-- STATUS.ERRCODE of an error kind (R220); 0 means success. -/
def errCodeOf : ErrKind → BitVec 4
  | .illegalCommand => 1
  | .incorrectSize => 2
  | .truncated => 3
  | .truncatedEscape => 4
  | .unmappableChar => 5
  | .invalidDigits => 6

/-- What ends a command's pseudocode before its commit. -/
inductive Halt where
  /-- raise E(pos) (00_scope.md R13). -/
  | raised (e : ErrKind) (pos : Nat)
  /-- A source element never written was read (10_state.md R43). -/
  | unwritten (b : Buf) (i : Nat)
deriving DecidableEq, Repr

/-- What a command that succeeds writes: elements 0.. of each buffer (an empty list writes none), RESULT if it has a
scalar result, and the three lengths (R97). -/
structure Commit where
  txt      : List (BitVec 32) := []
  sep      : List (BitVec 7) := []
  oct      : List (BitVec 8) := []
  result   : Option Word := none
  dstLen   : Nat
  lenf     : Nat
  consumed : Nat
deriving DecidableEq, Repr

/-- raise E(pos). -/
def raise {α : Type} (e : ErrKind) (pos : Nat) : Except Halt α := .error (.raised e pos)

/-- push(out, v, cap, pos): append with a capacity check (R97). -/
def push {w : Nat} (out : List (BitVec w)) (v : BitVec w) (cap pos : Nat) : Except Halt (List (BitVec w)) :=
  if cap ≤ out.length then raise .incorrectSize pos else .ok (out ++ [v])

/-- The state after a command that succeeded: the commit, ERRCODE 0, BUSY 0, DONE 1 (R97, R98; 60_exceptions.md R229). -/
def commitState (c : Commit) (s : State) : State :=
  { s with
    mem := { txt := stage s.mem.txt c.txt, sep := stage s.mem.sep c.sep, oct := stage s.mem.oct c.oct }
    result := c.result.getD s.result
    dstLen := BitVec.ofNat 16 c.dstLen
    lenf := BitVec.ofNat 16 c.lenf
    consumed := BitVec.ofNat 16 c.consumed
    errCode := 0
    busy := false
    done := true }

/-- The error outcome: what a command that raises E(pos) leaves (60_exceptions.md R228). It is this block's exception
entry (R235): no buffer element and not RESULT is written. -/
def errorState (e : ErrKind) (pos : Nat) (s : State) : State :=
  { s with
    errCode := errCodeOf e
    dstLen := 0
    lenf := 0
    consumed := BitVec.ofNat 16 pos
    busy := false
    done := true }

/-- The end of a completion step: commit, error outcome, or the model fault (R98, R228; 10_state.md R43). -/
def completeCommand (r : Except Halt Commit) (s : State) : Host.Outcome State Fault Refusal :=
  match r with
  | .ok c => .next (commitState c s)
  | .error (.raised e pos) => .next (errorState e pos s)
  | .error (.unwritten b i) => .fault (.unwrittenElement b i)

/-- The host's acknowledgement of a completion, the block's only "return" (60_exceptions.md R236): DONE <- 0. -/
def clearDone (s : State) : State := { s with done := false }

/-! ## Start step -/

/-- The start step of a command word (30_encoding.md R96). `remaining` is a draw from LAT, at least 1
(70_reset_and_hazards.md R275, log 4). -/
def startStep (v : Word) (s : State) : State :=
  { s with
    cmd := v
    busy := true
    done := false
    errCode := 0
    remaining := Config.freeLatency s.draws + 1
    draws := s.draws + 1 }

/-! ## Reset -/

/-- Every register at its reset value (70_reset_and_hazards.md R261); a pending command is cancelled (R263); buffers
and their written marks are unchanged (R262). `remaining` is meaningless afterwards (log 10). -/
def resetRegisters (s : State) : State :=
  { s with
    ie := false, busy := false, done := false, ovr := false, errCode := 0
    cmd := 0, srcLen := 0, aux := 0, arg := 0
    dstLen := 0, lenf := 0, consumed := 0, result := 0
    remaining := 0 }

/-- Power-on reset also leaves every buffer element unwritten (R262). -/
def forgetBuffers (s : State) : State := { s with mem := { txt := [], sep := [], oct := [] } }

/-! ## Free values -/

/-- The next free value, `w` bits wide: an unconstrained draw (10_state.md R43, 70_reset_and_hazards.md R271). -/
def drawBits (w : Nat) (s : State) : BitVec w := (Config.freeWord s.draws).setWidth w

/-- The counter moves on, so the next draw is another one. -/
def afterDraw (s : State) : State := { s with draws := s.draws + 1 }

end Sys2Proof.Machine
end

