-- ==== Sys2Proof/Machine/Control.lean ====
section
/-! DEFINITION. The control command NOP (44_control.md R210) and the illegal command's completion (60_exceptions.md R221). -/

namespace Sys2Proof.Machine

/-- NOP (R210): commit(NONE, [], 0, 0). -/
def execNop (s : State) : Host.Outcome State Fault Refusal :=
  completeCommand (.ok { dstLen := 0, lenf := 0, consumed := 0 }) s

/-- An illegal command word completes with IllegalCommand at position 0 (30_encoding.md R93, R98; 60_exceptions.md R221). -/
def completeIllegal (s : State) : Host.Outcome State Fault Refusal :=
  completeCommand (raise .illegalCommand 0) s

end Sys2Proof.Machine
end

