-- ==== Sys2Proof/Machine/Operands.lean ====
section
/-! DEFINITION. How commands read their operands (30_encoding.md R95): source elements, counts, and the bit fields of
octets, septets and code units (00_scope.md R12; 41_semi_octet.md R110; 42_gsm7.md R150, R154; 43_ucs2.md R190, R191). -/

namespace Sys2Proof.Machine

/-- ceil_div(a, b) (00_scope.md R12). -/
def ceilDiv (a b : Nat) : Nat := (a + b - 1) / b

/-! ## Operand registers and source elements -/

/-- SRC_LEN[15:0] as an integer (R95). -/
def srcLenOf (s : State) : Nat := s.srcLen.toNat

/-- AUX[15:0] as an integer (R95). -/
def auxOf (s : State) : Nat := s.aux.toNat

/-- Read source element `i`; an element never written is the model fault of 10_state.md R43. -/
def fetchElem {w : Nat} (name : Buf) (b : Buffer w) (i : Nat) : Except Halt (BitVec w) :=
  match readElem b i with
  | some v => .ok v
  | none => .error (.unwritten name i)

/-- Read `n` source elements from element `i` on, in ascending order. -/
def fetchFrom {w : Nat} (name : Buf) (b : Buffer w) (i : Nat) : Nat → Except Halt (List (BitVec w))
  | 0 => .ok []
  | n + 1 =>
    match fetchElem name b i with
    | .error h => .error h
    | .ok v =>
      match fetchFrom name b (i + 1) n with
      | .error h => .error h
      | .ok vs => .ok (v :: vs)

/-- BUF[0..n-1]. -/
def fetchAll {w : Nat} (name : Buf) (b : Buffer w) (n : Nat) : Except Halt (List (BitVec w)) := fetchFrom name b 0 n

/-- for i in i .. i+n-1: out <- body(i, out); the first halt ends the loop. -/
def forFrom {α : Type} (body : Nat → α → Except Halt α) (i : Nat) : Nat → α → Except Halt α
  | 0, out => .ok out
  | n + 1, out =>
    match body i out with
    | .error h => .error h
    | .ok out' => forFrom body (i + 1) n out'

/-! ## Bit fields -/

/-- The sum over k in 0 .. n-1 of bit(k) << k. -/
def sumBits (bit : Nat → Bool) : Nat → Nat
  | 0 => 0
  | n + 1 => sumBits bit n + ((bit n).toNat <<< n)

/-- b[3:0]. -/
def lowNibble (b : Octet) : Nat := (b.extractLsb' 0 4).toNat

/-- b[7:4]. -/
def highNibble (b : Octet) : Nat := (b.extractLsb' 4 4).toNat

/-- The octet with the given low and high nibbles, (hi << 4) | lo (41_semi_octet.md R110). -/
def nibbles (lo hi : Nat) : Octet := BitVec.ofNat 8 ((hi <<< 4) ||| lo)

/-- The semi-octet of a number from 0 to 99: tens digit low, units digit high (R110). -/
def semiOctet (x : Nat) : Octet := nibbles (x / 10) (x % 10)

/-- Bit `p` of the septet stream: bit p mod 7 of septet p div 7, and 0 beyond the last septet (42_gsm7.md R150). -/
def septetStreamBit (s : List Septet) (p : Nat) : Bool :=
  if p < 7 * s.length then (s.getD (p / 7) 0).getLsbD (p % 7) else false

/-- Octet `j` of the packing: stream bits 8j to 8j + 7 (R150). -/
def packedOctet (s : List Septet) (j : Nat) : Octet :=
  BitVec.ofNat 8 (sumBits (fun b => septetStreamBit s (8 * j + b)) 8)

/-- PACK7 (R150): ceil_div(7n, 8) octets. -/
def pack7 (s : List Septet) : List Octet :=
  (List.range (ceilDiv (7 * s.length) 8)).map (packedOctet s)

/-- Bit `p` of the octet stream: bit p mod 8 of octet p div 8 (R154). -/
def octetStreamBit (o : List Octet) (p : Nat) : Bool := (o.getD (p / 8) 0).getLsbD (p % 8)

/-- Septet `i` of the unpacking: stream bits 7i to 7i + 6 (R154). -/
def unpackedSeptet (o : List Octet) (i : Nat) : Septet :=
  BitVec.ofNat 7 (sumBits (fun k => octetStreamBit o (7 * i + k)) 7)

/-- UNPACK7 (R154): `l` septets. -/
def unpack7 (o : List Octet) (l : Nat) : List Septet := (List.range l).map (unpackedSeptet o)

/-- A 16-bit code unit from its two octets, high octet first (43_ucs2.md R190). -/
def codeUnit (hi lo : Octet) : Nat := (hi.toNat <<< 8) ||| lo.toNat

/-- u[15:8]. -/
def unitHigh (u : Nat) : Octet := BitVec.ofNat 8 (u >>> 8)

/-- u[7:0]. -/
def unitLow (u : Nat) : Octet := BitVec.ofNat 8 u

/-- A value from 0xD800 to 0xDFFF. -/
def isSurrogate (c : Nat) : Bool := 0xD800 ≤ c && c ≤ 0xDFFF

/-- A high surrogate, 0xD800 to 0xDBFF (R191). -/
def isHighSurrogate (u : Nat) : Bool := 0xD800 ≤ u && u ≤ 0xDBFF

/-- A low surrogate, 0xDC00 to 0xDFFF (R191). -/
def isLowSurrogate (u : Nat) : Bool := 0xDC00 ≤ u && u ≤ 0xDFFF

/-- The code units of a code point: itself, or a surrogate pair, high first (R191, R192). -/
def codeUnits (c : Nat) : List Nat :=
  if c ≤ 0xFFFF then [c]
  else [0xD800 ||| ((c - 0x10000) >>> 10), 0xDC00 ||| ((c - 0x10000) &&& 0x3FF)]

/-- The code point of a surrogate pair (R191). -/
def pairCodePoint (hi lo : Nat) : Nat := 0x10000 + ((hi - 0xD800) <<< 10) + (lo - 0xDC00)

end Sys2Proof.Machine
end

