-- ==== Sys2Proof/Machine/Gsm7.lean ====
section
/-! DEFINITION. The GSM 7-bit alphabet and septet commands (42_gsm7.md R145 to R162), over a build's parameters. -/

namespace Sys2Proof.Machine

/-! ## Tables -/

/-- The code point a table gives a septet, if any (R140, R141). -/
def tableAt : List (Septet × CodePoint) → Septet → Option CodePoint
  | [], _ => none
  | (k, c) :: rest, s => if s = k then some c else tableAt rest s

/-- A septet a table gives a code point, if any: the table's inverse. -/
def tableIndex : List (Septet × CodePoint) → CodePoint → Option Septet
  | [], _ => none
  | (k, d) :: rest, c => if c = d then some k else tableIndex rest c

/-- The escape (R142). -/
def escape : Septet := 0x1B

/-- enc7 (R145): the basic table first, then escape and extension index; none is UNMAPPABLE. -/
def enc7 (p : Params) (c : CodePoint) : Option (List Septet) :=
  match tableIndex p.basic c with
  | some s => some [s]
  | none =>
    match tableIndex p.ext c with
    | some e => some [escape, e]
    | none => none

/-! ## Translation -/

/-- push each septet in order, all at error position `pos` (R156). -/
def pushAll (cap pos : Nat) : List Septet → List Septet → Except Halt (List Septet)
  | [], out => .ok out
  | v :: vs, out =>
    match push out v cap pos with
    | .error h => .error h
    | .ok out' => pushAll cap pos vs out'

/-- One code point of MAP7's loop (R156). -/
def map7Body (p : Params) (txt : Buffer 32) (i : Nat) (out : List Septet) : Except Halt (List Septet) :=
  match fetchElem .txt txt i with
  | .error h => .error h
  | .ok c =>
    match enc7 p c with
    | none => raise .unmappableChar i
    | some ss => pushAll p.nSep i ss out

/-- MAP7 (R156). -/
def map7 (p : Params) (txt : Buffer 32) (n : Nat) : Except Halt (List Septet) := forFrom (map7Body p txt) 0 n []

/-- UNMAP7 (R157) from septet `i` on, `n` septets left: `read` gives septet i of the stream, `pos` its error position. -/
def unmapFrom (p : Params) (read : Nat → Except Halt Septet) (pos : Nat → Nat) :
    Nat → Nat → List CodePoint → Except Halt (List CodePoint)
  | 0, _, out => .ok out
  | n + 1, i, out =>
    match read i with
    | .error h => .error h
    | .ok s =>
      if s = escape then
        match n with
        | 0 => raise .truncatedEscape (pos i)
        | n' + 1 =>
          match read (i + 1) with
          | .error h => .error h
          | .ok e =>
            match tableAt p.ext e with
            | none => raise .unmappableChar (pos i)
            | some c =>
              match push out c p.nTxt (pos i) with
              | .error h => .error h
              | .ok out' => unmapFrom p read pos n' (i + 2) out'
      else
        match tableAt p.basic s with
        | none => raise .unmappableChar (pos i)
        | some c =>
          match push out c p.nTxt (pos i) with
          | .error h => .error h
          | .ok out' => unmapFrom p read pos n (i + 1) out'

/-- Septet `i` of a list, as a source. -/
def readList (s : List Septet) (i : Nat) : Except Halt Septet := .ok (s.getD i 0)

/-! ## Commands -/

/-- G7_MAP's pseudocode (R156). -/
def g7Map (p : Params) (n : Nat) (txt : Buffer 32) : Except Halt Commit :=
  if p.nTxt < n then raise .incorrectSize 0
  else
    match map7 p txt n with
    | .error h => .error h
    | .ok sep => .ok { sep := sep, dstLen := sep.length, lenf := sep.length, consumed := n }

/-- G7_MAP (R156): code points to septets. -/
def execG7Map (s : State) : Host.Outcome State Fault Refusal :=
  completeCommand (g7Map defaultParams (srcLenOf s) s.mem.txt) s

/-- G7_UNMAP's pseudocode (R157); the error position of septet i is i. -/
def g7Unmap (p : Params) (l : Nat) (sep : Buffer 7) : Except Halt Commit :=
  if p.nSep < l then raise .incorrectSize 0
  else
    match unmapFrom p (fetchElem .sep sep) id l 0 [] with
    | .error h => .error h
    | .ok txt => .ok { txt := txt, dstLen := txt.length, lenf := l, consumed := l }

/-- G7_UNMAP (R157): septets to code points. -/
def execG7Unmap (s : State) : Host.Outcome State Fault Refusal :=
  completeCommand (g7Unmap defaultParams (srcLenOf s) s.mem.sep) s

/-- SEPT_PACK's pseudocode (R158). -/
def septPack (p : Params) (n : Nat) (sep : Buffer 7) : Except Halt Commit :=
  if p.nSep < n then raise .incorrectSize 0
  else if p.nOct < ceilDiv (7 * n) 8 then raise .incorrectSize 0
  else
    match fetchAll .sep sep n with
    | .error h => .error h
    | .ok s => .ok { oct := pack7 s, dstLen := (pack7 s).length, lenf := n, consumed := n }

/-- SEPT_PACK (R158): septets into octets. -/
def execSeptPack (s : State) : Host.Outcome State Fault Refusal :=
  completeCommand (septPack defaultParams (srcLenOf s) s.mem.sep) s

/-- SEPT_UNPACK's pseudocode (R159): `m` octets available, `l` septets declared. -/
def septUnpack (p : Params) (m l : Nat) (oct : Buffer 8) : Except Halt Commit :=
  if p.nOct < m then raise .incorrectSize 0
  else if p.nSep < l then raise .incorrectSize 0
  else if m < ceilDiv (7 * l) 8 then raise .truncated m
  else
    match fetchAll .oct oct (ceilDiv (7 * l) 8) with
    | .error h => .error h
    | .ok o => .ok { sep := unpack7 o l, dstLen := (unpack7 o l).length, lenf := l, consumed := ceilDiv (7 * l) 8 }

/-- SEPT_UNPACK (R159): a declared number of septets out of octets. -/
def execSeptUnpack (s : State) : Host.Outcome State Fault Refusal :=
  completeCommand (septUnpack defaultParams (srcLenOf s) (auxOf s) s.mem.oct) s

/-- G7_ENCODE's pseudocode (R160): translation, then packing; SEP is staged as well. -/
def g7Encode (p : Params) (n : Nat) (txt : Buffer 32) : Except Halt Commit :=
  if p.nTxt < n then raise .incorrectSize 0
  else
    match map7 p txt n with
    | .error h => .error h
    | .ok sep =>
      if p.nOct < ceilDiv (7 * sep.length) 8 then raise .incorrectSize 0
      else
        .ok { sep := sep, oct := pack7 sep, dstLen := (pack7 sep).length, lenf := sep.length, consumed := n }

/-- G7_ENCODE (R160). -/
def execG7Encode (s : State) : Host.Outcome State Fault Refusal :=
  completeCommand (g7Encode defaultParams (srcLenOf s) s.mem.txt) s

/-- The error position of septet i in G7_DECODE: the octet that holds its bit 0 (R161). -/
def septetOctet (i : Nat) : Nat := (7 * i) / 8

/-- G7_DECODE's pseudocode (R161): unpacking, then translation; SEP is staged as well. -/
def g7Decode (p : Params) (m l : Nat) (oct : Buffer 8) : Except Halt Commit :=
  if p.nOct < m then raise .incorrectSize 0
  else if p.nSep < l then raise .incorrectSize 0
  else if m < ceilDiv (7 * l) 8 then raise .truncated m
  else
    match fetchAll .oct oct (ceilDiv (7 * l) 8) with
    | .error h => .error h
    | .ok o =>
      match unmapFrom p (readList (unpack7 o l)) septetOctet l 0 [] with
      | .error h => .error h
      | .ok txt =>
        .ok { sep := unpack7 o l, txt := txt, dstLen := txt.length, lenf := l, consumed := ceilDiv (7 * l) 8 }

/-- G7_DECODE (R161). -/
def execG7Decode (s : State) : Host.Outcome State Fault Refusal :=
  completeCommand (g7Decode defaultParams (srcLenOf s) (auxOf s) s.mem.oct) s

/-- USSD_PACK's pseudocode (R162): that of G7_ENCODE, with no padding of its own. -/
def ussdPack (p : Params) (n : Nat) (txt : Buffer 32) : Except Halt Commit := g7Encode p n txt

/-- USSD_PACK (R162). -/
def execUssdPack (s : State) : Host.Outcome State Fault Refusal :=
  completeCommand (ussdPack defaultParams (srcLenOf s) s.mem.txt) s

end Sys2Proof.Machine
end

