-- ==== Sys2Proof/Machine/SemiOctet.lean ====
section
/-! DEFINITION. The semi-octet commands (41_semi_octet.md R112 to R118). Each command's pseudocode is a function of the
build's parameters, its operands and its source buffer; its meaning completes the command with what it answers. -/

namespace Sys2Proof.Machine

/-- One element of SEMI_ENC_NUM's loop (R112). -/
def semiEncNumBody (p : Params) (txt : Buffer 32) (i : Nat) (out : List Octet) : Except Halt (List Octet) :=
  match fetchElem .txt txt i with
  | .error h => .error h
  | .ok x => if 99 < x.toNat then raise .invalidDigits i else push out (semiOctet x.toNat) p.nOct i

/-- SEMI_ENC_NUM's pseudocode (R112). -/
def semiEncNum (p : Params) (n : Nat) (txt : Buffer 32) : Except Halt Commit :=
  if p.nTxt < n then raise .incorrectSize 0
  else
    match forFrom (semiEncNumBody p txt) 0 n [] with
    | .error h => .error h
    | .ok out => .ok { oct := out, dstLen := out.length, lenf := n, consumed := n }

/-- SEMI_ENC_NUM (R112): numbers 0 to 99, one per octet. -/
def execSemiEncNum (s : State) : Host.Outcome State Fault Refusal :=
  completeCommand (semiEncNum defaultParams (srcLenOf s) s.mem.txt) s

/-- One octet of SEMI_DEC_NUM's loop (R113). -/
def semiDecNumBody (p : Params) (oct : Buffer 8) (i : Nat) (out : List Word) : Except Halt (List Word) :=
  match fetchElem .oct oct i with
  | .error h => .error h
  | .ok b =>
    if 9 < lowNibble b ∨ 9 < highNibble b then raise .invalidDigits i
    else push out (BitVec.ofNat 32 (10 * lowNibble b + highNibble b)) p.nTxt i

/-- SEMI_DEC_NUM's pseudocode (R113). -/
def semiDecNum (p : Params) (n : Nat) (oct : Buffer 8) : Except Halt Commit :=
  if p.nOct < n then raise .incorrectSize 0
  else
    match forFrom (semiDecNumBody p oct) 0 n [] with
    | .error h => .error h
    | .ok out => .ok { txt := out, dstLen := out.length, lenf := n, consumed := n }

/-- SEMI_DEC_NUM (R113): octets into numbers 0 to 99. -/
def execSemiDecNum (s : State) : Host.Outcome State Fault Refusal :=
  completeCommand (semiDecNum defaultParams (srcLenOf s) s.mem.oct) s

/-- The second digit of pair `k` in SEMI_ENC_DIG, or the padding 0xF of an odd count (R111, R114). -/
def secondDigit (d : Nat) (txt : Buffer 32) (k : Nat) : Except Halt Nat :=
  if 2 * k + 1 < d then
    match fetchElem .txt txt (2 * k + 1) with
    | .error h => .error h
    | .ok hi => if 9 < hi.toNat then raise .invalidDigits (2 * k + 1) else .ok hi.toNat
  else .ok 0xF

/-- One digit pair of SEMI_ENC_DIG's loop (R114). -/
def semiEncDigBody (p : Params) (d : Nat) (txt : Buffer 32) (k : Nat) (out : List Octet) :
    Except Halt (List Octet) :=
  match fetchElem .txt txt (2 * k) with
  | .error h => .error h
  | .ok lo =>
    if 9 < lo.toNat then raise .invalidDigits (2 * k)
    else
      match secondDigit d txt k with
      | .error h => .error h
      | .ok hi => push out (nibbles lo.toNat hi) p.nOct (2 * k)

/-- SEMI_ENC_DIG's pseudocode (R114). -/
def semiEncDig (p : Params) (d : Nat) (txt : Buffer 32) : Except Halt Commit :=
  if p.nTxt < d then raise .incorrectSize 0
  else
    match forFrom (semiEncDigBody p d txt) 0 (ceilDiv d 2) [] with
    | .error h => .error h
    | .ok out => .ok { oct := out, dstLen := out.length, lenf := d, consumed := d }

/-- SEMI_ENC_DIG (R114): a digit string, padded with 0xF. -/
def execSemiEncDig (s : State) : Host.Outcome State Fault Refusal :=
  completeCommand (semiEncDig defaultParams (srcLenOf s) s.mem.txt) s

/-- Digit `k`'s nibble: the low nibble of octet k div 2 for even `k`, else the high one (R115). -/
def digitNibble (b : Octet) (k : Nat) : Nat := if k % 2 = 0 then lowNibble b else highNibble b

/-- SEMI_DEC_DIG's loop from digit `k` on, `n` digits left; a nibble 0xF ends it (R115). -/
def digitsFrom (p : Params) (oct : Buffer 8) (k : Nat) : Nat → List Word → Except Halt (List Word)
  | 0, out => .ok out
  | n + 1, out =>
    match fetchElem .oct oct (k / 2) with
    | .error h => .error h
    | .ok b =>
      if digitNibble b k = 0xF then .ok out
      else if 9 < digitNibble b k then raise .invalidDigits (k / 2)
      else
        match push out (BitVec.ofNat 32 (digitNibble b k)) p.nTxt (k / 2) with
        | .error h => .error h
        | .ok out' => digitsFrom p oct (k + 1) n out'

/-- SEMI_DEC_DIG's pseudocode (R115): `m` octets available, `d` digits declared. -/
def semiDecDig (p : Params) (m d : Nat) (oct : Buffer 8) : Except Halt Commit :=
  if p.nOct < m then raise .incorrectSize 0
  else if p.nTxt < d then raise .incorrectSize 0
  else if m < ceilDiv d 2 then raise .truncated m
  else
    match digitsFrom p oct 0 d [] with
    | .error h => .error h
    | .ok out => .ok { txt := out, dstLen := out.length, lenf := out.length, consumed := ceilDiv d 2 }

/-- SEMI_DEC_DIG (R115): a digit string with an external digit count. -/
def execSemiDecDig (s : State) : Host.Outcome State Fault Refusal :=
  completeCommand (semiDecDig defaultParams (srcLenOf s) (auxOf s) s.mem.oct) s

/-- The time-zone octet of a sign and a magnitude up to 79 (R116, R117). -/
def tzOctet (negative : Bool) (m : Nat) : Nat := ((m % 10) <<< 4) ||| (m / 10) ||| (negative.toNat <<< 3)

/-- SEMI_ENC_TZ's pseudocode (R117), `q` = sext_32(ARG). -/
def semiEncTz (q : Int) : Except Halt Commit :=
  if 79 < q.natAbs then raise .invalidDigits 0
  else
    .ok { result := some (BitVec.ofNat 32 (tzOctet (decide (q < 0)) q.natAbs))
          dstLen := 0, lenf := 0, consumed := 0 }

/-- SEMI_ENC_TZ (R117): a signed quarter-hour count into one octet. It changes no buffer (log 23, DESIGN CHOICE). -/
def execSemiEncTz (s : State) : Host.Outcome State Fault Refusal :=
  completeCommand (semiEncTz s.arg.toInt) s

/-- The magnitude of a time-zone octet: 10 times b[2:0] plus b[7:4] (R118). -/
def tzMagnitude (b : Octet) : Nat := 10 * (b.extractLsb' 0 3).toNat + highNibble b

/-- SEMI_DEC_TZ's pseudocode (R118), `b` = ARG[7:0]. -/
def semiDecTz (b : Octet) : Except Halt Commit :=
  if 9 < highNibble b then raise .invalidDigits 0
  else
    .ok { result := some (BitVec.ofNat 32
            (if b.getLsbD 3 then (2 ^ 32 - tzMagnitude b) % 2 ^ 32 else tzMagnitude b))
          dstLen := 0, lenf := 0, consumed := 0 }

/-- SEMI_DEC_TZ (R118): a time-zone octet into a signed quarter-hour count. It changes no buffer (log 23, DESIGN CHOICE). -/
def execSemiDecTz (s : State) : Host.Outcome State Fault Refusal :=
  completeCommand (semiDecTz (s.arg.extractLsb' 0 8)) s

end Sys2Proof.Machine
end

