-- ==== Sys2Proof/Machine/Ucs2.lean ====
section
/-! DEFINITION. The UCS-2 (UTF-16 big-endian) commands (43_ucs2.md R190 to R193). -/

namespace Sys2Proof.Machine

/-- push the two octets of each code unit, high octet first, all at error position `pos` (R192). -/
def pushUnits (cap pos : Nat) : List Nat → List Octet → Except Halt (List Octet)
  | [], out => .ok out
  | u :: us, out =>
    match push out (unitHigh u) cap pos with
    | .error h => .error h
    | .ok out1 =>
      match push out1 (unitLow u) cap pos with
      | .error h => .error h
      | .ok out2 => pushUnits cap pos us out2

/-- One code point of UCS2_ENC's loop (R192). -/
def ucs2EncBody (p : Params) (txt : Buffer 32) (i : Nat) (out : List Octet) : Except Halt (List Octet) :=
  match fetchElem .txt txt i with
  | .error h => .error h
  | .ok c =>
    if isSurrogate c.toNat ∨ 0x10FFFF < c.toNat then raise .unmappableChar i
    else pushUnits p.nOct i (codeUnits c.toNat) out

/-- UCS2_ENC's pseudocode (R192). -/
def ucs2Enc (p : Params) (n : Nat) (txt : Buffer 32) : Except Halt Commit :=
  if p.nTxt < n then raise .incorrectSize 0
  else
    match forFrom (ucs2EncBody p txt) 0 n [] with
    | .error h => .error h
    | .ok out => .ok { oct := out, dstLen := out.length, lenf := out.length, consumed := n }

/-- UCS2_ENC (R192). -/
def execUcs2Enc (s : State) : Host.Outcome State Fault Refusal :=
  completeCommand (ucs2Enc defaultParams (srcLenOf s) s.mem.txt) s

/-- Code unit `k`: OCT[2k] and OCT[2k+1] (R190). -/
def fetchUnit (oct : Buffer 8) (k : Nat) : Except Halt Nat :=
  match fetchElem .oct oct (2 * k) with
  | .error h => .error h
  | .ok hi =>
    match fetchElem .oct oct (2 * k + 1) with
    | .error h => .error h
    | .ok lo => .ok (codeUnit hi lo)

/-- UCS2_DEC's loop (R193) from code unit `k` on, `n` code units left. -/
def ucs2DecFrom (p : Params) (oct : Buffer 8) : Nat → Nat → List CodePoint → Except Halt (List CodePoint)
  | 0, _, out => .ok out
  | n + 1, k, out =>
    match fetchUnit oct k with
    | .error h => .error h
    | .ok u =>
      if isHighSurrogate u then
        match n with
        | 0 => raise .unmappableChar (2 * k)
        | n' + 1 =>
          match fetchUnit oct (k + 1) with
          | .error h => .error h
          | .ok v =>
            if isLowSurrogate v then
              match push out (BitVec.ofNat 32 (pairCodePoint u v)) p.nTxt (2 * k) with
              | .error h => .error h
              | .ok out' => ucs2DecFrom p oct n' (k + 2) out'
            else raise .unmappableChar (2 * k)
      else if isLowSurrogate u then raise .unmappableChar (2 * k)
      else
        match push out (BitVec.ofNat 32 u) p.nTxt (2 * k) with
        | .error h => .error h
        | .ok out' => ucs2DecFrom p oct n (k + 1) out'

/-- UCS2_DEC's pseudocode (R193). -/
def ucs2Dec (p : Params) (m : Nat) (oct : Buffer 8) : Except Halt Commit :=
  if p.nOct < m then raise .incorrectSize 0
  else if m % 2 = 1 then raise .incorrectSize 0
  else
    match ucs2DecFrom p oct (m / 2) 0 [] with
    | .error h => .error h
    | .ok out => .ok { txt := out, dstLen := out.length, lenf := m, consumed := m }

/-- UCS2_DEC (R193). -/
def execUcs2Dec (s : State) : Host.Outcome State Fault Refusal :=
  completeCommand (ucs2Dec defaultParams (srcLenOf s) s.mem.oct) s

end Sys2Proof.Machine
end

