-- ==== Sys2Proof/Machine/Dispatch.lean ====
section
/-! DEFINITION. exec: what a command's completion step does (30_encoding.md R98), one arm per command. -/

namespace Sys2Proof.Machine

def exec (i : Instr) (s : State) : Host.Outcome State Fault Refusal :=
  match i with
  | .nop => Sys2Proof.Machine.execNop s
  | .semiEncNum => Sys2Proof.Machine.execSemiEncNum s
  | .semiDecNum => Sys2Proof.Machine.execSemiDecNum s
  | .semiEncDig => Sys2Proof.Machine.execSemiEncDig s
  | .semiDecDig => Sys2Proof.Machine.execSemiDecDig s
  | .semiEncTz => Sys2Proof.Machine.execSemiEncTz s
  | .semiDecTz => Sys2Proof.Machine.execSemiDecTz s
  | .g7Map => Sys2Proof.Machine.execG7Map s
  | .g7Unmap => Sys2Proof.Machine.execG7Unmap s
  | .septPack => Sys2Proof.Machine.execSeptPack s
  | .septUnpack => Sys2Proof.Machine.execSeptUnpack s
  | .g7Encode => Sys2Proof.Machine.execG7Encode s
  | .g7Decode => Sys2Proof.Machine.execG7Decode s
  | .ussdPack => Sys2Proof.Machine.execUssdPack s
  | .ucs2Enc => Sys2Proof.Machine.execUcs2Enc s
  | .ucs2Dec => Sys2Proof.Machine.execUcs2Dec s

end Sys2Proof.Machine
end

