-- ==== Sys2Proof/WellFormed.lean ====
section
/-! DEFINITION. Well-formedness checks: of a command, of a host-program line, of a bus access and of a build's parameters. -/

namespace Sys2Proof

/-- A command has no operand field (30_encoding.md R90), so no term of Instr is ill-formed. The match names every
constructor, so a command with fields could not be added without its check. -/
def Instr.wf : Instr → Bool
  | .nop | .semiEncNum | .semiDecNum | .semiEncDig | .semiDecDig | .semiEncTz | .semiDecTz => true
  | .g7Map | .g7Unmap | .septPack | .septUnpack | .g7Encode | .g7Decode | .ussdPack => true
  | .ucs2Enc | .ucs2Dec => true

/-- A buffer line names one of the 1024 elements of a window (20_memory.md R61). -/
def HostLine.wf : HostLine → Bool
  | .w _ _ => true
  | .r _ => true
  | .wb _ i _ => i < 1024
  | .rb _ i => i < 1024
  | .wait => true

/-- An access lies in the block's window (20_memory.md R60). -/
def inWindow (addr : Nat) : Bool := Config.base ≤ addr && addr < Config.base + 0x4000

/-- The accesses the block gives a meaning to: 32-bit, word-aligned, in the window (20_memory.md R60, R64). -/
def HostOp.wf : HostOp → Bool
  | .write addr size _ => inWindow addr && size == .word && addr % 4 == 0
  | .read addr size => inWindow addr && size == .word && addr % 4 == 0
  | .wait => true

/-- No two entries have the same key. -/
def distinctKeys {α β : Type} [DecidableEq α] : List (α × β) → Bool
  | [] => true
  | (a, _) :: rest => rest.all (fun e => decide (e.1 ≠ a)) && distinctKeys rest

/-- A table is a partial map from septets (no septet has two entries), injective (no code point has two), with
nothing at the escape 0x1B, and its images are code points (42_gsm7.md R140, R141; 00_scope.md R14). -/
def tableWf (t : List (Septet × CodePoint)) : Bool :=
  distinctKeys t && distinctKeys (t.map Prod.swap)
    && t.all (fun e => decide (e.1 ≠ 0x1B) && decide (e.2.toNat ≤ 0x10FFFF))

/-- No code point is in the image of both tables (42_gsm7.md R141). -/
def imagesDisjoint (t u : List (Septet × CodePoint)) : Bool :=
  t.all fun e => u.all fun f => decide (e.2 ≠ f.2)

/-- The entries D0 fixes (42_gsm7.md R142): h, e, l, o, i in the basic table, and some index for each of ten
characters in the extension table. -/
def requiredEntries (p : Params) : Bool :=
  [(0x68, 0x68), (0x65, 0x65), (0x6C, 0x6C), (0x6F, 0x6F), (0x69, 0x69)].all (fun e => p.basic.contains e)
    && [0x20AC, 0x7B, 0x7D, 0x5B, 0x5C, 0x5D, 0x5E, 0x7E, 0x7C, 0x0C].all
        (fun c => p.ext.any (fun e => decide (e.2 = c)))

/-- A capacity is from 1 to 1024 (00_scope.md section 4, R10). -/
def capacityWf (n : Nat) : Bool := 1 ≤ n && n ≤ 1024

/-- The configuration check (93_implementation_defined.md U11): parameters that break a constraint are refused. -/
def Params.wf (p : Params) : Bool :=
  capacityWf p.nTxt && capacityWf p.nSep && capacityWf p.nOct
    && tableWf p.basic && tableWf p.ext && imagesDisjoint p.basic p.ext && requiredEntries p

end Sys2Proof
end

