-- ==== Sys2Proof/Decode.lean ====
section
/-! DEFINITION. The decoder of the command word, total on every 32-bit word, and the encoder (30_encoding.md R90 to R93, R98). -/

namespace Sys2Proof

/-- Why a command word is illegal (30_encoding.md R93). -/
inductive IllegalWord where
  /-- RES, bits 31:8, is not 0. -/
  | reservedBits
  /-- OPC is not in the opcode map. -/
  | unknownOpcode
deriving DecidableEq, Repr

/-- What the decoder answers. -/
inductive Decoded where
  | command (i : Instr)
  | illegal (why : IllegalWord)
deriving DecidableEq, Repr

/-- OPC is bits 7:0 (R90). -/
def opcOf (w : Word) : BitVec 8 := w.extractLsb' 0 8

/-- RES is bits 31:8 (R90). -/
def resOf (w : Word) : BitVec 24 := w.extractLsb' 8 24

/-- The command of an OPC, by family and function (R90, R92). -/
def opcodeMap (opc : BitVec 8) : Option Instr :=
  match opc.toNat with
  | 0x00 => some .nop
  | 0x10 => some .semiEncNum
  | 0x11 => some .semiDecNum
  | 0x12 => some .semiEncDig
  | 0x13 => some .semiDecDig
  | 0x14 => some .semiEncTz
  | 0x15 => some .semiDecTz
  | 0x20 => some .g7Map
  | 0x21 => some .g7Unmap
  | 0x22 => some .septPack
  | 0x23 => some .septUnpack
  | 0x24 => some .g7Encode
  | 0x25 => some .g7Decode
  | 0x26 => some .ussdPack
  | 0x30 => some .ucs2Enc
  | 0x31 => some .ucs2Dec
  | _ => none

/-- The decoding of a command word: RES first, then OPC, in the order of R98. -/
def decode (w : Word) : Decoded :=
  if resOf w ≠ 0 then .illegal .reservedBits
  else
    match opcodeMap (opcOf w) with
    | some i => .command i
    | none => .illegal .unknownOpcode

/-- FAM, bits 7:4: 0 control, 1 semi-octet, 2 GSM 7-bit, 3 UCS-2 (R90). -/
def famOf : Instr → BitVec 4
  | .nop => 0
  | .semiEncNum | .semiDecNum | .semiEncDig | .semiDecDig | .semiEncTz | .semiDecTz => 1
  | .g7Map | .g7Unmap | .septPack | .septUnpack | .g7Encode | .g7Decode | .ussdPack => 2
  | .ucs2Enc | .ucs2Dec => 3

/-- FN, bits 3:0: the function within the family (R90, R92). -/
def fnOf : Instr → BitVec 4
  | .nop => 0
  | .semiEncNum => 0
  | .semiDecNum => 1
  | .semiEncDig => 2
  | .semiDecDig => 3
  | .semiEncTz => 4
  | .semiDecTz => 5
  | .g7Map => 0
  | .g7Unmap => 1
  | .septPack => 2
  | .septUnpack => 3
  | .g7Encode => 4
  | .g7Decode => 5
  | .ussdPack => 6
  | .ucs2Enc => 0
  | .ucs2Dec => 1

/-- The word of a command: RES = 0, FAM, FN (R90). -/
def encode (i : Instr) : Word := (0 : BitVec 24) ++ famOf i ++ fnOf i

/-- The instruction the decoder reads from a table word of `nbits` bits; every bit above them is 0. -/
def decodeTableWord (nbits w : Nat) : Option Instr :=
  match decode (BitVec.ofNat 32 (w % 2 ^ nbits)) with
  | .command i => some i
  | .illegal _ => none

end Sys2Proof
end

