-- ==== Sys2Proof/Machine/Flags.lean ====
section
/-! DEFINITION. The status word, the derived flags and the interrupt line (10_state.md R23, R36, R45; 44_control.md R212; 60_exceptions.md R233). -/

namespace Sys2Proof.Machine

/-- STATUS.ERR: 1 when ERRCODE is not 0; not separate storage (10_state.md R36). -/
def errFlag (s : State) : Bool := s.errCode != 0

/-- A flag as one bit. -/
def bit (b : Bool) : BitVec 1 := BitVec.ofBool b

/-- STATUS as read: BUSY | DONE << 1 | OVR << 2 | ERR << 3 | ERRCODE << 8, the other bits 0 (R212, R32). -/
def statusWord (s : State) : Word :=
  (0 : BitVec 20) ++ s.errCode ++ (0 : BitVec 4) ++ bit (errFlag s) ++ bit s.ovr ++ bit s.done ++ bit s.busy

/-- CTRL as read: zext_32(IE), SRST reads 0 (44_control.md R211). -/
def ctrlWord (s : State) : Word := (bit s.ie).zeroExtend 32

/-- The interrupt output, a level: STATUS.DONE & CTRL.IE (10_state.md R45, 60_exceptions.md R233). -/
def irq (s : State) : Bool := s.done && s.ie

/-- The W1C write of STATUS (44_control.md R212). -/
def writeStatus (v : Word) (s : State) : State :=
  let s1 := if v.getLsbD 1 then clearDone s else s
  if v.getLsbD 2 then { s1 with ovr := false } else s1

/-- The write of CTRL: IE first, then the soft reset if bit 1 is 1 (44_control.md R211; 70_reset_and_hazards.md R264). -/
def writeCtrl (v : Word) (s : State) : State :=
  let s1 := { s with ie := v.getLsbD 0 }
  if v.getLsbD 1 then resetRegisters s1 else s1

/-- A write dropped while BUSY = 1 sets OVR and changes nothing else (70_reset_and_hazards.md R270). -/
def dropWrite (s : State) : State := { s with ovr := true }

end Sys2Proof.Machine
end

