-- ==== Sys2Proof/Machine/HostPort.lean ====
section
/-! DEFINITION. The host port: which accesses are admitted (20_memory.md R64), the address map (R61 to R63), what a
host write and a host read do (10_state.md R21 to R32; 44_control.md R211 to R213; 70_reset_and_hazards.md R270, R271),
and the host-program notation (30_encoding.md R99, R100). -/

namespace Sys2Proof.Machine

/-! ## Address map -/

/-- The register at a word-aligned offset below 0x1000, if the map lists one (10_state.md section 2). -/
def regAt (off : Nat) : Option Reg :=
  match off with
  | 0x000 => some .id
  | 0x004 => some .ctrl
  | 0x008 => some .status
  | 0x00C => some .cmd
  | 0x010 => some .srcLen
  | 0x014 => some .aux
  | 0x018 => some .arg
  | 0x01C => some .dstLen
  | 0x020 => some .lenf
  | 0x024 => some .consumed
  | 0x028 => some .result
  | _ => none

/-- What stands at a word-aligned offset of the window (20_memory.md R61). -/
def targetOf (off : Nat) : Target :=
  if off < 0x1000 then
    match regAt off with
    | some r => .reg r
    | none => .reserved
  else if off < 0x2000 then .elem .txt ((off - 0x1000) / 4)
  else if off < 0x3000 then .elem .sep ((off - 0x2000) / 4)
  else .elem .oct ((off - 0x3000) / 4)

/-- A buffer's capacity (00_scope.md R10). -/
def capacityOf : Buf → Nat
  | .txt => defaultParams.nTxt
  | .sep => defaultParams.nSep
  | .oct => defaultParams.nOct

/-- The offset in the window of an access the block admits, or why it is refused (R60, R64;
70_reset_and_hazards.md R264). -/
def admission (addr : Nat) (size : AccessSize) (s : State) : Except Refusal Nat :=
  if s.rst then .error .accessDuringReset
  else if addr < Config.base ∨ Config.base + 0x4000 ≤ addr then .error .outsideWindow
  else if size ≠ .word then .error .narrowAccess
  else if addr % 4 ≠ 0 then .error .misalignedAccess
  else .ok (addr - Config.base)

/-! ## Writes -/

/-- BUF[i] <- v from the host: TXT keeps 32 bits, SEP v[6:0], OCT v[7:0] (10_state.md R40 to R42). -/
def writeBuffer (b : Buf) (i : Nat) (v : Word) (m : Memory) : Memory :=
  match b with
  | .txt => { m with txt := writeElem m.txt i v }
  | .sep => { m with sep := writeElem m.sep i (v.setWidth 7) }
  | .oct => { m with oct := writeElem m.oct i (v.setWidth 8) }

/-- A write of an operand register: dropped while BUSY = 1 (70_reset_and_hazards.md R270). -/
def writeOperand (s written : State) : State := if s.busy then dropWrite s else written

/-- HostWrite of `v` to what stands at the offset. Read-only registers and reserved offsets ignore it without OVR
(44_control.md R213, 20_memory.md R63), and so do elements beyond capacity (R62). -/
def hostWrite (t : Target) (v : Word) (s : State) : State :=
  match t with
  | .reg .id => s
  | .reg .ctrl => writeCtrl v s
  | .reg .status => writeStatus v s
  | .reg .cmd => writeOperand s (startStep v s)
  | .reg .srcLen => writeOperand s { s with srcLen := v.setWidth 16 }
  | .reg .aux => writeOperand s { s with aux := v.setWidth 16 }
  | .reg .arg => writeOperand s { s with arg := v }
  | .reg .dstLen => s
  | .reg .lenf => s
  | .reg .consumed => s
  | .reg .result => s
  | .elem b i => if capacityOf b ≤ i then s else writeOperand s { s with mem := writeBuffer b i v s.mem }
  | .reserved => s

/-! ## Reads -/

/-- The buffers a command writes (30_encoding.md R95). NOP, SEMI_ENC_TZ and SEMI_DEC_TZ write none: R94 calls NOP the
only command that changes no buffer, and the model follows R95 and the pseudocode of 41_semi_octet.md R117 and R118
instead (log 23, DESIGN CHOICE, unsafe). -/
def writesBuffer : Instr → Buf → Bool
  | .nop, _ => false
  | .semiEncNum, b => b == .oct
  | .semiDecNum, b => b == .txt
  | .semiEncDig, b => b == .oct
  | .semiDecDig, b => b == .txt
  | .semiEncTz, _ => false
  | .semiDecTz, _ => false
  | .g7Map, b => b == .sep
  | .g7Unmap, b => b == .txt
  | .septPack, b => b == .oct
  | .septUnpack, b => b == .sep
  | .g7Encode, b => b == .sep || b == .oct
  | .g7Decode, b => b == .sep || b == .txt
  | .ussdPack, b => b == .sep || b == .oct
  | .ucs2Enc, b => b == .oct
  | .ucs2Dec, b => b == .txt

/-- A command is pending that writes the buffer: a read of its elements is a draw (70_reset_and_hazards.md R271). -/
def pendingWrites (s : State) (b : Buf) : Bool :=
  match decode s.cmd with
  | .command i => s.busy && writesBuffer i b
  | .illegal _ => false

/-- The width of a buffer's elements (10_state.md R40 to R42). -/
def elemWidth : Buf → Nat
  | .txt => 32
  | .sep => 7
  | .oct => 8

/-- Element `i` zero-extended to a word, if it has been written. -/
def readBuffer (b : Buf) (i : Nat) (m : Memory) : Option Word :=
  match b with
  | .txt => readElem m.txt i
  | .sep => (readElem m.sep i).map (BitVec.setWidth 32)
  | .oct => (readElem m.oct i).map (BitVec.setWidth 32)

/-- A word a read returns, and the state after it: a read changes no block state (20_memory.md R67); only the model's
own counter moves on when the word is a draw. -/
structure ReadResult where
  data  : Word
  after : State

/-- A draw of `w` bits, zero-extended. -/
def drawRead (w : Nat) (s : State) : ReadResult := ⟨(drawBits w s).setWidth 32, afterDraw s⟩

/-- A result register: a draw of its field while BUSY = 1, else its value zero-extended (70_reset_and_hazards.md R271). -/
def readResultReg {w : Nat} (v : BitVec w) (s : State) : ReadResult :=
  if s.busy then drawRead w s else ⟨v.setWidth 32, s⟩

/-- An element within capacity: a draw while the pending command writes the buffer (R271), or while it has never been
written (10_state.md R43); else its value. Beyond capacity it reads 0 (20_memory.md R62), BUSY or not (log 21, DEDUCED). -/
def readElement (b : Buf) (i : Nat) (s : State) : ReadResult :=
  if capacityOf b ≤ i then ⟨0, s⟩
  else if pendingWrites s b then drawRead (elemWidth b) s
  else
    match readBuffer b i s.mem with
    | some v => ⟨v, s⟩
    | none => drawRead (elemWidth b) s

/-- HostRead of what stands at the offset. -/
def hostRead (t : Target) (s : State) : ReadResult :=
  match t with
  | .reg .id => ⟨defaultParams.idValue, s⟩
  | .reg .ctrl => ⟨ctrlWord s, s⟩
  | .reg .status => ⟨statusWord s, s⟩
  | .reg .cmd => ⟨s.cmd, s⟩
  | .reg .srcLen => ⟨s.srcLen.setWidth 32, s⟩
  | .reg .aux => ⟨s.aux.setWidth 32, s⟩
  | .reg .arg => ⟨s.arg, s⟩
  | .reg .dstLen => readResultReg s.dstLen s
  | .reg .lenf => readResultReg s.lenf s
  | .reg .consumed => readResultReg s.consumed s
  | .reg .result => readResultReg s.result s
  | .elem b i => readElement b i s
  | .reserved => ⟨0, s⟩

/-- The host receives the word it read. -/
def deliver (r : ReadResult) : State := { r.after with readData := some r.data }

/-! ## The host's turn -/

/-- WAIT (30_encoding.md R100): one read of STATUS; the loop ends when the word read has bit 0 (BUSY) = 0.
One read per host turn (log 19, DESIGN CHOICE). -/
def pollStatus (rest : List HostOp) (s : State) : State :=
  let r := hostRead (.reg .status) s
  if r.data.getLsbD 0 then deliver r else { deliver r with program := rest }

/-- The host makes its next move, if it has one (20_memory.md R69: one access at a time, in program order). -/
def hostTurn (s : State) : Host.Outcome State Fault Refusal :=
  match s.program with
  | [] => .next s
  | .write addr size v :: rest =>
    match admission addr size s with
    | .error why => .refused why
    | .ok off => .next (hostWrite (targetOf off) v { s with program := rest })
  | .read addr size :: rest =>
    match admission addr size s with
    | .error why => .refused why
    | .ok off => .next (deliver (hostRead (targetOf off) { s with program := rest }))
  | .wait :: rest => if s.rst then .refused .accessDuringReset else .next (pollStatus rest s)

/-! ## Host-program notation -/

/-- off(reg) (30_encoding.md R99). -/
def regOffset : Reg → Nat
  | .id => 0x000
  | .ctrl => 0x004
  | .status => 0x008
  | .cmd => 0x00C
  | .srcLen => 0x010
  | .aux => 0x014
  | .arg => 0x018
  | .dstLen => 0x01C
  | .lenf => 0x020
  | .consumed => 0x024
  | .result => 0x028

/-- base(buf) (R99). -/
def bufferOffset : Buf → Nat
  | .txt => 0x1000
  | .sep => 0x2000
  | .oct => 0x3000

/-- The bus transaction of a line (R99). -/
def lineOp : HostLine → HostOp
  | .w r v => .write (Config.base + regOffset r) .word v
  | .r r => .read (Config.base + regOffset r) .word
  | .wb b i v => .write (Config.base + bufferOffset b + 4 * i) .word v
  | .rb b i => .read (Config.base + bufferOffset b + 4 * i) .word
  | .wait => .wait

/-- WB buf[k], v for each listed value, from element `k` on. -/
def writeLines (b : Buf) (k : Nat) : List Word → List HostLine
  | [] => []
  | v :: rest => .wb b k v :: writeLines b (k + 1) rest

/-- EXEC <mnemonic> (R100). -/
def execLines (i : Instr) : List HostLine := [.w .cmd (encode i), .wait]

/-- WTXT (R100). -/
def wtxtLines (cs : List CodePoint) : List HostLine :=
  writeLines .txt 0 cs ++ [.w .srcLen (BitVec.ofNat 32 cs.length)]

/-- WOCT (R100). -/
def woctLines (os : List Octet) : List HostLine :=
  writeLines .oct 0 (os.map (BitVec.setWidth 32)) ++ [.w .srcLen (BitVec.ofNat 32 os.length)]

/-- WSEP (R100). -/
def wsepLines (ss : List Septet) : List HostLine :=
  writeLines .sep 0 (ss.map (BitVec.setWidth 32)) ++ [.w .srcLen (BitVec.ofNat 32 ss.length)]

/-- A program in the notation, as the host's moves. -/
def assemble (lines : List HostLine) : List HostOp := lines.map lineOp

end Sys2Proof.Machine
end

