-- ==== Sys2Proof/Machine/Engine.lean ====
section
/-! DEFINITION. The engine's step (30_encoding.md R98), the reset input (70_reset_and_hazards.md R260 to R264), and
what each turn of the schedule does. -/

namespace Sys2Proof.Machine

/-- The completion step: the stored word is decoded; an illegal one completes with IllegalCommand (R98). -/
def completionStep (s : State) : Host.Outcome State Fault Refusal :=
  match decode s.cmd with
  | .command i => exec i s
  | .illegal _ => completeIllegal s

/-- One engine step: while BUSY = 1 it decrements `remaining`, and the step that brings it to 0 is the completion step
(R98). When BUSY = 0 nothing happens (60_exceptions.md R243), nor while `rst` is asserted (R264; log 13, DEDUCED). -/
def engineTurn (s : State) : Host.Outcome State Fault Refusal :=
  if s.rst ∨ s.busy = false then .next s
  else if s.remaining - 1 = 0 then completionStep { s with remaining := 0 }
  else .next { s with remaining := s.remaining - 1 }

/-- The reset input is asserted: every register is reset and a pending command cancelled (R261, R263). -/
def assertReset (s : State) : State := { resetRegisters s with rst := true }

/-- What the turn's agent does. -/
def takeTurn (t : Turn) (s : State) : Host.Outcome State Fault Refusal :=
  match t with
  | .host => hostTurn s
  | .engine => engineTurn s
  | .powerOnReset => .next (forgetBuffers (assertReset s))
  | .rstAssert => .next (assertReset s)
  | .rstDeassert => .next { s with rst := false }

/-- The schedule's next turn; with none left the host stays away and the engine takes its steps (log 6, DESIGN CHOICE). -/
def nextTurn (s : State) : Host.Outcome State Fault Refusal :=
  match s.sched with
  | [] => takeTurn .engine s
  | t :: rest => takeTurn t { s with sched := rest }

/-- `s` as a start step leaves it for the command word, one engine step before its completion, that engine step next
(log 14, DESIGN CHOICE). -/
def pendingCommand (w : Word) (s : State) : State :=
  { s with
    cmd := w
    busy := true
    done := false
    errCode := 0
    remaining := 1
    rst := false
    sched := .engine :: s.sched }

end Sys2Proof.Machine
end

