-- ==== Sys2Proof/Machine/Step.lean ====
section
/-! DEFINITION. step, and how a command word is placed for the next step to run it. -/

namespace Sys2Proof.Machine

/-- One step of the machine: the next turn of the schedule (00_scope.md R16). -/
def step (s : State) : Host.Outcome State Fault Refusal := nextTurn s

/-- `s` with the word pending, so that the very next step is its completion step (log 14, DESIGN CHOICE). -/
def State.withFetchWord (s : State) (nbits w : Nat) : State := pendingCommand (BitVec.ofNat 32 (w % 2 ^ nbits)) s

end Sys2Proof.Machine
end

