-- ==== Sys2Proof/Safety.lean ====
section
/-! DEFINITION. What counts as a safe run: the invariant of the machine, and when a command may run without the model fault. -/

namespace Sys2Proof.Machine

/-- What holds of every state a run reaches from reset. Each field names the rule it rests on. -/
structure State.Inv (s : State) : Prop where
  /-- Buffers are in canonical form, within the capacities (10_state.md R40 to R43). -/
  memory : s.mem.wf = true
  /-- Error codes 7 to 15 are never produced (60_exceptions.md R220, 93_implementation_defined.md U14). -/
  errorCode : s.errCode.toNat ≤ 6
  /-- While a command is pending, DONE and ERRCODE are 0 and at least one engine step is left (R34, R36, R275). -/
  pending : s.busy = true → s.done = false ∧ s.errCode = 0 ∧ 1 ≤ s.remaining
  /-- After an error the lengths are 0 (10_state.md R28, R29). -/
  failed : s.errCode ≠ 0 → s.dstLen = 0 ∧ s.lenf = 0
  /-- Result lengths and positions stay within the capacities (00_scope.md R10). -/
  lengths : s.dstLen.toNat ≤ 512 ∧ s.lenf.toNat ≤ 512 ∧ s.consumed.toNat ≤ 512
  /-- While `rst` is asserted every register holds its reset value (70_reset_and_hazards.md R261, R264). -/
  inReset : s.rst = true →
    s.ie = false ∧ s.busy = false ∧ s.done = false ∧ s.ovr = false ∧ s.errCode = 0 ∧ s.cmd = 0
      ∧ s.srcLen = 0 ∧ s.aux = 0 ∧ s.arg = 0 ∧ s.dstLen = 0 ∧ s.lenf = 0 ∧ s.consumed = 0 ∧ s.result = 0

/-- The buffer a command reads, if it reads one (30_encoding.md R95). -/
def sourceOf : Instr → Option Buf
  | .nop => none
  | .semiEncNum => some .txt
  | .semiDecNum => some .oct
  | .semiEncDig => some .txt
  | .semiDecDig => some .oct
  | .semiEncTz => none
  | .semiDecTz => none
  | .g7Map => some .txt
  | .g7Unmap => some .sep
  | .septPack => some .sep
  | .septUnpack => some .oct
  | .g7Encode => some .txt
  | .g7Decode => some .oct
  | .ussdPack => some .txt
  | .ucs2Enc => some .txt
  | .ucs2Dec => some .oct

/-- Element `i` of a buffer has been written since power-on (10_state.md R43). -/
def written (b : Buf) (i : Nat) (s : State) : Prop := (readBuffer b i s.mem).isSome = true

/-- The host has written every source element the command reads (70_reset_and_hazards.md R266). -/
def SourcesWritten (i : Instr) (s : State) : Prop :=
  ∀ b, sourceOf i = some b → ∀ k, k < s.srcLen.toNat → written b k s

/-- The step neither faults nor is refused. -/
def StepIsSafe (s : State) : Prop := ∃ t, step s = .next t

end Sys2Proof.Machine
end

