-- ==== Sys2Proof/Certificates/Slice0/Obligations.lean ====
section
/-! DEFINITION. The statements for the provers. Sys2Proof.Claims holds the words they are made of: how a list stands in
a buffer, what a completion leaves, who moves next, and each rule's own arithmetic written out from the spec. -/

namespace Sys2Proof.Claims

open Sys2Proof.Machine

/-! ## Buffers and completions -/

/-- The elements from 0 on have been written and hold the list. -/
def Holds {w : Nat} (b : Buffer w) (xs : List (BitVec w)) : Prop := ∀ k < xs.length, readElem b k = xs[k]?

/-- `after` is `before` with the list stored in the elements from 0 on, every other element as before. -/
def Stored {w : Nat} (before after : Buffer w) (out : List (BitVec w)) : Prop :=
  ∀ k, readElem after k = if k < out.length then out[k]? else readElem before k

/-- What no command writes (10_state.md R46): CTRL, OVR, CMD, the operand registers, `rst`, and the model's own record
of the outside. -/
def Kept (s t : State) : Prop :=
  t.ie = s.ie ∧ t.ovr = s.ovr ∧ t.cmd = s.cmd ∧ t.srcLen = s.srcLen ∧ t.aux = s.aux ∧ t.arg = s.arg
    ∧ t.remaining = s.remaining ∧ t.rst = s.rst ∧ t.program = s.program ∧ t.sched = s.sched
    ∧ t.readData = s.readData ∧ t.draws = s.draws

/-- A command that succeeded: BUSY 0, DONE 1, ERRCODE 0 and the three lengths (30_encoding.md R97, R98). -/
def Succeeded (s t : State) (dst len used : Nat) : Prop :=
  Kept s t ∧ t.busy = false ∧ t.done = true ∧ t.errCode = 0
    ∧ t.dstLen.toNat = dst ∧ t.lenf.toNat = len ∧ t.consumed.toNat = used

/-- The state after a command that raised: the code and the position, lengths 0, and nothing else written
(60_exceptions.md R228). -/
def failedWith (code pos : Nat) (s : State) : State :=
  { s with
    errCode := BitVec.ofNat 4 code
    dstLen := 0
    lenf := 0
    consumed := BitVec.ofNat 16 pos
    busy := false
    done := true }

/-- The buffers a command writes (the table of 30_encoding.md R95; that the time-zone commands write none, against a
remark of R94, is the model's choice, log 23). -/
def destinations : Instr → List Buf
  | .nop => []
  | .semiEncNum => [.oct]
  | .semiDecNum => [.txt]
  | .semiEncDig => [.oct]
  | .semiDecDig => [.txt]
  | .semiEncTz => []
  | .semiDecTz => []
  | .g7Map => [.sep]
  | .g7Unmap => [.txt]
  | .septPack => [.oct]
  | .septUnpack => [.sep]
  | .g7Encode => [.sep, .oct]
  | .g7Decode => [.sep, .txt]
  | .ussdPack => [.sep, .oct]
  | .ucs2Enc => [.oct]
  | .ucs2Dec => [.txt]

/-- How many elements of a buffer a completed command stored, read from the lengths it left: LENF septets in SEP,
DST_LEN elements in TXT or OCT, none in a buffer it does not write. -/
def storedCount (i : Instr) (b : Buf) (t : State) : Nat :=
  if b ∈ destinations i then (if b = .sep then t.lenf.toNat else t.dstLen.toNat) else 0

/-- The stored command word writes no element of the buffer: it is illegal, or its command does not list it. -/
def NotPendingDestination (s : State) (b : Buf) : Prop := ∀ i, decode s.cmd = .command i → b ∉ destinations i

/-! ## Who moves next -/

/-- The host is about to make this move: its turn, `rst` not asserted. -/
def HostMove (s : State) (op : HostOp) (rest : List HostOp) (ts : List Turn) : Prop :=
  s.sched = .host :: ts ∧ s.program = op :: rest ∧ s.rst = false

/-- The state with the move and the turn taken off. -/
def moved (s : State) (rest : List HostOp) (ts : List Turn) : State := { s with program := rest, sched := ts }

/-- HostWrite(BASE + off, v), a 32-bit access. -/
def wr (off : Nat) (v : Word) : HostOp := .write (Config.base + off) .word v

/-- HostRead(BASE + off), a 32-bit access. -/
def rd (off : Nat) : HostOp := .read (Config.base + off) .word

/-- The host is about to make some move of this form. -/
def HostMakes (s : State) (op : HostOp) : Prop := ∃ rest ts, HostMove s op rest ts

/-- The next step is an engine step, `rst` not asserted: an engine turn, or no turn left. -/
def EngineNext (s : State) : Prop := s.rst = false ∧ (s.sched = [] ∨ ∃ ts, s.sched = .engine :: ts)

/-- The next step brings `remaining` to 0: it is the pending command's completion step. -/
def CompletionDue (s : State) : Prop := EngineNext s ∧ s.busy = true ∧ s.remaining ≤ 1

/-- The next step is a reset: the pin, power-on, or a CTRL write with SRST = 1. -/
def ResetNext (s : State) : Prop :=
  (∃ ts, s.sched = .rstAssert :: ts ∨ s.sched = .powerOnReset :: ts)
    ∨ ∃ v, HostMakes s (wr 0x004 v) ∧ v.getLsbD 1 = true

/-- The next step clears DONE (10_state.md R34): a start step, a STATUS write with bit 1 = 1, or a reset. -/
def ClearsDone (s : State) : Prop :=
  (s.busy = false ∧ ∃ v, HostMakes s (wr 0x00C v))
    ∨ (∃ v, HostMakes s (wr 0x008 v) ∧ v.getLsbD 1 = true) ∨ ResetNext s

/-- The next step clears OVR (10_state.md R35): a STATUS write with bit 2 = 1, or a reset. -/
def ClearsOvr (s : State) : Prop := (∃ v, HostMakes s (wr 0x008 v) ∧ v.getLsbD 2 = true) ∨ ResetNext s

/-- The offsets whose writes are dropped while BUSY = 1 (70_reset_and_hazards.md R270): CMD, SRC_LEN, AUX, ARG and the
elements within capacity. -/
def DroppedWhileBusy (off : Nat) : Prop :=
  off = 0x00C ∨ off = 0x010 ∨ off = 0x014 ∨ off = 0x018
    ∨ ∃ i < 512, off = 0x1000 + 4 * i ∨ off = 0x2000 + 4 * i ∨ off = 0x3000 + 4 * i

/-- The offsets whose writes are ignored: read-only registers (44_control.md R213), reserved offsets (20_memory.md R63)
and elements beyond capacity (R62). -/
def IgnoredWrite (off : Nat) : Prop :=
  off = 0x000 ∨ off = 0x01C ∨ off = 0x020 ∨ off = 0x024 ∨ off = 0x028
    ∨ (0x02C ≤ off ∧ off < 0x1000 ∧ off % 4 = 0)
    ∨ ∃ i, 512 ≤ i ∧ i < 1024 ∧ (off = 0x1000 + 4 * i ∨ off = 0x2000 + 4 * i ∨ off = 0x3000 + 4 * i)

/-- The next step is a host write that is dropped (70_reset_and_hazards.md R270). -/
def DropsAWrite (s : State) : Prop := s.busy = true ∧ ∃ off v, HostMakes s (wr off v) ∧ DroppedWhileBusy off

/-- The state with every register at its reset value (70_reset_and_hazards.md R261); `remaining` is meaningless then. -/
def registersReset (s : State) (meaningless : Nat) : State :=
  { s with
    ie := false, busy := false, done := false, ovr := false, errCode := 0
    cmd := 0, srcLen := 0, aux := 0, arg := 0
    dstLen := 0, lenf := 0, consumed := 0, result := 0
    remaining := meaningless }

/-! ## The rules' own arithmetic -/

/-- The opcode map (30_encoding.md R92). -/
def opcode : Instr → Nat
  | .nop => 0x00
  | .semiEncNum => 0x10
  | .semiDecNum => 0x11
  | .semiEncDig => 0x12
  | .semiDecDig => 0x13
  | .semiEncTz => 0x14
  | .semiDecTz => 0x15
  | .g7Map => 0x20
  | .g7Unmap => 0x21
  | .septPack => 0x22
  | .septUnpack => 0x23
  | .g7Encode => 0x24
  | .g7Decode => 0x25
  | .ussdPack => 0x26
  | .ucs2Enc => 0x30
  | .ucs2Dec => 0x31

/-- The offset of a register (10_state.md R21 to R31). -/
def offsetOf : Reg → Nat
  | .id => 0x000
  | .ctrl => 0x004
  | .status => 0x008
  | .cmd => 0x00C
  | .srcLen => 0x010
  | .aux => 0x014
  | .arg => 0x018
  | .dstLen => 0x01C
  | .lenf => 0x020
  | .consumed => 0x024
  | .result => 0x028

/-- RES is not 0, or OPC is in one of the four ranges the map leaves out (30_encoding.md R93). -/
def IllegalWordValue (n : Nat) : Prop :=
  256 ≤ n ∨ (0x01 ≤ n ∧ n ≤ 0x0F) ∨ (0x16 ≤ n ∧ n ≤ 0x1F) ∨ (0x27 ≤ n ∧ n ≤ 0x2F) ∨ (0x32 ≤ n ∧ n ≤ 0xFF)

/-- STATUS as a number (44_control.md R212). -/
def statusValue (s : State) : Nat :=
  s.busy.toNat + 2 * s.done.toNat + 4 * s.ovr.toNat + 8 * (if s.errCode = 0 then 0 else 1) + 256 * s.errCode.toNat

/-- The semi-octet of a number (41_semi_octet.md R110): units digit high, tens digit low. -/
def semi (x : Word) : Octet := BitVec.ofNat 8 (x.toNat % 10 * 16 + x.toNat / 10)

/-- Both nibbles of an octet are decimal digits. -/
def DigitOctet (b : Octet) : Prop := b.toNat % 16 ≤ 9 ∧ b.toNat / 16 ≤ 9

/-- The number of a semi-octet (R110, R113). -/
def unsemi (b : Octet) : Word := BitVec.ofNat 32 (10 * (b.toNat % 16) + b.toNat / 16)

/-- The octets of a digit string: first digit low, second high, 0xF above a last odd one (R110, R111). -/
def digitOctets : List Word → List Octet
  | [] => []
  | [d] => [BitVec.ofNat 8 (0xF * 16 + d.toNat)]
  | d :: e :: rest => BitVec.ofNat 8 (e.toNat * 16 + d.toNat) :: digitOctets rest

/-- The k-th nibble of the octets in OCT: low nibble first (R115). -/
def nibbleAt (b : Buffer 8) (k : Nat) : Option Nat :=
  (readElem b (k / 2)).map fun o => if k % 2 = 0 then o.toNat % 16 else o.toNat / 16

/-- The septets of a code point (42_gsm7.md R145): a basic entry's septet, or the escape and an extension index. -/
def SeptetsOf (c : CodePoint) (ss : List Septet) : Prop :=
  (∃ k, (k, c) ∈ defaultParams.basic ∧ ss = [k])
    ∨ ((∀ k, (k, c) ∉ defaultParams.basic) ∧ ∃ e, (e, c) ∈ defaultParams.ext ∧ ss = [0x1B, e])

/-- A code point in neither table. -/
def Unmappable (c : CodePoint) : Prop := ∀ k, (k, c) ∉ defaultParams.basic ∧ (k, c) ∉ defaultParams.ext

/-- How a septet stream reads as text, each escape a prefix (R157). -/
inductive Reads : List Septet → List CodePoint → Prop where
  | nil : Reads [] []
  | basic {s : Septet} {c : CodePoint} {ss : List Septet} {cs : List CodePoint} :
      s ≠ 0x1B → (s, c) ∈ defaultParams.basic → Reads ss cs → Reads (s :: ss) (c :: cs)
  | ext {e : Septet} {c : CodePoint} {ss : List Septet} {cs : List CodePoint} :
      (e, c) ∈ defaultParams.ext → Reads ss cs → Reads (0x1B :: e :: ss) (c :: cs)

/-- Bit `p` of a septet stream, least significant bit first, 0 beyond its end (R150). -/
def septetBit (ss : List Septet) (p : Nat) : Bool := ((ss[p / 7]?).getD 0).getLsbD (p % 7)

/-- Bit `p` of an octet stream, least significant bit first. -/
def octetBit (os : List Octet) (p : Nat) : Bool := ((os[p / 8]?).getD 0).getLsbD (p % 8)

/-- The octets are the packing of the septets (R150, R151): ceil(7n / 8) of them, the same bit stream, padding 0. -/
def Packs (ss : List Septet) (os : List Octet) : Prop :=
  os.length = (7 * ss.length + 7) / 8 ∧ ∀ p < 8 * os.length, octetBit os p = septetBit ss p

/-- The septets are the unpacking of the octets (R154): the same bit stream, padding not read. -/
def Unpacks (os : List Octet) (ss : List Septet) : Prop :=
  ∀ p < 7 * ss.length, septetBit ss p = octetBit os p

/-- A code point UTF-16 can encode (43_ucs2.md R192). -/
def Utf16Encodable (c : CodePoint) : Prop := c.toNat ≤ 0x10FFFF ∧ ¬(0xD800 ≤ c.toNat ∧ c.toNat ≤ 0xDFFF)

/-- A 16-bit code unit as two octets, high octet first (R190). -/
def unitOctets (u : Nat) : List Octet := [BitVec.ofNat 8 (u / 256), BitVec.ofNat 8 (u % 256)]

/-- The octets of a code point: one code unit, or a surrogate pair (R191). -/
def utf16Octets (c : CodePoint) : List Octet :=
  if c.toNat ≤ 0xFFFF then unitOctets c.toNat
  else unitOctets (0xD800 + (c.toNat - 0x10000) / 1024) ++ unitOctets (0xDC00 + (c.toNat - 0x10000) % 1024)

/-- The code unit of two octets (R190). -/
def unitOf (hi lo : Octet) : Nat := 256 * hi.toNat + lo.toNat

/-- A high surrogate (R191). -/
def HighSurrogate (u : Nat) : Prop := 0xD800 ≤ u ∧ u ≤ 0xDBFF

/-- A low surrogate (R191). -/
def LowSurrogate (u : Nat) : Prop := 0xDC00 ≤ u ∧ u ≤ 0xDFFF

/-- How UTF-16 big-endian octets read as text: code units that are no surrogate, and well-formed pairs (R191, R193). -/
inductive ReadsUtf16 : List Octet → List CodePoint → Prop where
  | nil : ReadsUtf16 [] []
  | unit {a b : Octet} {os : List Octet} {cs : List CodePoint} :
      ¬HighSurrogate (unitOf a b) → ¬LowSurrogate (unitOf a b) → ReadsUtf16 os cs →
      ReadsUtf16 (a :: b :: os) (BitVec.ofNat 32 (unitOf a b) :: cs)
  | pair {a b c d : Octet} {os : List Octet} {cs : List CodePoint} :
      HighSurrogate (unitOf a b) → LowSurrogate (unitOf c d) → ReadsUtf16 os cs →
      ReadsUtf16 (a :: b :: c :: d :: os)
        (BitVec.ofNat 32 (0x10000 + (unitOf a b - 0xD800) * 1024 + (unitOf c d - 0xDC00)) :: cs)

end Sys2Proof.Claims

open Sys2Proof Sys2Proof.Machine Sys2Proof.Claims

/-! ## Encoding -/

/-- 30_encoding.md R92: the opcode map, and that a word selects a command only when it equals the zero-extended
OPC exactly; decode and encode agree for every command, and no word but its own decodes to it. -/
def Obligations.DecodeSelectsExactlyTheOpcodeMap : Prop :=
  (∀ i : Instr, (encode i).toNat = opcode i ∧ decode (encode i) = .command i)
    ∧ ∀ (w : Word) (i : Instr), decode w = .command i ↔ w = encode i

/-- 30_encoding.md R92: a command word of each family, written out bit by bit, decodes to its command. -/
def Obligations.SampleCommandWordsDecode : Prop :=
  decode 0b00000000000000000000000000000000 = .command .nop
    ∧ decode 0b00000000000000000000000000010011 = .command .semiDecDig
    ∧ decode 0b00000000000000000000000000010101 = .command .semiDecTz
    ∧ decode 0b00000000000000000000000000100100 = .command .g7Encode
    ∧ decode 0b00000000000000000000000000100110 = .command .ussdPack
    ∧ decode 0b00000000000000000000000000110001 = .command .ucs2Dec

/-- 30_encoding.md R93, 60_exceptions.md R221: the illegal words are exactly those with RES ≠ 0 or OPC in the four
ranges; one is accepted by a start step like any other, and at its completion step raises IllegalCommand (code 1) at
position 0, writing nothing but the status and result-length registers. -/
def Obligations.IllegalWordsCompleteWithIllegalCommand : Prop :=
  (∀ w : Word, (∃ why, decode w = .illegal why) ↔ IllegalWordValue w.toNat)
    ∧ (∀ (s : State) (w : Word) (rest : List HostOp) (ts : List Turn),
        IllegalWordValue w.toNat → HostMove s (wr 0x00C w) rest ts → s.busy = false →
        ∃ t, step s = .next t ∧ t.cmd = w ∧ t.busy = true ∧ 1 ≤ t.remaining)
    ∧ ∀ s : State, CompletionDue s → IllegalWordValue s.cmd.toNat →
        step s = .next (failedWith 1 0 { s with sched := s.sched.tail, remaining := 0 })

/-- 30_encoding.md R99: the bus transaction of each line of the host-program notation. -/
def Obligations.NotationLinesAreBusAccesses : Prop :=
  (∀ (r : Reg) (v : Word), lineOp (.w r v) = wr (offsetOf r) v ∧ lineOp (.r r) = rd (offsetOf r))
    ∧ ∀ (i : Nat) (v : Word), lineOp (.wb .txt i v) = wr (0x1000 + 4 * i) v
        ∧ lineOp (.wb .sep i v) = wr (0x2000 + 4 * i) v ∧ lineOp (.wb .oct i v) = wr (0x3000 + 4 * i) v
        ∧ lineOp (.rb .txt i) = rd (0x1000 + 4 * i) ∧ lineOp (.rb .sep i) = rd (0x2000 + 4 * i)
        ∧ lineOp (.rb .oct i) = rd (0x3000 + 4 * i)

/-- 42_gsm7.md R140 to R142: the default tables are partial injective maps with disjoint images and nothing at 0x1B,
and hold the entries D0 fixes. -/
def Obligations.DefaultTablesMeetTheirConstraints : Prop :=
  defaultParams.wf = true
    ∧ (∀ k c d, (k, c) ∈ defaultParams.basic → (k, d) ∈ defaultParams.basic → c = d)
    ∧ (∀ k l c, (k, c) ∈ defaultParams.basic → (l, c) ∈ defaultParams.basic → k = l)
    ∧ (∀ k c d, (k, c) ∈ defaultParams.ext → (k, d) ∈ defaultParams.ext → c = d)
    ∧ (∀ k l c, (k, c) ∈ defaultParams.ext → (l, c) ∈ defaultParams.ext → k = l)
    ∧ (∀ k l c, (k, c) ∈ defaultParams.basic → (l, c) ∉ defaultParams.ext)
    ∧ (∀ c, (0x1B, c) ∉ defaultParams.basic ∧ (0x1B, c) ∉ defaultParams.ext)
    ∧ (∀ k, k ≠ 0x1B → ∃ c, (k, c) ∈ defaultParams.basic)
    ∧ (∀ c ∈ [(0x68 : BitVec 7), 0x65, 0x6C, 0x6F, 0x69], (c, c.setWidth 32) ∈ defaultParams.basic)
    ∧ ∀ c ∈ [(0x20AC : CodePoint), 0x7B, 0x7D, 0x5B, 0x5C, 0x5D, 0x5E, 0x7E, 0x7C, 0x0C], ∃ k, (k, c) ∈ defaultParams.ext

/-! ## Steps -/

/-- 30_encoding.md R98: an engine step while BUSY = 1 decrements `remaining`; the step that brings it to 0 runs the
command the stored word decodes to (exec), or raises IllegalCommand, and leaves BUSY 0 and DONE 1 either way. -/
def Obligations.EngineStepDecrementsOrRunsTheDecodedCommand : Prop :=
  ∀ s : State, EngineNext s → s.busy = true →
    (∀ n, s.remaining = n + 2 → step s = .next { s with sched := s.sched.tail, remaining := n + 1 })
      ∧ (s.remaining = 1 → ∀ i, decode s.cmd = .command i →
          step s = exec i { s with sched := s.sched.tail, remaining := 0 })
      ∧ (s.remaining = 1 → ∀ why, decode s.cmd = .illegal why →
          step s = .next (failedWith 1 0 { s with sched := s.sched.tail, remaining := 0 }))
      ∧ (s.remaining = 1 → ∀ t, step s = .next t → t.busy = false ∧ t.done = true)

/-- The model's placing of a command word (log 14): the very next step runs the command it decodes to. -/
def Obligations.PlacedCommandWordRunsNext : Prop :=
  ∀ (s : State) (w : Word) (i : Instr), decode w = .command i →
    decodeTableWord 32 w.toNat = some i
      ∧ step (s.withFetchWord 32 w.toNat)
        = exec i { s with cmd := w, busy := true, done := false, errCode := 0, remaining := 0, rst := false }

/-- 30_encoding.md R96: a CMD write while BUSY = 0 stores the whole word, sets BUSY, clears DONE and ERRCODE, draws a
`remaining` of at least 1, and writes nothing else (but the model's draw counter). While BUSY = 1 it starts nothing and
only sets OVR. -/
def Obligations.CmdWriteStartsACommandOnlyWhileIdle : Prop :=
  ∀ (s : State) (v : Word) (rest : List HostOp) (ts : List Turn), HostMove s (wr 0x00C v) rest ts →
    (s.busy = false → ∃ n, 1 ≤ n ∧ step s = .next { moved s rest ts with
      cmd := v, busy := true, done := false, errCode := 0, remaining := n, draws := s.draws + 1 })
    ∧ (s.busy = true → step s = .next { moved s rest ts with ovr := true })

/-- 70_reset_and_hazards.md R275: a pending command completes: with no other turn scheduled, `remaining` engine steps
bring it to completion, whatever `remaining` is, if its sources are written. -/
def Obligations.PendingCommandCompletesAfterRemainingSteps : Prop :=
  ∀ (n : Nat) (s : State), s.busy = true → s.rst = false → s.sched = [] → s.remaining = n + 1 →
    Host.Core.run Sys2Proof.core n s = .next { s with remaining := 1 }
      ∧ ((∀ i, decode s.cmd = .command i → SourcesWritten i s) →
          ∃ t : State, Host.Core.run Sys2Proof.core (n + 1) s = .next t ∧ t.busy = false ∧ t.done = true)

/-- 60_exceptions.md R243, 70_reset_and_hazards.md R265: an engine step while BUSY = 0 does nothing. -/
def Obligations.IdleEngineDoesNothing : Prop :=
  ∀ s : State, EngineNext s → s.busy = false → step s = .next { s with sched := s.sched.tail }

/-- 30_encoding.md R100: WAIT reads STATUS once per host turn and repeats while the word read has BUSY = 1. -/
def Obligations.WaitPollsStatusUntilIdle : Prop :=
  ∀ (s : State) (rest : List HostOp) (ts : List Turn), HostMove s .wait rest ts →
    step s = .next { s with
      sched := ts
      program := if s.busy then s.program else rest
      readData := some (BitVec.ofNat 32 (statusValue s)) }

/-! ## Host accesses -/

/-- 70_reset_and_hazards.md R270: while BUSY = 1 a write to CMD, SRC_LEN, AUX, ARG or an element within capacity
changes nothing and sets OVR; writes to CTRL and STATUS take effect and never set OVR; writes to read-only registers,
reserved offsets and elements beyond capacity are ignored. -/
def Obligations.WritesWhileBusyAreDroppedAndSetOvr : Prop :=
  ∀ (s : State) (off : Nat) (v : Word) (rest : List HostOp) (ts : List Turn),
    HostMove s (wr off v) rest ts → s.busy = true →
    (DroppedWhileBusy off → step s = .next { moved s rest ts with ovr := true })
    ∧ (off = 0x008 →
        step s = .next { moved s rest ts with done := s.done && !v.getLsbD 1, ovr := s.ovr && !v.getLsbD 2 })
    ∧ (off = 0x004 → v.getLsbD 1 = false → step s = .next { moved s rest ts with ie := v.getLsbD 0 })
    ∧ (off = 0x004 → v.getLsbD 1 = true → ∃ r, step s = .next (registersReset (moved s rest ts) r))
    ∧ (IgnoredWrite off → step s = .next (moved s rest ts))

/-- 10_state.md R25 to R27 and R40 to R42: while BUSY = 0 a write to SRC_LEN or AUX keeps bits 15:0, to ARG all bits;
to an element of TXT all bits, of SEP bits 6:0, of OCT bits 7:0; every other register and element is as before. -/
def Obligations.WritesWhileIdleStoreTheLowBits : Prop :=
  ∀ (s : State) (off : Nat) (v : Word) (rest : List HostOp) (ts : List Turn),
    HostMove s (wr off v) rest ts → s.busy = false →
    (off = 0x010 → step s = .next { moved s rest ts with srcLen := BitVec.ofNat 16 v.toNat })
    ∧ (off = 0x014 → step s = .next { moved s rest ts with aux := BitVec.ofNat 16 v.toNat })
    ∧ (off = 0x018 → step s = .next { moved s rest ts with arg := v })
    ∧ ∀ i < 512,
      (off = 0x1000 + 4 * i → ∃ b, step s = .next { moved s rest ts with mem := { s.mem with txt := b } }
        ∧ ∀ k, readElem b k = if k = i then some v else readElem s.mem.txt k)
      ∧ (off = 0x2000 + 4 * i → ∃ b, step s = .next { moved s rest ts with mem := { s.mem with sep := b } }
        ∧ ∀ k, readElem b k = if k = i then some (BitVec.ofNat 7 v.toNat) else readElem s.mem.sep k)
      ∧ (off = 0x3000 + 4 * i → ∃ b, step s = .next { moved s rest ts with mem := { s.mem with oct := b } }
        ∧ ∀ k, readElem b k = if k = i then some (BitVec.ofNat 8 v.toNat) else readElem s.mem.oct k)

/-- 20_memory.md R62, R63, 44_control.md R213, 10_state.md R21: a write to a read-only register, a reserved offset or
an element beyond capacity is ignored, BUSY or not. -/
def Obligations.ReadOnlyAndReservedWritesAreIgnored : Prop :=
  ∀ (s : State) (off : Nat) (v : Word) (rest : List HostOp) (ts : List Turn),
    HostMove s (wr off v) rest ts → IgnoredWrite off → step s = .next (moved s rest ts)

/-- 44_control.md R211: a CTRL write sets IE to v[0], and with v[1] = 1 performs a soft reset after it, so IE is 0; it is
never dropped and never sets OVR. A read of CTRL returns IE zero-extended. -/
def Obligations.CtrlWriteSetsIeThenSoftResets : Prop :=
  ∀ (s : State) (rest : List HostOp) (ts : List Turn),
    (∀ v, HostMove s (wr 0x004 v) rest ts →
      (v.getLsbD 1 = false → step s = .next { moved s rest ts with ie := v.getLsbD 0 })
      ∧ (v.getLsbD 1 = true → ∃ r, step s = .next (registersReset (moved s rest ts) r)))
    ∧ (HostMove s (rd 0x004) rest ts →
      step s = .next { moved s rest ts with readData := some (BitVec.ofNat 32 s.ie.toNat) })

/-- 44_control.md R212: a STATUS write clears DONE where v[1] = 1 and OVR where v[2] = 1 and changes nothing else, BUSY
or not; a read of STATUS returns BUSY | DONE << 1 | OVR << 2 | ERR << 3 | ERRCODE << 8. -/
def Obligations.StatusWriteClearsAndReadPacksTheFlags : Prop :=
  ∀ (s : State) (rest : List HostOp) (ts : List Turn),
    (∀ v, HostMove s (wr 0x008 v) rest ts →
      step s = .next { moved s rest ts with
        done := if v.getLsbD 1 then false else s.done
        ovr := if v.getLsbD 2 then false else s.ovr })
    ∧ (HostMove s (rd 0x008) rest ts →
      step s = .next { moved s rest ts with readData := some (BitVec.ofNat 32 (statusValue s)) })

/-- 10_state.md R21, R24 to R32, 20_memory.md R62, R63: while BUSY = 0 every register reads as the map says, reserved
bits 0; a written element reads zero-extended, an element beyond capacity and a reserved offset read 0. -/
def Obligations.ReadsWhileIdleReturnTheStoredValues : Prop :=
  ∀ (s : State) (off : Nat) (rest : List HostOp) (ts : List Turn),
    HostMove s (rd off) rest ts → s.busy = false → ∀ n : Nat,
    ((off = 0x000 ∧ n = 0x47534D01) ∨ (off = 0x004 ∧ n = s.ie.toNat) ∨ (off = 0x008 ∧ n = statusValue s)
      ∨ (off = 0x00C ∧ n = s.cmd.toNat) ∨ (off = 0x010 ∧ n = s.srcLen.toNat) ∨ (off = 0x014 ∧ n = s.aux.toNat)
      ∨ (off = 0x018 ∧ n = s.arg.toNat) ∨ (off = 0x01C ∧ n = s.dstLen.toNat) ∨ (off = 0x020 ∧ n = s.lenf.toNat)
      ∨ (off = 0x024 ∧ n = s.consumed.toNat) ∨ (off = 0x028 ∧ n = s.result.toNat)
      ∨ (0x02C ≤ off ∧ off < 0x1000 ∧ off % 4 = 0 ∧ n = 0)
      ∨ (∃ i < 512, ∃ v, off = 0x1000 + 4 * i ∧ readElem s.mem.txt i = some v ∧ n = v.toNat)
      ∨ (∃ i < 512, ∃ v, off = 0x2000 + 4 * i ∧ readElem s.mem.sep i = some v ∧ n = v.toNat)
      ∨ (∃ i < 512, ∃ v, off = 0x3000 + 4 * i ∧ readElem s.mem.oct i = some v ∧ n = v.toNat)
      ∨ (∃ i, 512 ≤ i ∧ i < 1024 ∧ n = 0
          ∧ (off = 0x1000 + 4 * i ∨ off = 0x2000 + 4 * i ∨ off = 0x3000 + 4 * i))) →
    step s = .next { moved s rest ts with readData := some (BitVec.ofNat 32 n) }

/-- 70_reset_and_hazards.md R271: while BUSY = 1, what a read of a result register or of an element of a destination
buffer returns does not depend on what it holds; reads of ID, CTRL, STATUS, CMD, SRC_LEN, AUX, ARG and of written
elements of other buffers return the current values (all buffers while a time-zone command is pending: log 23). -/
def Obligations.ReadsWhileBusyHideResultsAndDestinations : Prop :=
  ∀ (s : State) (off : Nat) (rest : List HostOp) (ts : List Turn),
    HostMove s (rd off) rest ts → s.busy = true →
    ((off = 0x01C ∨ off = 0x020 ∨ off = 0x024 ∨ off = 0x028) →
      ∃ d : Word, ∀ (dst len used : Half) (res : Word) (m : Memory),
        step { s with dstLen := dst, lenf := len, consumed := used, result := res, mem := m }
          = .next { moved s rest ts with
              dstLen := dst, lenf := len, consumed := used, result := res, mem := m
              readData := some d, draws := s.draws + 1 })
    ∧ (∀ i, decode s.cmd = .command i → ∀ k < 512,
        ((off = 0x1000 + 4 * k ∧ .txt ∈ destinations i) ∨ (off = 0x2000 + 4 * k ∧ .sep ∈ destinations i)
          ∨ (off = 0x3000 + 4 * k ∧ .oct ∈ destinations i)) →
        ∃ d : Word, ∀ m : Memory, step { s with mem := m }
          = .next { moved s rest ts with mem := m, readData := some d, draws := s.draws + 1 })
    ∧ (∀ n : Nat,
        ((off = 0x000 ∧ n = 0x47534D01) ∨ (off = 0x004 ∧ n = s.ie.toNat) ∨ (off = 0x008 ∧ n = statusValue s)
          ∨ (off = 0x00C ∧ n = s.cmd.toNat) ∨ (off = 0x010 ∧ n = s.srcLen.toNat)
          ∨ (off = 0x014 ∧ n = s.aux.toNat) ∨ (off = 0x018 ∧ n = s.arg.toNat)) →
        step s = .next { moved s rest ts with readData := some (BitVec.ofNat 32 n) })
    ∧ (∀ k < 512, ∀ n : Nat,
        ((off = 0x1000 + 4 * k ∧ NotPendingDestination s .txt ∧ ∃ v, readElem s.mem.txt k = some v ∧ n = v.toNat)
          ∨ (off = 0x2000 + 4 * k ∧ NotPendingDestination s .sep
              ∧ ∃ v, readElem s.mem.sep k = some v ∧ n = v.toNat)
          ∨ (off = 0x3000 + 4 * k ∧ NotPendingDestination s .oct
              ∧ ∃ v, readElem s.mem.oct k = some v ∧ n = v.toNat)) →
        step s = .next { moved s rest ts with readData := some (BitVec.ofNat 32 n) })

/-- 10_state.md R43: a host read of an element never written completes with a word of the element's width; which word is
not stated. -/
def Obligations.ReadOfUnwrittenElementCompletes : Prop :=
  ∀ (s : State) (off i : Nat) (rest : List HostOp) (ts : List Turn),
    HostMove s (rd off) rest ts → i < 512 →
    (off = 0x1000 + 4 * i → readElem s.mem.txt i = none →
      ∃ d : Word, step s = .next { moved s rest ts with readData := some d, draws := s.draws + 1 })
    ∧ (off = 0x2000 + 4 * i → readElem s.mem.sep i = none →
      ∃ d : Word, d.toNat < 128 ∧ step s = .next { moved s rest ts with readData := some d, draws := s.draws + 1 })
    ∧ (off = 0x3000 + 4 * i → readElem s.mem.oct i = none →
      ∃ d : Word, d.toNat < 256 ∧ step s = .next { moved s rest ts with readData := some d, draws := s.draws + 1 })

/-- 20_memory.md R67: no read, of any address and size, changes the block's state. -/
def Obligations.ReadsChangeNoBlockState : Prop :=
  ∀ (s t : State) (addr : Nat) (size : AccessSize) (rest : List HostOp) (ts : List Turn),
    HostMove s (.read addr size) rest ts → step s = .next t →
    ∃ d n, t = { moved s rest ts with readData := some d, draws := n }

/-- 20_memory.md R64: an access is admitted only when it is 32 bits wide and word-aligned; in the window, every such
access has a next state and every other is refused. -/
def Obligations.OnlyAlignedWordAccessesAreAdmitted : Prop :=
  ∀ (s : State) (off : Nat) (size : AccessSize) (v : Word) (rest : List HostOp) (ts : List Turn), off < 0x4000 →
    (HostMove s (.write (Config.base + off) size v) rest ts ∨ HostMove s (.read (Config.base + off) size) rest ts) →
    (size = .word → off % 4 = 0 → ∃ t, step s = .next t)
      ∧ (size ≠ .word → step s = .refused .narrowAccess)
      ∧ (size = .word → off % 4 ≠ 0 → step s = .refused .misalignedAccess)

/-! ## Reset -/

/-- The state after power-on reset (70_reset_and_hazards.md R261, R262): every register the spec gives a reset value for
is 0, and no element of any buffer has been written. (`remaining` and the model's own fields are not claimed.) -/
def Obligations.ResetStateIsAllZeroAndUnwritten : Prop :=
  State.reset = { registersReset State.reset State.reset.remaining with mem := State.reset.mem }
    ∧ irq State.reset = false ∧ ∀ b k, readBuffer b k State.reset.mem = none

/-- 70_reset_and_hazards.md R261 to R263: asserting `rst`, or writing CTRL with SRST = 1, sets every register to its
reset value, pending command or not, and leaves every buffer element unchanged; the power-on reset also leaves every
element unwritten. -/
def Obligations.ResetSetsRegistersAndKeepsBuffers : Prop :=
  ∀ (s : State) (ts : List Turn),
    (s.sched = .rstAssert :: ts → ∃ r, step s = .next { registersReset s r with rst := true, sched := ts })
    ∧ (s.sched = .powerOnReset :: ts →
        ∃ r m, step s = .next { registersReset s r with rst := true, sched := ts, mem := m }
          ∧ ∀ b k, readBuffer b k m = none)
    ∧ ∀ v rest, HostMove s (wr 0x004 v) rest ts → v.getLsbD 1 = true →
        ∃ r, step s = .next (registersReset (moved s rest ts) r)

/-- 70_reset_and_hazards.md R264: while `rst` is asserted no host access is allowed and no command runs; after it is
deasserted accesses are admitted again. -/
def Obligations.AssertedResetAdmitsNoAccess : Prop :=
  ∀ (s : State) (ts : List Turn), s.rst = true →
    (∀ op rest, s.sched = .host :: ts → s.program = op :: rest → step s = .refused .accessDuringReset)
    ∧ (s.sched = .engine :: ts → step s = .next { s with sched := ts })
    ∧ (s.sched = .rstDeassert :: ts → step s = .next { s with sched := ts, rst := false })

/-! ## Whole-machine rules -/

/-- 10_state.md R33: BUSY rises at a CMD write made while idle and at nothing else, and falls at a completion step or a
reset and at nothing else. -/
def Obligations.BusyRisesAtStartAndFallsAtCompletionOrReset : Prop :=
  ∀ s t : State, step s = .next t →
    (s.busy = false → (t.busy = true ↔ ∃ v, HostMakes s (wr 0x00C v)))
      ∧ (s.busy = true → (t.busy = false ↔ CompletionDue s ∨ ResetNext s))

/-- 10_state.md R34: every completion step sets DONE, and nothing else does; a start step, a STATUS write with bit 1 = 1
and reset clear it, and nothing else does. -/
def Obligations.DoneRisesOnlyAtCompletion : Prop :=
  ∀ s t : State, step s = .next t →
    (CompletionDue s → t.done = true) ∧ (s.done = false → t.done = true → CompletionDue s)
      ∧ (ClearsDone s → t.done = false) ∧ (s.done = true → t.done = false → ClearsDone s)

/-- 10_state.md R35: a host write that R270 drops sets OVR, and nothing else does; a STATUS write with bit 2 = 1 and
reset clear it, and nothing else does, a start step included. -/
def Obligations.OvrIsStickyUntilClearedOrReset : Prop :=
  ∀ s t : State, step s = .next t →
    (DropsAWrite s → t.ovr = true) ∧ (s.ovr = false → t.ovr = true → DropsAWrite s)
      ∧ (ClearsOvr s → t.ovr = false) ∧ (s.ovr = true → t.ovr = false → ClearsOvr s)

/-- 10_state.md R31: RESULT changes only at a successful completion of SEMI_ENC_TZ or SEMI_DEC_TZ, and at reset. -/
def Obligations.ResultChangesOnlyByTimeZoneCommandsOrReset : Prop :=
  ∀ s t : State, step s = .next t → t.result ≠ s.result →
    (CompletionDue s ∧ (s.cmd = 0x14 ∨ s.cmd = 0x15) ∧ t.errCode = 0) ∨ ResetNext s

/-- 70_reset_and_hazards.md R262, R272: a buffer element changes only at a host write to it while idle, at a successful
completion, and at power-on reset. -/
def Obligations.BuffersChangeOnlyByWritesCompletionsAndPowerOn : Prop :=
  ∀ (s t : State) (b : Buf) (k : Nat), step s = .next t → readBuffer b k t.mem ≠ readBuffer b k s.mem →
    (s.busy = false ∧ k < 512 ∧ ∃ v, HostMakes s (wr (bufferOffset b + 4 * k) v))
      ∨ (CompletionDue s ∧ t.errCode = 0) ∨ ∃ ts, s.sched = .powerOnReset :: ts

/-- 10_state.md R44, 70_reset_and_hazards.md R270: while a command stays pending, its word, its operands and every
buffer stay as they were, so its outcome does not depend on when it completes. -/
def Obligations.PendingOperandsStayConstant : Prop :=
  ∀ s t : State, step s = .next t → s.busy = true → t.busy = true →
    t.cmd = s.cmd ∧ t.srcLen = s.srcLen ∧ t.aux = s.aux ∧ t.arg = s.arg ∧ t.mem = s.mem
      ∧ t.dstLen = s.dstLen ∧ t.lenf = s.lenf ∧ t.consumed = s.consumed ∧ t.result = s.result

/-- 60_exceptions.md R233, R234: irq is DONE and IE. A completion leaves it at IE, whatever the error code; a CTRL write
that sets IE (and does not reset) while DONE = 1 raises it at once; nothing else raises it. A STATUS write with bit 1 = 1,
a CTRL write with bit 0 = 0, a start step and reset lower it, and nothing else does. -/
def Obligations.IrqRisesAndFallsOnlyByTheListedEvents : Prop :=
  ∀ s t : State, step s = .next t →
    irq t = (t.done && t.ie) ∧ (CompletionDue s → irq t = s.ie)
      ∧ (s.done = true → ¬ResetNext s → (∃ v, HostMakes s (wr 0x004 v) ∧ v.getLsbD 0 = true) → irq t = true)
      ∧ (irq s = false → irq t = true →
          CompletionDue s ∨ (s.done = true ∧ ∃ v, HostMakes s (wr 0x004 v) ∧ v.getLsbD 0 = true))
      ∧ (ClearsDone s ∨ (∃ v, HostMakes s (wr 0x004 v) ∧ v.getLsbD 0 = false) → irq t = false)
      ∧ (irq s = true → irq t = false →
          ClearsDone s ∨ ∃ v, HostMakes s (wr 0x004 v) ∧ v.getLsbD 0 = false)

/-- The invariant (Safety.lean) holds right after reset. -/
def Obligations.ResetMeetsTheMachineInvariant : Prop := State.reset.Inv

/-- Every step keeps the invariant: canonical buffers within capacity, no reserved error code, a pending command's
flags, zero lengths after an error, lengths within capacity, registers held while `rst` is asserted. -/
def Obligations.EveryStepKeepsTheMachineInvariant : Prop :=
  ∀ s t : State, s.Inv → step s = .next t → t.Inv

/-! ## All commands -/

/-- 70_reset_and_hazards.md R266, 60_exceptions.md R228: once the host has written every source element, every command
completes: exec answers a next state. -/
def Obligations.WrittenSourcesMakeEveryCommandComplete : Prop :=
  ∀ (i : Instr) (s : State), SourcesWritten i s → ∃ t, exec i s = .next t

/-- 10_state.md R43: no command is refused, and one faults only by reading an element of its source buffer, below
SRC_LEN, that has never been written. -/
def Obligations.CommandsFaultOnlyOnUnwrittenSources : Prop :=
  ∀ (i : Instr) (s : State),
    (∀ r, exec i s ≠ .refused r)
      ∧ ∀ b k, exec i s = .fault (.unwrittenElement b k) →
          sourceOf i = some b ∧ k < s.srcLen.toNat ∧ readBuffer b k s.mem = none

/-- 60_exceptions.md R228, R230: a command that ends with an error code leaves exactly the error state, whichever it is:
no buffer element and not RESULT is written. -/
def Obligations.ErrorsWriteNothingButStatusAndLengths : Prop :=
  ∀ (i : Instr) (s t : State), exec i s = .next t → t.errCode ≠ 0 →
    2 ≤ t.errCode.toNat ∧ t.errCode.toNat ≤ 6 ∧ t = failedWith t.errCode.toNat t.consumed.toNat s

/-- 10_state.md R46, 30_encoding.md R95, R97: what every command leaves unchanged: CTRL, OVR, CMD and the operand
registers; RESULT, but for the time-zone commands; every element of every buffer beyond the ones it stored
(the time-zone commands store none: log 23). -/
def Obligations.CommandFrame : Prop :=
  ∀ (i : Instr) (s t : State), exec i s = .next t →
    Kept s t ∧ t.busy = false ∧ t.done = true
      ∧ (i ≠ .semiEncTz → i ≠ .semiDecTz → t.result = s.result)
      ∧ ∀ b k, storedCount i b t ≤ k → readBuffer b k t.mem = readBuffer b k s.mem

/-- 00_scope.md R17: a command is a pure function of its operand registers and its source buffer: two states that agree
on those give the same status, lengths, scalar result and stored elements (the time-zone commands store none: log 23), or the
same fault. -/
def Obligations.CommandsDependOnlyOnOperandsAndSource : Prop :=
  ∀ (i : Instr) (s s' : State), s'.srcLen = s.srcLen → s'.aux = s.aux → s'.arg = s.arg →
    (∀ b, sourceOf i = some b → ∀ k, readBuffer b k s'.mem = readBuffer b k s.mem) →
    (∀ f, exec i s = .fault f → exec i s' = .fault f)
      ∧ ∀ t, exec i s = .next t → ∃ t', exec i s' = .next t'
          ∧ t'.errCode = t.errCode ∧ t'.dstLen = t.dstLen ∧ t'.lenf = t.lenf ∧ t'.consumed = t.consumed
          ∧ (t'.result = t.result ∨ (t.result = s.result ∧ t'.result = s'.result))
          ∧ ∀ b k, k < storedCount i b t → readBuffer b k t'.mem = readBuffer b k t.mem

/-! ## Control and semi-octet commands -/

/-- 44_control.md R210: NOP writes DST_LEN = LENF = CONSUMED = 0 and ERRCODE = 0, with BUSY 0 and DONE 1; no buffer and
not RESULT. -/
def Obligations.NopClearsLengthsAndStatus : Prop :=
  ∀ s : State, exec .nop s
    = .next { s with errCode := 0, dstLen := 0, lenf := 0, consumed := 0, busy := false, done := true }

/-- 41_semi_octet.md R112: SEMI_ENC_NUM on every SRC_LEN and every TXT. A length above N_TXT raises IncorrectSize(0);
otherwise the first element above 99 raises InvalidDigits at its index, an unwritten element met before is the model
fault, and numbers 0 to 99 are stored one per octet. (Output overflow cannot arise: N_OCT = N_TXT.) -/
def Obligations.SemiEncNumStoresOneOctetPerNumber : Prop :=
  ∀ s : State,
    (512 < s.srcLen.toNat → exec .semiEncNum s = .next (failedWith 2 0 s))
    ∧ ∀ xs : List Word, s.srcLen.toNat ≤ 512 → Holds s.mem.txt xs → (∀ x ∈ xs, x.toNat ≤ 99) →
      (xs.length = s.srcLen.toNat →
        ∃ t, exec .semiEncNum s = .next t ∧ Succeeded s t xs.length xs.length xs.length
          ∧ Stored s.mem.oct t.mem.oct (xs.map semi)
          ∧ t.mem.txt = s.mem.txt ∧ t.mem.sep = s.mem.sep ∧ t.result = s.result)
      ∧ (xs.length < s.srcLen.toNat →
        (∀ x, readElem s.mem.txt xs.length = some x → 99 < x.toNat →
          exec .semiEncNum s = .next (failedWith 6 xs.length s))
        ∧ (readElem s.mem.txt xs.length = none →
          exec .semiEncNum s = .fault (.unwrittenElement .txt xs.length)))

/-- 41_semi_octet.md R113: SEMI_DEC_NUM on every SRC_LEN and every OCT: IncorrectSize(0) above N_OCT, InvalidDigits at
the first octet with a nibble above 9, else one number per octet. (Output overflow cannot arise: N_TXT = N_OCT.) -/
def Obligations.SemiDecNumStoresOneNumberPerOctet : Prop :=
  ∀ s : State,
    (512 < s.srcLen.toNat → exec .semiDecNum s = .next (failedWith 2 0 s))
    ∧ ∀ bs : List Octet, s.srcLen.toNat ≤ 512 → Holds s.mem.oct bs → (∀ b ∈ bs, DigitOctet b) →
      (bs.length = s.srcLen.toNat →
        ∃ t, exec .semiDecNum s = .next t ∧ Succeeded s t bs.length bs.length bs.length
          ∧ Stored s.mem.txt t.mem.txt (bs.map unsemi)
          ∧ t.mem.sep = s.mem.sep ∧ t.mem.oct = s.mem.oct ∧ t.result = s.result)
      ∧ (bs.length < s.srcLen.toNat →
        (∀ b, readElem s.mem.oct bs.length = some b → ¬DigitOctet b →
          exec .semiDecNum s = .next (failedWith 6 bs.length s))
        ∧ (readElem s.mem.oct bs.length = none →
          exec .semiDecNum s = .fault (.unwrittenElement .oct bs.length)))

/-- 41_semi_octet.md R114: SEMI_ENC_DIG on every SRC_LEN and every TXT: IncorrectSize(0) above N_TXT, InvalidDigits at
the first digit above 9, else ceil(D / 2) octets, an odd count padded with 0xF; LENF = CONSUMED = D. (Output overflow
cannot arise with the default capacities.) -/
def Obligations.SemiEncDigStoresPaddedDigitPairs : Prop :=
  ∀ s : State,
    (512 < s.srcLen.toNat → exec .semiEncDig s = .next (failedWith 2 0 s))
    ∧ ∀ ds : List Word, s.srcLen.toNat ≤ 512 → Holds s.mem.txt ds → (∀ d ∈ ds, d.toNat ≤ 9) →
      (ds.length = s.srcLen.toNat →
        ∃ t, exec .semiEncDig s = .next t ∧ Succeeded s t ((ds.length + 1) / 2) ds.length ds.length
          ∧ Stored s.mem.oct t.mem.oct (digitOctets ds)
          ∧ t.mem.txt = s.mem.txt ∧ t.mem.sep = s.mem.sep ∧ t.result = s.result)
      ∧ (ds.length < s.srcLen.toNat →
        (∀ d, readElem s.mem.txt ds.length = some d → 9 < d.toNat →
          exec .semiEncDig s = .next (failedWith 6 ds.length s))
        ∧ (readElem s.mem.txt ds.length = none →
          exec .semiEncDig s = .fault (.unwrittenElement .txt ds.length)))

/-- 41_semi_octet.md R115: SEMI_DEC_DIG with m = SRC_LEN octets and D = AUX digits: the size checks and Truncated in
order; then digits up to D, or up to a nibble 0xF that ends the stream; InvalidDigits at the octet of a nibble 0xA to
0xE met before; CONSUMED = ceil(D / 2). (Output overflow cannot arise: D is at most N_TXT.) -/
def Obligations.SemiDecDigReadsDigitsUpToCountOrTerminator : Prop :=
  ∀ s : State,
    (512 < s.srcLen.toNat → exec .semiDecDig s = .next (failedWith 2 0 s))
    ∧ (s.srcLen.toNat ≤ 512 → 512 < s.aux.toNat → exec .semiDecDig s = .next (failedWith 2 0 s))
    ∧ (s.srcLen.toNat ≤ 512 → s.aux.toNat ≤ 512 → s.srcLen.toNat < (s.aux.toNat + 1) / 2 →
        exec .semiDecDig s = .next (failedWith 3 s.srcLen.toNat s))
    ∧ ∀ ds : List Nat, s.srcLen.toNat ≤ 512 → s.aux.toNat ≤ 512 → (s.aux.toNat + 1) / 2 ≤ s.srcLen.toNat →
      (∀ k < ds.length, nibbleAt s.mem.oct k = ds[k]?) → (∀ d ∈ ds, d ≤ 9) →
      ((ds.length = s.aux.toNat ∨ (ds.length < s.aux.toNat ∧ nibbleAt s.mem.oct ds.length = some 0xF)) →
        ∃ t, exec .semiDecDig s = .next t ∧ Succeeded s t ds.length ds.length ((s.aux.toNat + 1) / 2)
          ∧ Stored s.mem.txt t.mem.txt (ds.map (BitVec.ofNat 32))
          ∧ t.mem.sep = s.mem.sep ∧ t.mem.oct = s.mem.oct ∧ t.result = s.result)
      ∧ (ds.length < s.aux.toNat →
        (∀ n, nibbleAt s.mem.oct ds.length = some n → 0xA ≤ n → n ≤ 0xE →
          exec .semiDecDig s = .next (failedWith 6 (ds.length / 2) s))
        ∧ (nibbleAt s.mem.oct ds.length = none →
          exec .semiDecDig s = .fault (.unwrittenElement .oct (ds.length / 2))))

/-- 41_semi_octet.md R117: SEMI_ENC_TZ on every ARG: a magnitude above 79 raises InvalidDigits(0); otherwise RESULT is
the octet with the units digit high, the tens digit in bits 2:0 and the sign in bit 3. No buffer changes (log 23). -/
def Obligations.SemiEncTzWritesSignedOctet : Prop :=
  ∀ s : State,
    (79 < s.arg.toInt.natAbs → exec .semiEncTz s = .next (failedWith 6 0 s))
    ∧ (s.arg.toInt.natAbs ≤ 79 → exec .semiEncTz s = .next { s with
        result := BitVec.ofNat 32 (s.arg.toInt.natAbs % 10 * 16 + s.arg.toInt.natAbs / 10
          + (if s.arg.toInt < 0 then 8 else 0))
        errCode := 0, dstLen := 0, lenf := 0, consumed := 0, busy := false, done := true })

/-- 41_semi_octet.md R118: SEMI_DEC_TZ on every ARG, of which only bits 7:0 count: a units nibble above 9 raises
InvalidDigits(0); otherwise RESULT is the signed quarter-hour count in two's complement. No buffer changes (log 23). -/
def Obligations.SemiDecTzWritesSignedCount : Prop :=
  ∀ s : State,
    (9 < s.arg.toNat % 256 / 16 → exec .semiDecTz s = .next (failedWith 6 0 s))
    ∧ (s.arg.toNat % 256 / 16 ≤ 9 → ∃ r : Word,
        exec .semiDecTz s = .next { s with
          result := r, errCode := 0, dstLen := 0, lenf := 0, consumed := 0, busy := false, done := true }
        ∧ r.toInt = if s.arg.toNat / 8 % 2 = 1
            then -(10 * (s.arg.toNat % 8) + s.arg.toNat % 256 / 16 : Int)
            else (10 * (s.arg.toNat % 8) + s.arg.toNat % 256 / 16 : Int))

/-! ## GSM 7-bit commands -/

/-- 42_gsm7.md R156, R145, R155: G7_MAP on every SRC_LEN and every TXT: IncorrectSize(0) above N_TXT; then, at the first
code point that does not go through, UnmappableChar if it is in neither table, IncorrectSize at its index if its septets
do not fit in N_SEP; else the septets of all, DST_LEN = LENF their count. -/
def Obligations.G7MapTranslatesCodePoints : Prop :=
  ∀ s : State,
    (512 < s.srcLen.toNat → exec .g7Map s = .next (failedWith 2 0 s))
    ∧ ∀ (cs : List CodePoint) (blocks : List (List Septet)), s.srcLen.toNat ≤ 512 → Holds s.mem.txt cs →
      List.Forall₂ SeptetsOf cs blocks → blocks.flatten.length ≤ 512 →
      (cs.length = s.srcLen.toNat →
        ∃ t, exec .g7Map s = .next t ∧ Succeeded s t blocks.flatten.length blocks.flatten.length cs.length
          ∧ Stored s.mem.sep t.mem.sep blocks.flatten
          ∧ t.mem.txt = s.mem.txt ∧ t.mem.oct = s.mem.oct ∧ t.result = s.result)
      ∧ (cs.length < s.srcLen.toNat →
        (∀ c, readElem s.mem.txt cs.length = some c → Unmappable c →
          exec .g7Map s = .next (failedWith 5 cs.length s))
        ∧ (∀ c ss, readElem s.mem.txt cs.length = some c → SeptetsOf c ss →
          512 < blocks.flatten.length + ss.length → exec .g7Map s = .next (failedWith 2 cs.length s))
        ∧ (readElem s.mem.txt cs.length = none →
          exec .g7Map s = .fault (.unwrittenElement .txt cs.length)))

/-- 42_gsm7.md R157: G7_UNMAP on every SRC_LEN and every SEP: IncorrectSize(0) above N_SEP; TruncatedEscape at an escape
that is the last septet; UnmappableChar at an escape whose index the extension table leaves undefined; else the text,
LENF = CONSUMED = L. (No basic septet but the escape is undefined in the default table, and output overflow cannot
arise: N_TXT = N_SEP.) -/
def Obligations.G7UnmapTranslatesSeptets : Prop :=
  ∀ s : State,
    (512 < s.srcLen.toNat → exec .g7Unmap s = .next (failedWith 2 0 s))
    ∧ ∀ (ss : List Septet) (cs : List CodePoint), s.srcLen.toNat ≤ 512 → Holds s.mem.sep ss → Reads ss cs →
      (ss.length = s.srcLen.toNat →
        ∃ t, exec .g7Unmap s = .next t ∧ Succeeded s t cs.length ss.length ss.length
          ∧ Stored s.mem.txt t.mem.txt cs
          ∧ t.mem.sep = s.mem.sep ∧ t.mem.oct = s.mem.oct ∧ t.result = s.result)
      ∧ (ss.length < s.srcLen.toNat → readElem s.mem.sep ss.length = none →
          exec .g7Unmap s = .fault (.unwrittenElement .sep ss.length))
      ∧ (ss.length + 1 = s.srcLen.toNat → readElem s.mem.sep ss.length = some 0x1B →
          exec .g7Unmap s = .next (failedWith 4 ss.length s))
      ∧ (ss.length + 1 < s.srcLen.toNat → readElem s.mem.sep ss.length = some 0x1B →
        (readElem s.mem.sep (ss.length + 1) = none →
          exec .g7Unmap s = .fault (.unwrittenElement .sep (ss.length + 1)))
        ∧ (∀ e, readElem s.mem.sep (ss.length + 1) = some e → (∀ c, (e, c) ∉ defaultParams.ext) →
          exec .g7Unmap s = .next (failedWith 5 ss.length s)))

/-- 42_gsm7.md R158, R150, R151: SEPT_PACK on every SRC_LEN and every SEP: IncorrectSize(0) above N_SEP; else
ceil(7n / 8) octets whose bit stream is that of the septets, padding 0. (Their count never exceeds N_OCT here.) -/
def Obligations.SeptPackStoresTheBitStream : Prop :=
  ∀ s : State,
    (512 < s.srcLen.toNat → exec .septPack s = .next (failedWith 2 0 s))
    ∧ ∀ ss : List Septet, s.srcLen.toNat ≤ 512 → Holds s.mem.sep ss →
      (ss.length = s.srcLen.toNat →
        ∃ t os, exec .septPack s = .next t ∧ Packs ss os ∧ Succeeded s t os.length ss.length ss.length
          ∧ Stored s.mem.oct t.mem.oct os
          ∧ t.mem.txt = s.mem.txt ∧ t.mem.sep = s.mem.sep ∧ t.result = s.result)
      ∧ (ss.length < s.srcLen.toNat → readElem s.mem.sep ss.length = none →
          exec .septPack s = .fault (.unwrittenElement .sep ss.length))

/-- 42_gsm7.md R159, R154: SEPT_UNPACK with m = SRC_LEN octets and L = AUX septets: the size checks and Truncated in
order; else the L septets whose bit stream is that of the first ceil(7L / 8) octets; CONSUMED that count. -/
def Obligations.SeptUnpackStoresTheDeclaredSeptets : Prop :=
  ∀ s : State,
    (512 < s.srcLen.toNat → exec .septUnpack s = .next (failedWith 2 0 s))
    ∧ (s.srcLen.toNat ≤ 512 → 512 < s.aux.toNat → exec .septUnpack s = .next (failedWith 2 0 s))
    ∧ (s.srcLen.toNat ≤ 512 → s.aux.toNat ≤ 512 → s.srcLen.toNat < (7 * s.aux.toNat + 7) / 8 →
        exec .septUnpack s = .next (failedWith 3 s.srcLen.toNat s))
    ∧ ∀ os : List Octet, s.srcLen.toNat ≤ 512 → s.aux.toNat ≤ 512 → (7 * s.aux.toNat + 7) / 8 ≤ s.srcLen.toNat →
      Holds s.mem.oct os →
      (os.length = (7 * s.aux.toNat + 7) / 8 →
        ∃ t ss, exec .septUnpack s = .next t ∧ ss.length = s.aux.toNat ∧ Unpacks os ss
          ∧ Succeeded s t s.aux.toNat s.aux.toNat os.length ∧ Stored s.mem.sep t.mem.sep ss
          ∧ t.mem.txt = s.mem.txt ∧ t.mem.oct = s.mem.oct ∧ t.result = s.result)
      ∧ (os.length < (7 * s.aux.toNat + 7) / 8 → readElem s.mem.oct os.length = none →
          exec .septUnpack s = .fault (.unwrittenElement .oct os.length))

/-- 42_gsm7.md R160, R162: G7_ENCODE and USSD_PACK, the same on every SRC_LEN and every TXT: G7_MAP's errors in the same
order; else SEP holds the septets and OCT their packing, DST_LEN the octets, LENF the septets. (The octets always fit.) -/
def Obligations.G7EncodeAndUssdPackTranslateAndPack : Prop :=
  ∀ (i : Instr) (s : State), i = .g7Encode ∨ i = .ussdPack →
    (512 < s.srcLen.toNat → exec i s = .next (failedWith 2 0 s))
    ∧ ∀ (cs : List CodePoint) (blocks : List (List Septet)), s.srcLen.toNat ≤ 512 → Holds s.mem.txt cs →
      List.Forall₂ SeptetsOf cs blocks → blocks.flatten.length ≤ 512 →
      (cs.length = s.srcLen.toNat →
        ∃ t os, exec i s = .next t ∧ Packs blocks.flatten os
          ∧ Succeeded s t os.length blocks.flatten.length cs.length
          ∧ Stored s.mem.sep t.mem.sep blocks.flatten ∧ Stored s.mem.oct t.mem.oct os
          ∧ t.mem.txt = s.mem.txt ∧ t.result = s.result)
      ∧ (cs.length < s.srcLen.toNat →
        (∀ c, readElem s.mem.txt cs.length = some c → Unmappable c →
          exec i s = .next (failedWith 5 cs.length s))
        ∧ (∀ c ss, readElem s.mem.txt cs.length = some c → SeptetsOf c ss →
          512 < blocks.flatten.length + ss.length → exec i s = .next (failedWith 2 cs.length s))
        ∧ (readElem s.mem.txt cs.length = none →
          exec i s = .fault (.unwrittenElement .txt cs.length)))

/-- 42_gsm7.md R161: G7_DECODE with m = SRC_LEN octets and L = AUX septets: SEPT_UNPACK's errors, then, over the L
septets unpacked, G7_UNMAP's with the position of the octet that holds the septet's bit 0; else SEP holds the septets and
TXT the text. (Output overflow cannot arise, nor an undefined basic septet.) -/
def Obligations.G7DecodeUnpacksAndTranslates : Prop :=
  ∀ s : State,
    (512 < s.srcLen.toNat → exec .g7Decode s = .next (failedWith 2 0 s))
    ∧ (s.srcLen.toNat ≤ 512 → 512 < s.aux.toNat → exec .g7Decode s = .next (failedWith 2 0 s))
    ∧ (s.srcLen.toNat ≤ 512 → s.aux.toNat ≤ 512 → s.srcLen.toNat < (7 * s.aux.toNat + 7) / 8 →
        exec .g7Decode s = .next (failedWith 3 s.srcLen.toNat s))
    ∧ ∀ os : List Octet, s.srcLen.toNat ≤ 512 → s.aux.toNat ≤ 512 → (7 * s.aux.toNat + 7) / 8 ≤ s.srcLen.toNat →
      Holds s.mem.oct os →
      (os.length < (7 * s.aux.toNat + 7) / 8 → readElem s.mem.oct os.length = none →
        exec .g7Decode s = .fault (.unwrittenElement .oct os.length))
      ∧ ∀ (pre post : List Septet) (cs : List CodePoint), os.length = (7 * s.aux.toNat + 7) / 8 →
        (pre ++ post).length = s.aux.toNat → Unpacks os (pre ++ post) → Reads pre cs →
        (post = [] → ∃ t, exec .g7Decode s = .next t ∧ Succeeded s t cs.length s.aux.toNat os.length
          ∧ Stored s.mem.sep t.mem.sep pre ∧ Stored s.mem.txt t.mem.txt cs
          ∧ t.mem.oct = s.mem.oct ∧ t.result = s.result)
        ∧ (post = [0x1B] → exec .g7Decode s = .next (failedWith 4 (7 * pre.length / 8) s))
        ∧ (∀ e rest, post = 0x1B :: e :: rest → (∀ c, (e, c) ∉ defaultParams.ext) →
            exec .g7Decode s = .next (failedWith 5 (7 * pre.length / 8) s))

/-! ## UCS-2 commands -/

/-- 43_ucs2.md R192, R190, R191: UCS2_ENC on every SRC_LEN and every TXT: IncorrectSize(0) above N_TXT; then, at the
first code point that does not go through, UnmappableChar if it is a surrogate or above 0x10FFFF, IncorrectSize at its
index if its octets do not fit in N_OCT; else the UTF-16 big-endian octets, DST_LEN = LENF their count. -/
def Obligations.Ucs2EncStoresBigEndianUtf16 : Prop :=
  ∀ s : State,
    (512 < s.srcLen.toNat → exec .ucs2Enc s = .next (failedWith 2 0 s))
    ∧ ∀ cs : List CodePoint, s.srcLen.toNat ≤ 512 → Holds s.mem.txt cs → (∀ c ∈ cs, Utf16Encodable c) →
      (cs.flatMap utf16Octets).length ≤ 512 →
      (cs.length = s.srcLen.toNat →
        ∃ t, exec .ucs2Enc s = .next t
          ∧ Succeeded s t (cs.flatMap utf16Octets).length (cs.flatMap utf16Octets).length cs.length
          ∧ Stored s.mem.oct t.mem.oct (cs.flatMap utf16Octets)
          ∧ t.mem.txt = s.mem.txt ∧ t.mem.sep = s.mem.sep ∧ t.result = s.result)
      ∧ (cs.length < s.srcLen.toNat →
        (∀ c, readElem s.mem.txt cs.length = some c → ¬Utf16Encodable c →
          exec .ucs2Enc s = .next (failedWith 5 cs.length s))
        ∧ (∀ c, readElem s.mem.txt cs.length = some c → Utf16Encodable c →
          512 < (cs.flatMap utf16Octets).length + (utf16Octets c).length →
          exec .ucs2Enc s = .next (failedWith 2 cs.length s))
        ∧ (readElem s.mem.txt cs.length = none →
          exec .ucs2Enc s = .fault (.unwrittenElement .txt cs.length)))

/-- 43_ucs2.md R193, R191: UCS2_DEC on every SRC_LEN and every OCT: IncorrectSize(0) above N_OCT or at an odd count;
UnmappableChar at the first code unit that is a low surrogate, or a high one not followed by a low one; else the text,
LENF = CONSUMED = m. (Output overflow cannot arise: m / 2 is below N_TXT.) -/
def Obligations.Ucs2DecReadsBigEndianUtf16 : Prop :=
  ∀ s : State,
    (512 < s.srcLen.toNat ∨ s.srcLen.toNat % 2 = 1 → exec .ucs2Dec s = .next (failedWith 2 0 s))
    ∧ ∀ (os : List Octet) (cs : List CodePoint), s.srcLen.toNat ≤ 512 → s.srcLen.toNat % 2 = 0 →
      Holds s.mem.oct os → ReadsUtf16 os cs →
      (os.length = s.srcLen.toNat →
        ∃ t, exec .ucs2Dec s = .next t ∧ Succeeded s t cs.length os.length os.length
          ∧ Stored s.mem.txt t.mem.txt cs
          ∧ t.mem.sep = s.mem.sep ∧ t.mem.oct = s.mem.oct ∧ t.result = s.result)
      ∧ (os.length < s.srcLen.toNat →
        (readElem s.mem.oct os.length = none → exec .ucs2Dec s = .fault (.unwrittenElement .oct os.length))
        ∧ (∀ a, readElem s.mem.oct os.length = some a → readElem s.mem.oct (os.length + 1) = none →
          exec .ucs2Dec s = .fault (.unwrittenElement .oct (os.length + 1)))
        ∧ ∀ a b, readElem s.mem.oct os.length = some a → readElem s.mem.oct (os.length + 1) = some b →
          (LowSurrogate (unitOf a b) → exec .ucs2Dec s = .next (failedWith 5 os.length s))
          ∧ (HighSurrogate (unitOf a b) → os.length + 2 = s.srcLen.toNat →
              exec .ucs2Dec s = .next (failedWith 5 os.length s))
          ∧ (HighSurrogate (unitOf a b) → os.length + 2 < s.srcLen.toNat →
            (readElem s.mem.oct (os.length + 2) = none →
              exec .ucs2Dec s = .fault (.unwrittenElement .oct (os.length + 2)))
            ∧ (∀ c, readElem s.mem.oct (os.length + 2) = some c → readElem s.mem.oct (os.length + 3) = none →
              exec .ucs2Dec s = .fault (.unwrittenElement .oct (os.length + 3)))
            ∧ (∀ c d, readElem s.mem.oct (os.length + 2) = some c → readElem s.mem.oct (os.length + 3) = some d →
              ¬LowSurrogate (unitOf c d) → exec .ucs2Dec s = .next (failedWith 5 os.length s))))

/-! ## Laws -/

/-- 42_gsm7.md R152: the packing in its group form: octet 7g + i joins septets 8g + i and 8g + i + 1, a septet beyond
the last read as 0. -/
def Obligations.PackingAgreesWithGroupForm : Prop :=
  ∀ (ss : List Septet) (g i : Nat), i ≤ 6 → 7 * g + i < (pack7 ss).length →
    (pack7 ss)[7 * g + i]? = some (BitVec.ofNat 8
      ((((ss[8 * g + i]?).getD 0).toNat >>> i ||| ((ss[8 * g + i + 1]?).getD 0).toNat <<< (7 - i)) &&& 0xFF))

/-- 41_semi_octet.md R119: the semi-octet decoders invert the encoders: on numbers 0 to 99, on digit strings of any
length given the digit count, and on time zones -79 to 79. -/
def Obligations.SemiOctetDecodersInvertEncoders : Prop :=
  ∀ s t : State,
    (∀ xs : List Word, Holds s.mem.txt xs → (∀ x ∈ xs, x.toNat ≤ 99) → xs.length = s.srcLen.toNat →
      xs.length ≤ 512 → exec .semiEncNum s = .next t →
      ∃ u, exec .semiDecNum { t with srcLen := t.dstLen } = .next u ∧ u.errCode = 0 ∧ Holds u.mem.txt xs
        ∧ u.dstLen.toNat = xs.length)
    ∧ (∀ ds : List Word, Holds s.mem.txt ds → (∀ d ∈ ds, d.toNat ≤ 9) → ds.length = s.srcLen.toNat →
      ds.length ≤ 512 → exec .semiEncDig s = .next t →
      ∃ u, exec .semiDecDig { t with srcLen := t.dstLen, aux := s.srcLen } = .next u ∧ u.errCode = 0
        ∧ Holds u.mem.txt ds ∧ u.dstLen.toNat = ds.length)
    ∧ (s.arg.toInt.natAbs ≤ 79 → exec .semiEncTz s = .next t →
      ∃ u, exec .semiDecTz { t with arg := t.result } = .next u ∧ u.errCode = 0 ∧ u.result = s.arg)

/-- 42_gsm7.md R163: SEPT_UNPACK with L = n over what SEPT_PACK stored returns the septets; SEPT_PACK is one-to-one for
a fixed length, reaches every octet sequence with zero padding, and packs s and s followed by 0x00 alike when n mod 8 = 7. -/
def Obligations.SeptUnpackInvertsSeptPack : Prop :=
  (∀ (s t : State) (ss : List Septet), Holds s.mem.sep ss → ss.length = s.srcLen.toNat → ss.length ≤ 512 →
    exec .septPack s = .next t →
    ∃ u, exec .septUnpack { t with srcLen := t.dstLen, aux := s.srcLen } = .next u ∧ u.errCode = 0
      ∧ Holds u.mem.sep ss ∧ u.dstLen.toNat = ss.length)
  ∧ (∀ (n : Nat) (os : List Octet), os.length = (7 * n + 7) / 8 →
      (∀ p, 7 * n ≤ p → p < 8 * os.length → octetBit os p = false) → ∃! ss : List Septet, ss.length = n ∧ pack7 ss = os)
  ∧ (∀ ss : List Septet, (pack7 ss).length = (7 * ss.length + 7) / 8
      ∧ ∀ p, 7 * ss.length ≤ p → p < 8 * (pack7 ss).length → octetBit (pack7 ss) p = false)
  ∧ ∀ ss : List Septet, ss.length % 8 = 7 → pack7 (ss ++ [0]) = pack7 ss

/-- 42_gsm7.md R164: G7_DECODE with L = the LENF of G7_ENCODE, over the OCT it stored, gives the original text, for
every text whose code points all lie in the (default) tables and whose septets fit. -/
def Obligations.G7DecodeInvertsG7Encode : Prop :=
  ∀ (s t : State) (cs : List CodePoint), Holds s.mem.txt cs → cs.length = s.srcLen.toNat →
    (∀ c ∈ cs, ¬Unmappable c) → exec .g7Encode s = .next t → t.errCode = 0 →
    ∃ u, exec .g7Decode { t with srcLen := t.dstLen, aux := t.lenf } = .next u ∧ u.errCode = 0
      ∧ Holds u.mem.txt cs ∧ u.dstLen.toNat = cs.length

/-- 43_ucs2.md R194: UCS2_DEC over the octets UCS2_ENC stored returns the code points, and LENF is the same for both. -/
def Obligations.Ucs2DecInvertsUcs2Enc : Prop :=
  ∀ (s t : State) (cs : List CodePoint), Holds s.mem.txt cs → cs.length = s.srcLen.toNat →
    (∀ c ∈ cs, Utf16Encodable c) → exec .ucs2Enc s = .next t → t.errCode = 0 →
    ∃ u, exec .ucs2Dec { t with srcLen := t.dstLen } = .next u ∧ u.errCode = 0
      ∧ Holds u.mem.txt cs ∧ u.dstLen.toNat = cs.length ∧ u.lenf = t.lenf
end

