-- ==== Sys2Proof/Laws/Bits.lean ====
section
/-! SUPPORT. The laws of the bit-field helpers: sums of bits, septet packing and unpacking bit by bit. -/

namespace Sys2Proof.Machine

theorem sumBits_lt (f : Nat → Bool) (n : Nat) : sumBits f n < 2 ^ n := by
  induction n with
  | zero => simp [sumBits]
  | succ n ih =>
    have hb : (f n).toNat ≤ 1 := Bool.toNat_le (f n)
    have : (f n).toNat * 2 ^ n ≤ 1 * 2 ^ n := Nat.mul_le_mul_right _ hb
    simp only [sumBits, Nat.shiftLeft_eq, pow_succ]
    omega

/-- Bit k of a sum of n bits. -/
theorem testBit_sumBits (f : Nat → Bool) (n k : Nat) : (sumBits f n).testBit k = (decide (k < n) && f k) := by
  induction n with
  | zero => simp [sumBits]
  | succ n ih =>
    have hlt := sumBits_lt f n
    have hadd : sumBits f n + ((f n).toNat <<< n) = 2 ^ n * (f n).toNat + sumBits f n := by
      rw [Nat.shiftLeft_eq]; ring
    rw [sumBits, hadd, Nat.testBit_two_pow_mul_add _ hlt]
    split_ifs with h
    · rw [ih]; simp [h, Nat.lt_succ_of_lt h]
    · rcases Nat.eq_or_lt_of_le (Nat.le_of_not_lt h) with h' | h'
      · subst h'
        cases hf : f n <;> simp
      · have h1 : ¬ k < n + 1 := by omega
        have h2 : Nat.testBit 1 (k - n) = false := by
          rw [Bool.eq_false_iff, ne_eq, Nat.testBit_one_eq_true_iff_self_eq_zero]; omega
        cases hf : f n <;> simp [h1, h2]

theorem getLsbD_ofNat_sumBits (f : Nat → Bool) (n k : Nat) :
    (BitVec.ofNat n (sumBits f n)).getLsbD k = (decide (k < n) && f k) := by
  rw [BitVec.getLsbD_ofNat, testBit_sumBits]
  cases decide (k < n) <;> simp

/-- Octet `j` of the packing carries stream bits 8j to 8j + 7 (42_gsm7.md R150). -/
theorem packedOctet_getLsbD (s : List Septet) (j b : Nat) :
    (packedOctet s j).getLsbD b = (decide (b < 8) && septetStreamBit s (8 * j + b)) :=
  getLsbD_ofNat_sumBits _ 8 b

/-- Septet `i` of the unpacking carries stream bits 7i to 7i + 6 (R154). -/
theorem unpackedSeptet_getLsbD (o : List Octet) (i k : Nat) :
    (unpackedSeptet o i).getLsbD k = (decide (k < 7) && octetStreamBit o (7 * i + k)) :=
  getLsbD_ofNat_sumBits _ 7 k

@[simp] theorem pack7_length (s : List Septet) : (pack7 s).length = ceilDiv (7 * s.length) 8 := by
  simp [pack7]

@[simp] theorem unpack7_length (o : List Octet) (l : Nat) : (unpack7 o l).length = l := by
  simp [unpack7]

@[simp] theorem pack7_nil : pack7 [] = [] := rfl

theorem pack7_getElem (s : List Septet) (j : Nat) (h : j < (pack7 s).length) :
    (pack7 s)[j] = packedOctet s j := by
  simp [pack7]

theorem unpack7_getElem (o : List Octet) (l i : Nat) (h : i < (unpack7 o l).length) :
    (unpack7 o l)[i] = unpackedSeptet o i := by
  simp [unpack7]

theorem ceilDiv_eight (n : Nat) : ceilDiv (7 * n) 8 = (7 * n + 7) / 8 := rfl

theorem ceilDiv_two (n : Nat) : ceilDiv n 2 = (n + 1) / 2 := rfl

/-- A stream bit of the packing, read back from the octets. -/
theorem octetStreamBit_pack7 (s : List Septet) (p : Nat) (h : p < 7 * s.length) :
    octetStreamBit (pack7 s) p = septetStreamBit s p := by
  have hj : p / 8 < (pack7 s).length := by rw [pack7_length, ceilDiv_eight]; omega
  have hb : p % 8 < 8 := Nat.mod_lt _ (by decide)
  rw [octetStreamBit, List.getD_eq_getElem _ _ hj, pack7_getElem, packedOctet_getLsbD, Nat.div_add_mod]
  simp [hb]

theorem septetStreamBit_of_lt (s : List Septet) (i k : Nat) (hi : i < s.length) (hk : k < 7) :
    septetStreamBit s (7 * i + k) = s[i].getLsbD k := by
  have h1 : (7 * i + k) / 7 = i := by omega
  have h2 : (7 * i + k) % 7 = k := by omega
  rw [septetStreamBit, if_pos (by omega), h1, h2, List.getD_eq_getElem _ _ hi]

/-- Unpacking as many septets as were packed gives them back (R163). -/
theorem unpack7_pack7 (s : List Septet) : unpack7 (pack7 s) s.length = s := by
  refine List.ext_getElem (by simp) fun i h1 h2 => ?_
  rw [unpack7_getElem]
  refine BitVec.eq_of_getLsbD_eq fun k hk => ?_
  rw [unpackedSeptet_getLsbD, octetStreamBit_pack7 _ _ (by omega), septetStreamBit_of_lt s i k h2 hk]
  simp [hk]

theorem septetStreamBit_append_zero (s : List Septet) (p : Nat) :
    septetStreamBit (s ++ [0]) p = septetStreamBit s p := by
  simp only [septetStreamBit, List.length_append, List.length_singleton]
  by_cases h : p < 7 * s.length
  · rw [if_pos (by omega), if_pos h, List.getD_append _ _ _ _ (by omega)]
  · rw [if_neg h]
    split_ifs with h'
    · rw [List.getD_append_right _ _ _ _ (by omega)]
      have : p / 7 - s.length = 0 := by omega
      simp [this]
    · rfl

/-- Packing is not injective across lengths: seven septets modulo eight, and the same followed by 0 (R163). -/
theorem pack7_append_zero (s : List Septet) (h : s.length % 8 = 7) : pack7 (s ++ [0]) = pack7 s := by
  have hl : ceilDiv (7 * (s ++ [0]).length) 8 = ceilDiv (7 * s.length) 8 := by
    rw [ceilDiv_eight, ceilDiv_eight, List.length_append, List.length_singleton]; omega
  have ho : ∀ j, packedOctet (s ++ [0]) j = packedOctet s j := fun j => by
    simp only [packedOctet, septetStreamBit_append_zero]
  rw [pack7, pack7, hl]
  exact List.map_congr_left fun j _ => ho j

/-! ## Nibbles -/

theorem lowNibble_eq (b : Octet) : lowNibble b = b.toNat % 16 := by
  simp [lowNibble, BitVec.extractLsb'_toNat]

theorem highNibble_eq (b : Octet) : highNibble b = b.toNat / 16 := by
  have := b.isLt
  rw [highNibble, BitVec.extractLsb'_toNat, Nat.shiftRight_eq_div_pow]
  omega

theorem nibbles_toNat {lo hi : Nat} (h1 : lo < 16) (h2 : hi < 16) : (nibbles lo hi).toNat = 16 * hi + lo := by
  have : (hi <<< 4) ||| lo = hi <<< 4 + lo := (Nat.shiftLeft_add_eq_or_of_lt (by simpa using h1) hi).symm
  rw [nibbles, BitVec.toNat_ofNat, this, Nat.shiftLeft_eq]
  omega

/-- The semi-octet of a number below 100 (41_semi_octet.md R110). -/
theorem semiOctet_toNat {x : Nat} (h : x < 100) : (semiOctet x).toNat = 16 * (x % 10) + x / 10 := by
  rw [semiOctet, nibbles_toNat (by omega) (by omega)]

end Sys2Proof.Machine
end

