-- ==== Sys2Proof/Laws/Buffer.lean ====
section
/-! SUPPORT. The laws of buffers: read after write, staging, and the canonical form that every operation keeps. -/

namespace Sys2Proof.Machine

variable {w : Nat}

@[simp] theorem readElem_nil (i : Nat) : readElem ([] : Buffer w) i = none := rfl

theorem readElem_cons (j : Nat) (v : BitVec w) (rest : Buffer w) (i : Nat) :
    readElem ((j, v) :: rest) i = if i = j then some v else readElem rest i := rfl

@[simp] theorem readElem_writeElem_same (b : Buffer w) (i : Nat) (v : BitVec w) :
    readElem (writeElem b i v) i = some v := by
  induction b with
  | nil => simp [writeElem, readElem]
  | cons e rest ih =>
    obtain ⟨j, u⟩ := e
    simp only [writeElem]
    split_ifs with h1 h2
    · simp [readElem]
    · simp [readElem]
    · simp [readElem, h2, ih]

theorem readElem_writeElem_other (b : Buffer w) {i k : Nat} (v : BitVec w) (h : k ≠ i) :
    readElem (writeElem b i v) k = readElem b k := by
  induction b with
  | nil => simp [writeElem, readElem, h]
  | cons e rest ih =>
    obtain ⟨j, u⟩ := e
    simp only [writeElem]
    split_ifs with h1 h2
    · simp [readElem, h]
    · subst h2; simp [readElem, h]
    · simp [readElem, ih]

theorem readElem_writeElem (b : Buffer w) (i k : Nat) (v : BitVec w) :
    readElem (writeElem b i v) k = if k = i then some v else readElem b k := by
  split_ifs with h
  · subst h; simp
  · exact readElem_writeElem_other b v h

theorem readElem_stageFrom (out : List (BitVec w)) (b : Buffer w) (i k : Nat) :
    readElem (stageFrom b i out) k
      = if i ≤ k ∧ k < i + out.length then out[k - i]? else readElem b k := by
  induction out generalizing b i with
  | nil => simp [stageFrom]
  | cons v rest ih =>
    simp only [stageFrom, ih, readElem_writeElem, List.length_cons]
    rcases Nat.lt_trichotomy k i with h | h | h
    · rw [if_neg (by omega), if_neg (by omega), if_neg (by omega)]
    · subst h; rw [if_neg (by omega), if_pos rfl, if_pos (by omega)]; simp
    · have hk : k - i = (k - (i + 1)) + 1 := by omega
      by_cases hl : k < i + 1 + rest.length
      · rw [if_pos (by omega), if_pos (by omega), hk]; simp
      · rw [if_neg (by omega), if_neg (by omega), if_neg (by omega)]

/-- What staging a list leaves: its elements below its length, everything else as before (30_encoding.md R97). -/
theorem readElem_stage (out : List (BitVec w)) (b : Buffer w) (k : Nat) :
    readElem (stage b out) k = if k < out.length then out[k]? else readElem b k := by
  simp [stage, readElem_stageFrom]

@[simp] theorem stage_nil (b : Buffer w) : stage b [] = b := rfl

/-! ## The canonical form -/

theorem rising_cons (j : Nat) (v : BitVec w) (rest : Buffer w) :
    rising ((j, v) :: rest) = true ↔ (∀ e ∈ rest, j < e.1) ∧ rising rest = true := by
  simp [rising]

theorem mem_writeElem {b : Buffer w} {i : Nat} {v : BitVec w} {e : Nat × BitVec w}
    (h : e ∈ writeElem b i v) : e = (i, v) ∨ e ∈ b := by
  induction b with
  | nil => simpa [writeElem] using h
  | cons f rest ih =>
    obtain ⟨j, u⟩ := f
    simp only [writeElem] at h
    split_ifs at h with h1 h2
    · simp at h ⊢; tauto
    · simp at h ⊢; tauto
    · simp at h ⊢
      rcases h with h | h
      · tauto
      · rcases ih h with h' | h' <;> tauto

theorem rising_writeElem {b : Buffer w} (h : rising b = true) (i : Nat) (v : BitVec w) :
    rising (writeElem b i v) = true := by
  induction b with
  | nil => simp [writeElem, rising]
  | cons e rest ih =>
    obtain ⟨j, u⟩ := e
    obtain ⟨hlt, hr⟩ := (rising_cons j u rest).mp h
    simp only [writeElem]
    split_ifs with h1 h2
    · rw [rising_cons]
      refine ⟨fun e he => ?_, h⟩
      rcases List.mem_cons.mp he with he | he
      · subst he; exact h1
      · exact Nat.lt_trans h1 (hlt e he)
    · subst h2; exact (rising_cons i v rest).mpr ⟨hlt, hr⟩
    · rw [rising_cons]
      refine ⟨fun e he => ?_, ih hr⟩
      rcases mem_writeElem he with he | he
      · subst he; show j < i; omega
      · exact hlt e he

theorem bufferWf_iff (cap : Nat) (b : Buffer w) :
    bufferWf cap b = true ↔ rising b = true ∧ ∀ e ∈ b, e.1 < cap := by
  simp [bufferWf]

@[simp] theorem bufferWf_nil (cap : Nat) : bufferWf cap ([] : Buffer w) = true := rfl

/-- A write within the capacity keeps the canonical form. -/
theorem bufferWf_writeElem {cap : Nat} {b : Buffer w} (h : bufferWf cap b = true) {i : Nat} (hi : i < cap)
    (v : BitVec w) : bufferWf cap (writeElem b i v) = true := by
  obtain ⟨hr, hb⟩ := (bufferWf_iff cap b).mp h
  refine (bufferWf_iff cap _).mpr ⟨rising_writeElem hr i v, fun e he => ?_⟩
  rcases mem_writeElem he with he | he
  · subst he; exact hi
  · exact hb e he

theorem bufferWf_stageFrom {cap : Nat} (out : List (BitVec w)) {b : Buffer w} (h : bufferWf cap b = true) (i : Nat)
    (hi : i + out.length ≤ cap) : bufferWf cap (stageFrom b i out) = true := by
  induction out generalizing b i with
  | nil => exact h
  | cons v rest ih =>
    simp only [List.length_cons] at hi
    exact ih (bufferWf_writeElem h (by omega) v) (i + 1) (by omega)

/-- Staging a list that fits keeps the canonical form. -/
theorem bufferWf_stage {cap : Nat} {b : Buffer w} (h : bufferWf cap b = true) (out : List (BitVec w))
    (hl : out.length ≤ cap) : bufferWf cap (stage b out) = true :=
  bufferWf_stageFrom out h 0 (by omega)

theorem readElem_eq_none_of_lt {b : Buffer w} {i : Nat} (h : ∀ e ∈ b, i < e.1) : readElem b i = none := by
  induction b with
  | nil => rfl
  | cons e rest ih =>
    obtain ⟨j, u⟩ := e
    have hj : i < j := h (j, u) (by simp)
    rw [readElem_cons, if_neg (by omega)]
    exact ih fun e he => h e (by simp [he])

/-- The form is canonical: two buffers in it that read alike at every index are equal. -/
theorem rising_ext {a b : Buffer w} (ha : rising a = true) (hb : rising b = true)
    (h : ∀ i, readElem a i = readElem b i) : a = b := by
  induction a generalizing b with
  | nil =>
    cases b with
    | nil => rfl
    | cons e rest => obtain ⟨j, u⟩ := e; have := h j; simp [readElem] at this
  | cons e rest ih =>
    obtain ⟨j, u⟩ := e
    obtain ⟨hlt, hr⟩ := (rising_cons j u rest).mp ha
    cases b with
    | nil => have := h j; simp [readElem] at this
    | cons f rest' =>
      obtain ⟨k, x⟩ := f
      obtain ⟨hlt', hr'⟩ := (rising_cons k x rest').mp hb
      have hjk : j = k := by
        rcases Nat.lt_trichotomy j k with hc | hc | hc
        · have := h j
          rw [readElem_cons, if_pos rfl, readElem_cons, if_neg (by omega),
            readElem_eq_none_of_lt fun e he => Nat.lt_trans hc (hlt' e he)] at this
          simp at this
        · exact hc
        · have := h k
          rw [readElem_cons, if_neg (by omega), readElem_cons, if_pos rfl,
            readElem_eq_none_of_lt fun e he => Nat.lt_trans hc (hlt e he)] at this
          simp at this
      subst hjk
      have hux : u = x := by have := h j; simpa [readElem] using this
      subst hux
      congr 1
      refine ih hr hr' fun i => ?_
      by_cases hi : i = j
      · subst hi
        rw [readElem_eq_none_of_lt hlt, readElem_eq_none_of_lt hlt']
      · have := h i
        rwa [readElem_cons, if_neg hi, readElem_cons, if_neg hi] at this

/-- An element that reads as written lies within the capacity. -/
theorem lt_of_readElem {cap : Nat} {b : Buffer w} (h : bufferWf cap b = true) {i : Nat} {v : BitVec w}
    (hr : readElem b i = some v) : i < cap := by
  obtain ⟨-, hb⟩ := (bufferWf_iff cap b).mp h
  induction b with
  | nil => simp at hr
  | cons e rest ih =>
    obtain ⟨j, u⟩ := e
    rw [readElem_cons] at hr
    split_ifs at hr with hij
    · subst hij; exact hb (i, u) (by simp)
    · have hr' : bufferWf cap rest = true := by
        rw [bufferWf_iff] at h ⊢
        exact ⟨((rising_cons j u rest).mp h.1).2, fun e he => h.2 e (by simp [he])⟩
      exact ih hr' hr fun e he => hb e (by simp [he])

/-! ## Memory -/

theorem Memory.wf_iff (m : Memory) :
    m.wf = true ↔ bufferWf 512 m.txt = true ∧ bufferWf 512 m.sep = true ∧ bufferWf 512 m.oct = true := by
  simp only [Memory.wf, defaultParams, Bool.and_eq_true, and_assoc]

/-- A host write within the capacity keeps the memory's canonical form. -/
theorem Memory.wf_writeBuffer {m : Memory} (h : m.wf = true) (b : Buf) {i : Nat} (hi : i < capacityOf b) (v : Word) :
    (writeBuffer b i v m).wf = true := by
  obtain ⟨h1, h2, h3⟩ := (Memory.wf_iff m).mp h
  rw [Memory.wf_iff]
  cases b
  · exact ⟨bufferWf_writeElem h1 hi v, h2, h3⟩
  · exact ⟨h1, bufferWf_writeElem h2 hi _, h3⟩
  · exact ⟨h1, h2, bufferWf_writeElem h3 hi _⟩

/-- A commit of lists that fit keeps the memory's canonical form. -/
theorem Memory.wf_commit {s : State} (h : s.mem.wf = true) {c : Commit} (ht : c.txt.length ≤ 512)
    (hs : c.sep.length ≤ 512) (ho : c.oct.length ≤ 512) : (commitState c s).mem.wf = true := by
  obtain ⟨h1, h2, h3⟩ := (Memory.wf_iff s.mem).mp h
  rw [Memory.wf_iff]
  exact ⟨bufferWf_stage h1 _ ht, bufferWf_stage h2 _ hs, bufferWf_stage h3 _ ho⟩

@[simp] theorem Memory.wf_empty : ({ txt := [], sep := [], oct := [] } : Memory).wf = true := rfl

end Sys2Proof.Machine
end

