-- ==== Sys2Proof/Laws/Decode.lean ====
section
/-! SUPPORT. The laws of the command word: its fields as numbers, and that decode and encode invert each other. -/

namespace Sys2Proof

theorem opcOf_toNat (w : Word) : (opcOf w).toNat = w.toNat % 256 := by
  simp [opcOf, BitVec.extractLsb'_toNat]

theorem resOf_toNat (w : Word) : (resOf w).toNat = w.toNat / 256 := by
  have := w.isLt
  rw [resOf, BitVec.extractLsb'_toNat, Nat.shiftRight_eq_div_pow]
  omega

theorem resOf_eq_zero (w : Word) : resOf w = 0 ↔ w.toNat < 256 := by
  rw [← BitVec.toNat_inj, resOf_toNat]; simp [Nat.div_eq_zero_iff]

/-- A word of no more than eight bits decodes by the opcode map. -/
theorem decode_low {w : Word} (h : w.toNat < 256) : decode w = match opcodeMap (opcOf w) with
    | some i => .command i
    | none => .illegal .unknownOpcode := by
  rw [decode, if_neg (by simpa using (resOf_eq_zero w).mpr h)] <;> rfl

theorem decode_high {w : Word} (h : 256 ≤ w.toNat) : decode w = .illegal .reservedBits := by
  rw [decode, if_pos fun hc => absurd ((resOf_eq_zero w).mp hc) (by omega)]

theorem word_low {w : Word} (h : w.toNat < 256) : w = (opcOf w).setWidth 32 := by
  apply BitVec.eq_of_toNat_eq
  rw [BitVec.toNat_setWidth, opcOf_toNat]; omega

theorem decode_encode (i : Instr) : decode (encode i) = .command i := by cases i <;> rfl

theorem opcodeMap_inverse : ∀ (b : BitVec 8) (i : Instr), opcodeMap b = some i → b.setWidth 32 = encode i := by
  have key : ∀ b : BitVec 8, (opcodeMap b).all (fun i => b.setWidth 32 = encode i) = true := by decide +kernel
  intro b i h
  have := key b
  simpa [h] using this

theorem encode_of_decode {w : Word} {i : Instr} (h : decode w = .command i) : w = encode i := by
  rcases Nat.lt_or_ge w.toNat 256 with hl | hl
  · rw [decode_low hl] at h
    cases hm : opcodeMap (opcOf w) with
    | none => rw [hm] at h; cases h
    | some j => rw [hm] at h; cases h; rw [word_low hl]; exact opcodeMap_inverse _ _ hm
  · rw [decode_high hl] at h; cases h

end Sys2Proof
end

