-- ==== Sys2Proof/Laws/Loops.lean ====
section
/-! SUPPORT. What the shared operations of the commands can do: reading source elements, push, and the counted loop. -/

namespace Sys2Proof.Machine

variable {w : Nat} {α : Type}

/-! ## push -/

theorem push_ok {out : List (BitVec w)} {cap : Nat} (h : out.length < cap) (v : BitVec w) (pos : Nat) :
    push out v cap pos = .ok (out ++ [v]) := by
  rw [push, if_neg (by omega)]

theorem push_full {out : List (BitVec w)} {cap : Nat} (h : cap ≤ out.length) (v : BitVec w) (pos : Nat) :
    push out v cap pos = .error (.raised .incorrectSize pos) := by
  rw [push, if_pos h]; rfl

/-- push either appends within the capacity or raises IncorrectSize (30_encoding.md R97). -/
theorem push_cases (out : List (BitVec w)) (v : BitVec w) (cap pos : Nat) :
    (out.length < cap ∧ push out v cap pos = .ok (out ++ [v]))
      ∨ (cap ≤ out.length ∧ push out v cap pos = .error (.raised .incorrectSize pos)) := by
  rcases Nat.lt_or_ge out.length cap with h | h
  · exact .inl ⟨h, push_ok h v pos⟩
  · exact .inr ⟨h, push_full h v pos⟩

theorem push_eq_ok {out out' : List (BitVec w)} {v : BitVec w} {cap pos : Nat} (h : push out v cap pos = .ok out') :
    out.length < cap ∧ out' = out ++ [v] := by
  rcases push_cases out v cap pos with ⟨hl, he⟩ | ⟨-, he⟩
  · rw [he] at h; exact ⟨hl, (Except.ok.inj h).symm⟩
  · rw [he] at h; cases h

theorem push_eq_error {out : List (BitVec w)} {v : BitVec w} {cap pos : Nat} {h : Halt}
    (he : push out v cap pos = .error h) : cap ≤ out.length ∧ h = .raised .incorrectSize pos := by
  rcases push_cases out v cap pos with ⟨-, h'⟩ | ⟨hl, h'⟩
  · rw [h'] at he; cases he
  · rw [h'] at he; exact ⟨hl, (Except.error.inj he).symm⟩

/-! ## Source elements -/

theorem fetchElem_some {name : Buf} {b : Buffer w} {i : Nat} {v : BitVec w} (h : readElem b i = some v) :
    fetchElem name b i = .ok v := by
  rw [fetchElem, h]

theorem fetchElem_none {name : Buf} {b : Buffer w} {i : Nat} (h : readElem b i = none) :
    fetchElem name b i = .error (.unwritten name i) := by
  rw [fetchElem, h]

theorem fetchElem_eq_ok {name : Buf} {b : Buffer w} {i : Nat} {v : BitVec w} (h : fetchElem name b i = .ok v) :
    readElem b i = some v := by
  rw [fetchElem] at h
  split at h
  · rename_i u hu; rw [hu]; cases h; rfl
  · cases h

theorem fetchElem_eq_error {name : Buf} {b : Buffer w} {i : Nat} {h : Halt} (he : fetchElem name b i = .error h) :
    readElem b i = none ∧ h = .unwritten name i := by
  rw [fetchElem] at he
  split at he
  · cases he
  · rename_i hn; cases he; exact ⟨hn, rfl⟩

theorem fetchFrom_ok {name : Buf} {b : Buffer w} (xs : List (BitVec w)) (i : Nat)
    (h : ∀ k < xs.length, readElem b (i + k) = xs[k]?) : fetchFrom name b i xs.length = .ok xs := by
  induction xs generalizing i with
  | nil => rfl
  | cons x rest ih =>
    have h0 : readElem b i = some x := by simpa using h 0 (by simp)
    have hr : fetchFrom name b (i + 1) rest.length = .ok rest := ih (i + 1) fun k hk => by
      have := h (k + 1) (by simpa using hk)
      rw [Nat.add_right_comm, Nat.add_assoc] ; simpa using this
    simp only [List.length_cons, fetchFrom, fetchElem_some h0, hr]

theorem fetchFrom_unwritten {name : Buf} {b : Buffer w} (xs : List (BitVec w)) (i n : Nat)
    (h : ∀ k < xs.length, readElem b (i + k) = xs[k]?) (hn : xs.length < n) (hu : readElem b (i + xs.length) = none) :
    fetchFrom name b i n = .error (.unwritten name (i + xs.length)) := by
  induction xs generalizing i n with
  | nil =>
    obtain ⟨m, rfl⟩ : ∃ m, n = m + 1 := ⟨n - 1, by simp at hn; omega⟩
    simp only [fetchFrom, fetchElem_none (show readElem b i = none by simpa using hu)]
    simp
  | cons x rest ih =>
    simp only [List.length_cons] at hn hu ⊢
    obtain ⟨m, rfl⟩ : ∃ m, n = m + 1 := ⟨n - 1, by omega⟩
    have h0 : readElem b i = some x := by simpa using h 0 (by simp)
    have hr := ih (i + 1) m (fun k hk => by
      have := h (k + 1) (by simpa using hk)
      rw [Nat.add_right_comm, Nat.add_assoc]; simpa using this) (by omega) (by
      rw [Nat.add_right_comm, Nat.add_assoc]; exact hu)
    simp only [fetchFrom, fetchElem_some h0, hr]
    congr 2; omega

/-- Reading elements in order answers their values, or names the first one never written. -/
theorem fetchFrom_cases (name : Buf) (b : Buffer w) (i n : Nat) :
    (∃ xs, xs.length = n ∧ (∀ k < n, readElem b (i + k) = xs[k]?) ∧ fetchFrom name b i n = .ok xs)
      ∨ (∃ k, k < n ∧ readElem b (i + k) = none ∧ fetchFrom name b i n = .error (.unwritten name (i + k))) := by
  induction n generalizing i with
  | zero => exact .inl ⟨[], rfl, by simp, rfl⟩
  | succ n ih =>
    cases h0 : readElem b i with
    | none => exact .inr ⟨0, by omega, h0, by simp only [fetchFrom, fetchElem_none h0, Nat.add_zero]⟩
    | some x =>
      rcases ih (i + 1) with ⟨xs, hl, hx, he⟩ | ⟨k, hk, hn, he⟩
      · refine .inl ⟨x :: xs, by simp [hl], fun k hk => ?_, by simp only [fetchFrom, fetchElem_some h0, he]⟩
        cases k with
        | zero => simpa using h0
        | succ k => rw [← Nat.add_assoc, Nat.add_right_comm]; simpa using hx k (by omega)
      · refine .inr ⟨k + 1, by omega, ?_, ?_⟩
        · rw [← Nat.add_assoc, Nat.add_right_comm]; exact hn
        · simp only [fetchFrom, fetchElem_some h0, he]
          congr 2; omega

theorem fetchAll_ok {name : Buf} {b : Buffer w} (xs : List (BitVec w))
    (h : ∀ k < xs.length, readElem b k = xs[k]?) : fetchAll name b xs.length = .ok xs :=
  fetchFrom_ok xs 0 (by simpa using h)

theorem fetchAll_unwritten {name : Buf} {b : Buffer w} (xs : List (BitVec w)) {n : Nat}
    (h : ∀ k < xs.length, readElem b k = xs[k]?) (hn : xs.length < n) (hu : readElem b xs.length = none) :
    fetchAll name b n = .error (.unwritten name xs.length) := by
  simpa [fetchAll] using fetchFrom_unwritten (name := name) xs 0 n (by simpa using h) hn (by simpa using hu)

theorem fetchAll_cases (name : Buf) (b : Buffer w) (n : Nat) :
    (∃ xs, xs.length = n ∧ (∀ k < n, readElem b k = xs[k]?) ∧ fetchAll name b n = .ok xs)
      ∨ (∃ k, k < n ∧ readElem b k = none ∧ fetchAll name b n = .error (.unwritten name k)) := by
  simpa [fetchAll] using fetchFrom_cases name b 0 n

/-! ## The counted loop -/

@[simp] theorem forFrom_zero (body : Nat → α → Except Halt α) (i : Nat) (out : α) :
    forFrom body i 0 out = .ok out := rfl

theorem forFrom_succ_ok {body : Nat → α → Except Halt α} {i : Nat} {out out' : α} (h : body i out = .ok out')
    (n : Nat) : forFrom body i (n + 1) out = forFrom body (i + 1) n out' := by
  rw [forFrom, h]

theorem forFrom_succ_error {body : Nat → α → Except Halt α} {i : Nat} {out : α} {e : Halt}
    (h : body i out = .error e) (n : Nat) : forFrom body i (n + 1) out = .error e := by
  rw [forFrom, h]

/-- A prefix of the loop whose every step answers a known list, and the rest. -/
theorem forFrom_steps {body : Nat → α → Except Halt α} (outs : Nat → α) (i m n : Nat)
    (h : ∀ k < m, body (i + k) (outs k) = .ok (outs (k + 1))) :
    forFrom body i (m + n) (outs 0) = forFrom body (i + m) n (outs m) := by
  induction m generalizing i outs with
  | zero => simp
  | succ m ih =>
    have h0 : body i (outs 0) = .ok (outs 1) := by simpa using h 0 (by omega)
    rw [show m + 1 + n = m + n + 1 by omega, forFrom_succ_ok h0]
    have := ih (fun k => outs (k + 1)) (i + 1) fun k hk => by
      have := h (k + 1) (by omega)
      rw [Nat.add_right_comm, Nat.add_assoc]; simpa using this
    simp only [Nat.zero_add] at this
    rw [this]; congr 1; omega

theorem forFrom_ok {body : Nat → α → Except Halt α} (outs : Nat → α) (n : Nat)
    (h : ∀ k < n, body k (outs k) = .ok (outs (k + 1))) : forFrom body 0 n (outs 0) = .ok (outs n) := by
  have := forFrom_steps outs 0 n 0 (by simpa using h)
  simpa using this

theorem forFrom_error {body : Nat → α → Except Halt α} (outs : Nat → α) {m n : Nat} {e : Halt} (hm : m < n)
    (h : ∀ k < m, body k (outs k) = .ok (outs (k + 1))) (he : body m (outs m) = .error e) :
    forFrom body 0 n (outs 0) = .error e := by
  have := forFrom_steps outs 0 m (n - m) (by simpa using h)
  rw [show m + (n - m) = n by omega] at this
  rw [this, show n - m = (n - m - 1) + 1 by omega, Nat.zero_add]
  exact forFrom_succ_error he _

theorem flatMap_single {β γ : Type} (f : γ → β) (xs : List γ) : (xs.flatMap fun x => [f x]) = xs.map f := by
  induction xs with
  | nil => rfl
  | cons x rest ih => simp [ih]

/-- A loop whose step k appends the outputs of source k: over all sources it answers all outputs. -/
theorem forFrom_flatMap {β γ : Type} {body : Nat → List β → Except Halt (List β)} (f : γ → List β) (xs : List γ)
    (h : ∀ k (hk : k < xs.length),
      body k ((xs.take k).flatMap f) = .ok ((xs.take k).flatMap f ++ f xs[k])) :
    forFrom body 0 xs.length [] = .ok (xs.flatMap f) := by
  have := forFrom_ok (body := body) (fun k => (xs.take k).flatMap f) xs.length fun k hk => by
    rw [h k hk, List.take_succ_eq_append_getElem hk, List.flatMap_append]; simp
  simpa using this

/-- The same loop, halted at the source after a prefix. -/
theorem forFrom_flatMap_error {β γ : Type} {body : Nat → List β → Except Halt (List β)} (f : γ → List β) (xs : List γ)
    {n : Nat} {e : Halt} (hn : xs.length < n)
    (h : ∀ k (hk : k < xs.length),
      body k ((xs.take k).flatMap f) = .ok ((xs.take k).flatMap f ++ f xs[k]))
    (he : body xs.length (xs.flatMap f) = .error e) : forFrom body 0 n [] = .error e := by
  have := forFrom_error (body := body) (fun k => (xs.take k).flatMap f) (m := xs.length) (e := e) hn
    (fun k hk => by rw [h k hk, List.take_succ_eq_append_getElem hk, List.flatMap_append]; simp)
    (by simpa using he)
  simpa using this

/-- Everything the loop can do, for a property each step keeps: it answers a value that has the property, or some step
halts from a value that has it. -/
theorem forFrom_invariant {body : Nat → α → Except Halt α} (P : Nat → α → Prop) (i n : Nat) (out : α) (h0 : P i out)
    (hstep : ∀ k a b, i ≤ k → k < i + n → P k a → body k a = .ok b → P (k + 1) b) :
    (∃ b, P (i + n) b ∧ forFrom body i n out = .ok b)
      ∨ (∃ k a e, i ≤ k ∧ k < i + n ∧ P k a ∧ body k a = .error e ∧ forFrom body i n out = .error e) := by
  induction n generalizing i out with
  | zero => exact .inl ⟨out, h0, rfl⟩
  | succ n ih =>
    cases hb : body i out with
    | error e => exact .inr ⟨i, out, e, Nat.le_refl i, by omega, h0, hb, forFrom_succ_error hb n⟩
    | ok b =>
      rw [forFrom_succ_ok hb]
      rcases ih (i + 1) b (hstep i out b (Nat.le_refl i) (by omega) h0 hb)
          (fun k a c h1 h2 => hstep k a c (by omega) (by omega)) with ⟨c, hc, he⟩ | ⟨k, a, e, h1, h2, h3, h4, h5⟩
      · exact .inl ⟨c, by rw [show i + (n + 1) = i + 1 + n by omega]; exact hc, he⟩
      · exact .inr ⟨k, a, e, by omega, by omega, h3, h4, h5⟩

end Sys2Proof.Machine
end

