-- ==== Sys2Proof/Laws/Tables.lean ====
section
/-! SUPPORT. The laws of the alphabet tables: a lookup finds exactly the table's entries, and in a well-formed build the
two directions invert each other. -/

namespace Sys2Proof.Machine

theorem mem_of_tableAt {t : List (Septet × CodePoint)} {s : Septet} {c : CodePoint} (h : tableAt t s = some c) :
    (s, c) ∈ t := by
  induction t with
  | nil => cases h
  | cons e rest ih =>
    obtain ⟨k, d⟩ := e
    rw [tableAt] at h
    split_ifs at h with hk
    · cases h; subst hk; simp
    · simp [ih h]

theorem tableAt_eq_none {t : List (Septet × CodePoint)} {s : Septet} :
    tableAt t s = none ↔ ∀ c, (s, c) ∉ t := by
  induction t with
  | nil => simp [tableAt]
  | cons e rest ih =>
    obtain ⟨k, d⟩ := e
    rw [tableAt]
    split_ifs with hk
    · subst hk; exact ⟨fun h => h.elim, fun h => absurd (by simp) (h d)⟩
    · simp [ih, hk]

theorem mem_of_tableIndex {t : List (Septet × CodePoint)} {s : Septet} {c : CodePoint} (h : tableIndex t c = some s) :
    (s, c) ∈ t := by
  induction t with
  | nil => cases h
  | cons e rest ih =>
    obtain ⟨k, d⟩ := e
    rw [tableIndex] at h
    split_ifs at h with hk
    · cases h; subst hk; simp
    · simp [ih h]

theorem tableIndex_eq_none {t : List (Septet × CodePoint)} {c : CodePoint} :
    tableIndex t c = none ↔ ∀ s, (s, c) ∉ t := by
  induction t with
  | nil => simp [tableIndex]
  | cons e rest ih =>
    obtain ⟨k, d⟩ := e
    rw [tableIndex]
    split_ifs with hk
    · subst hk; exact ⟨fun h => h.elim, fun h => absurd (by simp) (h k)⟩
    · simp [ih, hk]

theorem distinctKeys_unique {α β : Type} [DecidableEq α] {t : List (α × β)} (h : distinctKeys t = true) {a : α}
    {x y : β} (hx : (a, x) ∈ t) (hy : (a, y) ∈ t) : x = y := by
  induction t with
  | nil => cases hx
  | cons e rest ih =>
    obtain ⟨b, z⟩ := e
    simp only [distinctKeys, Bool.and_eq_true, List.all_eq_true, decide_eq_true_eq] at h
    rcases List.mem_cons.mp hx with hx | hx <;> rcases List.mem_cons.mp hy with hy | hy
    · rw [Prod.mk.injEq] at hx hy; rw [hx.2, hy.2]
    · rw [Prod.mk.injEq] at hx; exact absurd hx.1 (h.1 _ hy)
    · rw [Prod.mk.injEq] at hy; exact absurd hy.1 (h.1 _ hx)
    · exact ih h.2 hx hy

/-- A build that passes the check has functional, injective tables with nothing at the escape and disjoint images. -/
theorem Params.wf_tables {p : Params} (h : p.wf = true) :
    (∀ s c d, (s, c) ∈ p.basic → (s, d) ∈ p.basic → c = d)
      ∧ (∀ s t c, (s, c) ∈ p.basic → (t, c) ∈ p.basic → s = t)
      ∧ (∀ s c d, (s, c) ∈ p.ext → (s, d) ∈ p.ext → c = d)
      ∧ (∀ s t c, (s, c) ∈ p.ext → (t, c) ∈ p.ext → s = t)
      ∧ (∀ s t c, (s, c) ∈ p.basic → (t, c) ∉ p.ext)
      ∧ (∀ s c, (s, c) ∈ p.basic → s ≠ escape) ∧ ∀ s c, (s, c) ∈ p.ext → s ≠ escape := by
  simp only [Params.wf, tableWf, imagesDisjoint, Bool.and_eq_true, List.all_eq_true, decide_eq_true_eq] at h
  obtain ⟨⟨⟨⟨-, ⟨hb1, hb2⟩, hb3⟩, ⟨he1, he2⟩, he3⟩, hd⟩, -⟩ := h
  have swap {t : List (Septet × CodePoint)} {s : Septet} {c : CodePoint} (h : (s, c) ∈ t) :
      (c, s) ∈ t.map Prod.swap := List.mem_map.mpr ⟨_, h, rfl⟩
  exact ⟨fun s c d => distinctKeys_unique hb1, fun s t c hs ht => distinctKeys_unique hb2 (swap hs) (swap ht),
    fun s c d => distinctKeys_unique he1, fun s t c hs ht => distinctKeys_unique he2 (swap hs) (swap ht),
    fun s t c hs ht => hd _ hs _ ht rfl, fun s c hs => (hb3 _ hs).1, fun s c hs => (he3 _ hs).1⟩

theorem tableAt_of_mem {t : List (Septet × CodePoint)} (hu : ∀ s c d, (s, c) ∈ t → (s, d) ∈ t → c = d)
    {s : Septet} {c : CodePoint} (h : (s, c) ∈ t) : tableAt t s = some c := by
  cases hf : tableAt t s with
  | none => exact absurd h (tableAt_eq_none.mp hf c)
  | some d => rw [hu s d c (mem_of_tableAt hf) h]

theorem tableIndex_of_mem {t : List (Septet × CodePoint)} (hu : ∀ s u c, (s, c) ∈ t → (u, c) ∈ t → s = u)
    {s : Septet} {c : CodePoint} (h : (s, c) ∈ t) : tableIndex t c = some s := by
  cases hf : tableIndex t c with
  | none => exact absurd h (tableIndex_eq_none.mp hf s)
  | some u => rw [hu u s c (mem_of_tableIndex hf) h]

/-- Everything enc7 can answer (42_gsm7.md R145). -/
theorem enc7_cases (p : Params) (c : CodePoint) :
    (∃ s, (s, c) ∈ p.basic ∧ enc7 p c = some [s])
      ∨ ((∀ s, (s, c) ∉ p.basic) ∧ ∃ e, (e, c) ∈ p.ext ∧ enc7 p c = some [escape, e])
      ∨ ((∀ s, (s, c) ∉ p.basic) ∧ (∀ e, (e, c) ∉ p.ext) ∧ enc7 p c = none) := by
  cases hb : tableIndex p.basic c with
  | some s => exact .inl ⟨s, mem_of_tableIndex hb, by rw [enc7, hb]⟩
  | none =>
    cases he : tableIndex p.ext c with
    | some e => exact .inr (.inl ⟨tableIndex_eq_none.mp hb, e, mem_of_tableIndex he, by rw [enc7, hb]; simp only; rw [he]⟩)
    | none =>
      exact .inr (.inr ⟨tableIndex_eq_none.mp hb, tableIndex_eq_none.mp he, by rw [enc7, hb]; simp only; rw [he]⟩)

/-! ## The default build -/

theorem defaultParams_wf : defaultParams.wf = true := by decide +kernel

/-- Every septet but the escape is a character of the default basic table (R157). -/
theorem defaultParams_basic_total (s : Septet) (h : s ≠ escape) : ∃ c, tableAt defaultParams.basic s = some c := by
  have : ∀ s : Septet, s ≠ escape → (tableAt defaultParams.basic s).isSome = true := by decide +kernel
  exact Option.isSome_iff_exists.mp (this s h)

end Sys2Proof.Machine
end

