-- ==== Sys2Proof/Laws/Gsm7.lean ====
section
/-! SUPPORT. One spec lemma per GSM 7-bit stage, for every build's parameters: translation to septets, translation to
text, and how each can stop. -/

namespace Sys2Proof.Machine

variable {p : Params}

/-! ## Translation to septets -/

theorem pushAll_ok (cap pos : Nat) (vs out : List Septet) (h : out.length + vs.length ≤ cap) :
    pushAll cap pos vs out = .ok (out ++ vs) := by
  induction vs generalizing out with
  | nil => simp [pushAll]
  | cons v rest ih =>
    simp only [List.length_cons] at h
    rw [pushAll, push_ok (by omega)]; simp only
    rw [ih _ (by simp; omega)]; simp

theorem pushAll_full (cap pos : Nat) (vs out : List Septet) (h1 : out.length ≤ cap)
    (h2 : cap < out.length + vs.length) : pushAll cap pos vs out = .error (.raised .incorrectSize pos) := by
  induction vs generalizing out with
  | nil => simp at h2; omega
  | cons v rest ih =>
    rw [pushAll]
    rcases push_cases out v cap pos with ⟨hl, he⟩ | ⟨hl, he⟩
    · rw [he]; simp only
      exact ih _ (by simp; omega) (by simp at h2 ⊢; omega)
    · rw [he]

/-- pushAll answers the list with the septets appended, within the capacity, or raises IncorrectSize. -/
theorem pushAll_cases (cap pos : Nat) (vs out : List Septet) (h : out.length ≤ cap) :
    (out.length + vs.length ≤ cap ∧ pushAll cap pos vs out = .ok (out ++ vs))
      ∨ pushAll cap pos vs out = .error (.raised .incorrectSize pos) := by
  rcases Nat.lt_or_ge cap (out.length + vs.length) with h2 | h2
  · exact .inr (pushAll_full cap pos vs out h h2)
  · exact .inl ⟨h2, pushAll_ok cap pos vs out h2⟩

/-- The septets of a code point, none if it is in neither table. -/
def septetsOf (p : Params) (c : CodePoint) : List Septet := (enc7 p c).getD []

theorem flatMap_take_length {α β : Type} (f : α → List β) (xs : List α) (k : Nat) (hk : k < xs.length) :
    ((xs.take k).flatMap f).length + (f xs[k]).length ≤ (xs.flatMap f).length := by
  have h : xs.flatMap f = (xs.take k).flatMap f ++ (f xs[k] ++ (xs.drop (k + 1)).flatMap f) := by
    rw [← List.flatMap_cons, ← List.drop_eq_getElem_cons hk, ← List.flatMap_append, List.take_append_drop]
  rw [h, List.length_append, List.length_append]; omega

theorem map7_steps {txt : Buffer 32} {cs : List CodePoint} (h : ∀ k < cs.length, readElem txt k = cs[k]?)
    (he : ∀ c ∈ cs, enc7 p c = some (septetsOf p c)) (hl : (cs.flatMap (septetsOf p)).length ≤ p.nSep)
    (k : Nat) (hk : k < cs.length) :
    map7Body p txt k ((cs.take k).flatMap (septetsOf p))
      = .ok ((cs.take k).flatMap (septetsOf p) ++ septetsOf p cs[k]) := by
  have hr : readElem txt k = some cs[k] := by rw [h k hk, List.getElem?_eq_getElem hk]
  have := flatMap_take_length (septetsOf p) cs k hk
  rw [map7Body, fetchElem_some hr]; simp only
  rw [he _ (List.getElem_mem hk)]; simp only
  exact pushAll_ok _ _ _ _ (by omega)

theorem map7_ok {txt : Buffer 32} {cs : List CodePoint} (h : ∀ k < cs.length, readElem txt k = cs[k]?)
    (he : ∀ c ∈ cs, enc7 p c = some (septetsOf p c)) (hl : (cs.flatMap (septetsOf p)).length ≤ p.nSep) :
    map7 p txt cs.length = .ok (cs.flatMap (septetsOf p)) :=
  forFrom_flatMap (septetsOf p) cs (map7_steps h he hl)

theorem map7_halt {txt : Buffer 32} {cs : List CodePoint} {n : Nat} {e : Halt} (hn : cs.length < n)
    (h : ∀ k < cs.length, readElem txt k = cs[k]?) (he : ∀ c ∈ cs, enc7 p c = some (septetsOf p c))
    (hl : (cs.flatMap (septetsOf p)).length ≤ p.nSep)
    (hb : map7Body p txt cs.length (cs.flatMap (septetsOf p)) = .error e) : map7 p txt n = .error e :=
  forFrom_flatMap_error (septetsOf p) cs hn (map7_steps h he hl) hb

theorem map7Body_unwritten {txt : Buffer 32} {i : Nat} (h : readElem txt i = none) (out : List Septet) :
    map7Body p txt i out = .error (.unwritten .txt i) := by
  rw [map7Body, fetchElem_none h]

theorem map7Body_unmappable {txt : Buffer 32} {i : Nat} {c : CodePoint} (h : readElem txt i = some c)
    (hc : enc7 p c = none) (out : List Septet) : map7Body p txt i out = .error (.raised .unmappableChar i) := by
  rw [map7Body, fetchElem_some h]; simp only; rw [hc]; rfl

theorem map7Body_full {txt : Buffer 32} {i : Nat} {c : CodePoint} {ss : List Septet} (h : readElem txt i = some c)
    (hc : enc7 p c = some ss) {out : List Septet} (h1 : out.length ≤ p.nSep) (h2 : p.nSep < out.length + ss.length) :
    map7Body p txt i out = .error (.raised .incorrectSize i) := by
  rw [map7Body, fetchElem_some h]; simp only; rw [hc]; exact pushAll_full _ _ _ _ h1 h2

/-! ## Translation to text -/

/-- How a septet stream reads as text in a build's tables, each escape a prefix (42_gsm7.md R157). -/
inductive Translates (p : Params) : List Septet → List CodePoint → Prop where
  | nil : Translates p [] []
  | basic {s : Septet} {c : CodePoint} {ss : List Septet} {cs : List CodePoint} :
      s ≠ escape → tableAt p.basic s = some c → Translates p ss cs → Translates p (s :: ss) (c :: cs)
  | ext {e : Septet} {c : CodePoint} {ss : List Septet} {cs : List CodePoint} :
      tableAt p.ext e = some c → Translates p ss cs → Translates p (escape :: e :: ss) (c :: cs)

theorem Translates.length_le {ss : List Septet} {cs : List CodePoint} (h : Translates p ss cs) :
    cs.length ≤ ss.length := by
  induction h with
  | nil => simp
  | basic _ _ _ ih => simp; omega
  | ext _ _ ih => simp; omega

theorem Translates.append {ss ts : List Septet} {cs ds : List CodePoint} (h : Translates p ss cs)
    (h' : Translates p ts ds) : Translates p (ss ++ ts) (cs ++ ds) := by
  induction h with
  | nil => exact h'
  | basic h1 h2 _ ih => exact .basic h1 h2 ih
  | ext h1 _ ih => exact .ext h1 ih

variable {read : Nat → Except Halt Septet} {pos : Nat → Nat}

theorem unmapFrom_basic {n i : Nat} {s : Septet} {c : CodePoint} {out : List CodePoint} (h : read i = .ok s)
    (hs : s ≠ escape) (hc : tableAt p.basic s = some c) (ho : out.length < p.nTxt) :
    unmapFrom p read pos (n + 1) i out = unmapFrom p read pos n (i + 1) (out ++ [c]) := by
  rw [unmapFrom.eq_def]; simp only [h, if_neg hs, hc, push_ok ho]

theorem unmapFrom_ext {n i : Nat} {e : Septet} {c : CodePoint} {out : List CodePoint} (h : read i = .ok escape)
    (h' : read (i + 1) = .ok e) (hc : tableAt p.ext e = some c) (ho : out.length < p.nTxt) :
    unmapFrom p read pos (n + 2) i out = unmapFrom p read pos n (i + 2) (out ++ [c]) := by
  rw [unmapFrom.eq_def]; simp only [h, if_true, h', hc, push_ok ho]

theorem unmapFrom_truncated {i : Nat} {out : List CodePoint} (h : read i = .ok escape) :
    unmapFrom p read pos 1 i out = .error (.raised .truncatedEscape (pos i)) := by
  rw [unmapFrom.eq_def]; simp only [h, if_true, raise]

theorem unmapFrom_undefined {n i : Nat} {e : Septet} {out : List CodePoint} (h : read i = .ok escape)
    (h' : read (i + 1) = .ok e) (hc : tableAt p.ext e = none) :
    unmapFrom p read pos (n + 2) i out = .error (.raised .unmappableChar (pos i)) := by
  rw [unmapFrom.eq_def]; simp only [h, if_true, h', hc, raise]

theorem unmapFrom_halt {n i : Nat} {e : Halt} {out : List CodePoint} (h : read i = .error e) :
    unmapFrom p read pos (n + 1) i out = .error e := by
  rw [unmapFrom.eq_def]; simp only [h]

theorem unmapFrom_halt_index {n i : Nat} {e : Halt} {out : List CodePoint} (h : read i = .ok escape)
    (h' : read (i + 1) = .error e) : unmapFrom p read pos (n + 2) i out = .error e := by
  rw [unmapFrom.eq_def]; simp only [h, if_true, h']

/-- A prefix that reads as text is translated, and the rest goes on from there. -/
theorem unmapFrom_prefix {ss : List Septet} {cs : List CodePoint} (h : Translates p ss cs) (n i : Nat)
    (out : List CodePoint) (hr : ∀ k (hk : k < ss.length), read (i + k) = .ok ss[k])
    (ho : out.length + cs.length ≤ p.nTxt) :
    unmapFrom p read pos (ss.length + n) i out = unmapFrom p read pos n (i + ss.length) (out ++ cs) := by
  induction h generalizing i out with
  | nil => simp
  | @basic s c ss cs h1 h2 _ ih =>
    simp only [List.length_cons] at ho ⊢
    rw [show ss.length + 1 + n = ss.length + n + 1 by omega,
      unmapFrom_basic (by have := hr 0 (by simp); exact this) h1 h2 (by omega),
      ih (i + 1) _ (fun k hk => by
        have := hr (k + 1) (by simpa using hk)
        rw [Nat.add_right_comm, Nat.add_assoc]; simpa using this) (by simp; omega),
      show i + 1 + ss.length = i + (ss.length + 1) by omega]
    simp
  | @ext e c ss cs h1 _ ih =>
    simp only [List.length_cons] at ho ⊢
    rw [show ss.length + 1 + 1 + n = ss.length + n + 2 by omega,
      unmapFrom_ext (by have := hr 0 (by simp); exact this) (by have := hr 1 (by simp); exact this) h1 (by omega),
      ih (i + 2) _ (fun k hk => by
        have := hr (k + 2) (by simpa using hk)
        rw [show i + 2 + k = i + (k + 2) by omega]; simpa using this) (by simp; omega),
      show i + 2 + ss.length = i + (ss.length + 1 + 1) by omega]
    simp

/-- What UNMAP7 can do: it answers a text within N_TXT, raises an error at the position of some septet, or its source
halts at some septet. -/
theorem unmapFrom_cases (p : Params) (read : Nat → Except Halt Septet) (pos : Nat → Nat) (n i : Nat)
    (out : List CodePoint) (ho : out.length ≤ p.nTxt) :
    (∃ cs, cs.length ≤ p.nTxt ∧ unmapFrom p read pos n i out = .ok cs)
      ∨ (∃ e k, e ≠ .illegalCommand ∧ k < i + n ∧ unmapFrom p read pos n i out = .error (.raised e (pos k)))
      ∨ (∃ k e, k < i + n ∧ read k = .error e ∧ unmapFrom p read pos n i out = .error e) := by
  induction n using Nat.strong_induction_on generalizing i out with
  | _ n ih =>
    cases n with
    | zero => exact .inl ⟨out, ho, rfl⟩
    | succ n =>
      cases h : read i with
      | error e => exact .inr (.inr ⟨i, e, by omega, h, unmapFrom_halt h⟩)
      | ok s =>
        by_cases hs : s = escape
        · subst hs
          cases n with
          | zero => exact .inr (.inl ⟨.truncatedEscape, i, by decide, by omega, unmapFrom_truncated h⟩)
          | succ n =>
            cases h' : read (i + 1) with
            | error e => exact .inr (.inr ⟨i + 1, e, by omega, h', unmapFrom_halt_index h h'⟩)
            | ok e =>
              cases hc : tableAt p.ext e with
              | none => exact .inr (.inl ⟨.unmappableChar, i, by decide, by omega, unmapFrom_undefined h h' hc⟩)
              | some c =>
                rcases Nat.lt_or_ge out.length p.nTxt with hl | hl
                · rw [unmapFrom_ext h h' hc hl]
                  rcases ih n (by omega) (i + 2) (out ++ [c]) (by simp; omega) with h1 | ⟨e, k, h1, h2, h3⟩ |
                    ⟨k, e, h1, h2, h3⟩
                  · exact .inl h1
                  · exact .inr (.inl ⟨e, k, h1, by omega, h3⟩)
                  · exact .inr (.inr ⟨k, e, by omega, h2, h3⟩)
                · refine .inr (.inl ⟨.incorrectSize, i, by decide, by omega, ?_⟩)
                  rw [unmapFrom.eq_def]; simp only [h, if_true, h', hc, push_full hl]
        · cases hc : tableAt p.basic s with
          | none =>
            refine .inr (.inl ⟨.unmappableChar, i, by decide, by omega, ?_⟩)
            rw [unmapFrom.eq_def]; simp only [h, if_neg hs, hc, raise]
          | some c =>
            rcases Nat.lt_or_ge out.length p.nTxt with hl | hl
            · rw [unmapFrom_basic h hs hc hl]
              rcases ih n (by omega) (i + 1) (out ++ [c]) (by simp; omega) with h1 | ⟨e, k, h1, h2, h3⟩ |
                ⟨k, e, h1, h2, h3⟩
              · exact .inl h1
              · exact .inr (.inl ⟨e, k, h1, by omega, h3⟩)
              · exact .inr (.inr ⟨k, e, by omega, h2, h3⟩)
            · refine .inr (.inl ⟨.incorrectSize, i, by decide, by omega, ?_⟩)
              rw [unmapFrom.eq_def]; simp only [h, if_neg hs, hc, push_full hl]

/-- The septets of a text, in a well-formed build, read back as the text (R164). -/
theorem translates_septetsOf (hp : p.wf = true) {c : CodePoint} (h : enc7 p c ≠ none) :
    Translates p (septetsOf p c) [c] := by
  obtain ⟨hb, -, he, -, -, hne, -⟩ := Params.wf_tables hp
  rcases enc7_cases p c with ⟨s, hm, hs⟩ | ⟨-, e, hm, hs⟩ | ⟨-, -, hs⟩
  · rw [septetsOf, hs]; exact .basic (hne s c hm) (tableAt_of_mem hb hm) .nil
  · rw [septetsOf, hs]; exact .ext (tableAt_of_mem he hm) .nil
  · exact absurd hs h

theorem translates_flatMap (hp : p.wf = true) {cs : List CodePoint} (h : ∀ c ∈ cs, enc7 p c ≠ none) :
    Translates p (cs.flatMap (septetsOf p)) cs := by
  induction cs with
  | nil => exact .nil
  | cons c rest ih =>
    rw [List.flatMap_cons]
    exact (translates_septetsOf hp (h c (by simp))).append (ih fun d hd => h d (by simp [hd]))

/-! ## The commands -/

theorem g7Map_size {n : Nat} (h : p.nTxt < n) (txt : Buffer 32) :
    g7Map p n txt = .error (.raised .incorrectSize 0) := by rw [g7Map, if_pos h]; rfl

theorem g7Map_ok {txt : Buffer 32} {n : Nat} {sep : List Septet} (hn : n ≤ p.nTxt) (h : map7 p txt n = .ok sep) :
    g7Map p n txt = .ok { sep := sep, dstLen := sep.length, lenf := sep.length, consumed := n } := by
  rw [g7Map, if_neg (by omega), h]

theorem g7Map_halt {txt : Buffer 32} {n : Nat} {e : Halt} (hn : n ≤ p.nTxt) (h : map7 p txt n = .error e) :
    g7Map p n txt = .error e := by
  rw [g7Map, if_neg (by omega), h]

theorem g7Encode_size {n : Nat} (h : p.nTxt < n) (txt : Buffer 32) :
    g7Encode p n txt = .error (.raised .incorrectSize 0) := by rw [g7Encode, if_pos h]; rfl

theorem g7Encode_ok {txt : Buffer 32} {n : Nat} {sep : List Septet} (hn : n ≤ p.nTxt) (h : map7 p txt n = .ok sep)
    (ho : ceilDiv (7 * sep.length) 8 ≤ p.nOct) :
    g7Encode p n txt = .ok
      { sep := sep, oct := pack7 sep, dstLen := ceilDiv (7 * sep.length) 8, lenf := sep.length, consumed := n } := by
  rw [g7Encode, if_neg (by omega), h]; simp only; rw [if_neg (by omega), pack7_length]

theorem g7Encode_halt {txt : Buffer 32} {n : Nat} {e : Halt} (hn : n ≤ p.nTxt) (h : map7 p txt n = .error e) :
    g7Encode p n txt = .error e := by
  rw [g7Encode, if_neg (by omega), h]

theorem g7Unmap_size {l : Nat} (h : p.nSep < l) (sep : Buffer 7) :
    g7Unmap p l sep = .error (.raised .incorrectSize 0) := by rw [g7Unmap, if_pos h]; rfl

/-- Septets read one by one from the start of SEP. -/
theorem fetch_prefix {sep : Buffer 7} {ss : List Septet} (h : ∀ k < ss.length, readElem sep k = ss[k]?) :
    ∀ k (hk : k < ss.length), fetchElem .sep sep (0 + k) = .ok ss[k] := fun k hk => by
  rw [Nat.zero_add]; exact fetchElem_some (by rw [h k hk, List.getElem?_eq_getElem hk])

theorem g7Unmap_ok {sep : Buffer 7} {ss : List Septet} {cs : List CodePoint}
    (h : ∀ k < ss.length, readElem sep k = ss[k]?) (ht : Translates p ss cs) (hn : ss.length ≤ p.nSep)
    (ho : cs.length ≤ p.nTxt) :
    g7Unmap p ss.length sep = .ok { txt := cs, dstLen := cs.length, lenf := ss.length, consumed := ss.length } := by
  have := unmapFrom_prefix (pos := id) ht 0 0 [] (fetch_prefix h) (by simpa using ho)
  simp only [Nat.add_zero, List.nil_append] at this
  rw [g7Unmap, if_neg (by omega), this]; rfl

/-- A halt after a prefix that reads as text. -/
theorem g7Unmap_halt {sep : Buffer 7} {ss : List Septet} {cs : List CodePoint} {l : Nat} {e : Halt}
    (h : ∀ k < ss.length, readElem sep k = ss[k]?) (ht : Translates p ss cs) (hn : l ≤ p.nSep)
    (ho : cs.length ≤ p.nTxt) (hl : ss.length ≤ l)
    (he : unmapFrom p (fetchElem .sep sep) id (l - ss.length) ss.length cs = .error e) :
    g7Unmap p l sep = .error e := by
  have := unmapFrom_prefix (pos := id) ht (l - ss.length) 0 [] (fetch_prefix h) (by simpa using ho)
  rw [show ss.length + (l - ss.length) = l by omega, Nat.zero_add, List.nil_append, he] at this
  rw [g7Unmap, if_neg (by omega), this]

theorem septPack_size {n : Nat} (h : p.nSep < n ∨ p.nOct < ceilDiv (7 * n) 8) (sep : Buffer 7) :
    septPack p n sep = .error (.raised .incorrectSize 0) := by
  rw [septPack]
  split_ifs
  · rfl
  · rfl
  · omega

theorem septPack_ok {sep : Buffer 7} {ss : List Septet} (h : ∀ k < ss.length, readElem sep k = ss[k]?)
    (hn : ss.length ≤ p.nSep) (ho : ceilDiv (7 * ss.length) 8 ≤ p.nOct) :
    septPack p ss.length sep = .ok
      { oct := pack7 ss, dstLen := ceilDiv (7 * ss.length) 8, lenf := ss.length, consumed := ss.length } := by
  rw [septPack, if_neg (by omega), if_neg (by omega), fetchAll_ok ss h, ← pack7_length]

theorem septPack_unwritten {sep : Buffer 7} {ss : List Septet} {n : Nat} (h : ∀ k < ss.length, readElem sep k = ss[k]?)
    (hn : n ≤ p.nSep) (ho : ceilDiv (7 * n) 8 ≤ p.nOct) (hl : ss.length < n) (hr : readElem sep ss.length = none) :
    septPack p n sep = .error (.unwritten .sep ss.length) := by
  rw [septPack, if_neg (by omega), if_neg (by omega), fetchAll_unwritten ss h hl hr]

theorem septUnpack_size {m l : Nat} (h : p.nOct < m ∨ p.nSep < l) (oct : Buffer 8) :
    septUnpack p m l oct = .error (.raised .incorrectSize 0) := by
  rw [septUnpack]
  split_ifs
  · rfl
  · rfl
  · omega
  · omega

theorem septUnpack_truncated {m l : Nat} (h1 : m ≤ p.nOct) (h2 : l ≤ p.nSep) (h3 : m < ceilDiv (7 * l) 8)
    (oct : Buffer 8) : septUnpack p m l oct = .error (.raised .truncated m) := by
  rw [septUnpack, if_neg (by omega), if_neg (by omega), if_pos h3]; rfl

theorem septUnpack_ok {oct : Buffer 8} {os : List Octet} {m l : Nat} (h1 : m ≤ p.nOct) (h2 : l ≤ p.nSep)
    (h3 : ceilDiv (7 * l) 8 ≤ m) (h : ∀ k < os.length, readElem oct k = os[k]?) (hl : os.length = ceilDiv (7 * l) 8) :
    septUnpack p m l oct = .ok { sep := unpack7 os l, dstLen := l, lenf := l, consumed := os.length } := by
  rw [septUnpack, if_neg (by omega), if_neg (by omega), if_neg (by omega), ← hl, fetchAll_ok os h]
  simp only [unpack7_length]

theorem septUnpack_unwritten {oct : Buffer 8} {os : List Octet} {m l : Nat} (h1 : m ≤ p.nOct) (h2 : l ≤ p.nSep)
    (h3 : ceilDiv (7 * l) 8 ≤ m) (h : ∀ k < os.length, readElem oct k = os[k]?) (hl : os.length < ceilDiv (7 * l) 8)
    (hr : readElem oct os.length = none) : septUnpack p m l oct = .error (.unwritten .oct os.length) := by
  rw [septUnpack, if_neg (by omega), if_neg (by omega), if_neg (by omega), fetchAll_unwritten os h hl hr]

theorem g7Decode_size {m l : Nat} (h : p.nOct < m ∨ p.nSep < l) (oct : Buffer 8) :
    g7Decode p m l oct = .error (.raised .incorrectSize 0) := by
  rw [g7Decode]
  split_ifs
  · rfl
  · rfl
  · omega
  · omega

theorem g7Decode_truncated {m l : Nat} (h1 : m ≤ p.nOct) (h2 : l ≤ p.nSep) (h3 : m < ceilDiv (7 * l) 8)
    (oct : Buffer 8) : g7Decode p m l oct = .error (.raised .truncated m) := by
  rw [g7Decode, if_neg (by omega), if_neg (by omega), if_pos h3]; rfl

theorem g7Decode_unwritten {oct : Buffer 8} {os : List Octet} {m l : Nat} (h1 : m ≤ p.nOct) (h2 : l ≤ p.nSep)
    (h3 : ceilDiv (7 * l) 8 ≤ m) (h : ∀ k < os.length, readElem oct k = os[k]?) (hl : os.length < ceilDiv (7 * l) 8)
    (hr : readElem oct os.length = none) : g7Decode p m l oct = .error (.unwritten .oct os.length) := by
  rw [g7Decode, if_neg (by omega), if_neg (by omega), if_neg (by omega), fetchAll_unwritten os h hl hr]

/-- G7_DECODE past its checks, on written octets, is UNMAP7 of the unpacked septets. -/
theorem g7Decode_loop {oct : Buffer 8} {os : List Octet} {m l : Nat} (h1 : m ≤ p.nOct) (h2 : l ≤ p.nSep)
    (h3 : ceilDiv (7 * l) 8 ≤ m) (h : ∀ k < os.length, readElem oct k = os[k]?) (hl : os.length = ceilDiv (7 * l) 8) :
    g7Decode p m l oct =
      match unmapFrom p (readList (unpack7 os l)) septetOctet l 0 [] with
      | .error h => .error h
      | .ok txt => .ok { sep := unpack7 os l, txt := txt, dstLen := txt.length, lenf := l, consumed := os.length } := by
  rw [g7Decode, if_neg (by omega), if_neg (by omega), if_neg (by omega), ← hl, fetchAll_ok os h] <;> rfl

theorem readList_prefix (ss ts : List Septet) :
    ∀ k (hk : k < ss.length), readList (ss ++ ts) (0 + k) = .ok ss[k] := fun k hk => by
  rw [readList, Nat.zero_add, List.getD_append _ _ _ _ hk, List.getD_eq_getElem _ _ hk]

/-- UNMAP7 of a list of septets, past a prefix that reads as text. -/
theorem unmapFrom_list {ss ts : List Septet} {cs : List CodePoint} {pos : Nat → Nat} (ht : Translates p ss cs)
    (ho : cs.length ≤ p.nTxt) :
    unmapFrom p (readList (ss ++ ts)) pos (ss ++ ts).length 0 []
      = unmapFrom p (readList (ss ++ ts)) pos ts.length ss.length cs := by
  have := unmapFrom_prefix (pos := pos) ht ts.length 0 [] (readList_prefix ss ts) (by simpa using ho)
  rw [List.length_append, this, Nat.zero_add, List.nil_append]

end Sys2Proof.Machine
end

