-- ==== Sys2Proof/Laws/SemiOctet.lean ====
section
/-! SUPPORT. One spec lemma per semi-octet command, for every build's parameters: what it answers on written, legal
sources, where it raises, where it meets an unwritten element. -/

namespace Sys2Proof.Machine

variable {p : Params}

/-! ## SEMI_ENC_NUM -/

theorem semiEncNumBody_ok {txt : Buffer 32} {i : Nat} {x : Word} (h : readElem txt i = some x) (hx : x.toNat ≤ 99)
    {out : List Octet} (ho : out.length < p.nOct) :
    semiEncNumBody p txt i out = .ok (out ++ [semiOctet x.toNat]) := by
  rw [semiEncNumBody, fetchElem_some h]; simp only; rw [if_neg (by omega), push_ok ho]

theorem semiEncNum_steps {txt : Buffer 32} {xs : List Word} (h : ∀ k < xs.length, readElem txt k = xs[k]?)
    (hx : ∀ x ∈ xs, x.toNat ≤ 99) (ho : xs.length ≤ p.nOct) (k : Nat) (hk : k < xs.length) :
    semiEncNumBody p txt k ((xs.take k).flatMap fun x => [semiOctet x.toNat])
      = .ok ((xs.take k).flatMap (fun x => [semiOctet x.toNat]) ++ [semiOctet xs[k].toNat]) := by
  refine semiEncNumBody_ok ?_ (hx _ (List.getElem_mem hk)) ?_
  · rw [h k hk, List.getElem?_eq_getElem hk]
  · simp [flatMap_single]; omega

theorem semiEncNum_ok {txt : Buffer 32} {xs : List Word} (h : ∀ k < xs.length, readElem txt k = xs[k]?)
    (hx : ∀ x ∈ xs, x.toNat ≤ 99) (hn : xs.length ≤ p.nTxt) (ho : xs.length ≤ p.nOct) :
    semiEncNum p xs.length txt = .ok
      { oct := xs.map fun x => semiOctet x.toNat, dstLen := xs.length, lenf := xs.length, consumed := xs.length } := by
  rw [semiEncNum, if_neg (by omega), forFrom_flatMap (fun x : Word => [semiOctet x.toNat]) xs
    (semiEncNum_steps h hx ho)]
  simp [flatMap_single]

theorem semiEncNum_invalid {txt : Buffer 32} {xs : List Word} {n : Nat} {x : Word}
    (h : ∀ k < xs.length, readElem txt k = xs[k]?) (hx : ∀ x ∈ xs, x.toNat ≤ 99) (hn : n ≤ p.nTxt)
    (ho : xs.length ≤ p.nOct) (hl : xs.length < n) (hr : readElem txt xs.length = some x) (hb : 99 < x.toNat) :
    semiEncNum p n txt = .error (.raised .invalidDigits xs.length) := by
  rw [semiEncNum, if_neg (by omega), forFrom_flatMap_error (fun x : Word => [semiOctet x.toNat]) xs hl
    (semiEncNum_steps h hx ho) (e := .raised .invalidDigits xs.length)
    (by rw [semiEncNumBody, fetchElem_some hr]; simp only; rw [if_pos hb]; rfl)]

theorem semiEncNum_unwritten {txt : Buffer 32} {xs : List Word} {n : Nat}
    (h : ∀ k < xs.length, readElem txt k = xs[k]?) (hx : ∀ x ∈ xs, x.toNat ≤ 99) (hn : n ≤ p.nTxt)
    (ho : xs.length ≤ p.nOct) (hl : xs.length < n) (hr : readElem txt xs.length = none) :
    semiEncNum p n txt = .error (.unwritten .txt xs.length) := by
  rw [semiEncNum, if_neg (by omega), forFrom_flatMap_error (fun x : Word => [semiOctet x.toNat]) xs hl
    (semiEncNum_steps h hx ho) (e := .unwritten .txt xs.length)
    (by rw [semiEncNumBody, fetchElem_none hr])]

/-! ## SEMI_DEC_NUM -/

/-- The number of a semi-octet. -/
def semiNumber (b : Octet) : Word := BitVec.ofNat 32 (10 * lowNibble b + highNibble b)

theorem semiDecNum_steps {oct : Buffer 8} {bs : List Octet} (h : ∀ k < bs.length, readElem oct k = bs[k]?)
    (hb : ∀ b ∈ bs, ¬(9 < lowNibble b ∨ 9 < highNibble b)) (ho : bs.length ≤ p.nTxt) (k : Nat) (hk : k < bs.length) :
    semiDecNumBody p oct k ((bs.take k).flatMap fun b => [semiNumber b])
      = .ok ((bs.take k).flatMap (fun b => [semiNumber b]) ++ [semiNumber bs[k]]) := by
  have hr : readElem oct k = some bs[k] := by rw [h k hk, List.getElem?_eq_getElem hk]
  rw [semiDecNumBody, fetchElem_some hr]; simp only
  rw [if_neg (hb _ (List.getElem_mem hk)), push_ok (by simp [flatMap_single]; omega)]
  rfl

theorem semiDecNum_ok {oct : Buffer 8} {bs : List Octet} (h : ∀ k < bs.length, readElem oct k = bs[k]?)
    (hb : ∀ b ∈ bs, ¬(9 < lowNibble b ∨ 9 < highNibble b)) (hn : bs.length ≤ p.nOct) (ho : bs.length ≤ p.nTxt) :
    semiDecNum p bs.length oct = .ok
      { txt := bs.map semiNumber, dstLen := bs.length, lenf := bs.length, consumed := bs.length } := by
  rw [semiDecNum, if_neg (by omega), forFrom_flatMap (fun b => [semiNumber b]) bs (semiDecNum_steps h hb ho)]
  simp [flatMap_single]

theorem semiDecNum_invalid {oct : Buffer 8} {bs : List Octet} {n : Nat} {b : Octet}
    (h : ∀ k < bs.length, readElem oct k = bs[k]?) (hb : ∀ b ∈ bs, ¬(9 < lowNibble b ∨ 9 < highNibble b))
    (hn : n ≤ p.nOct) (ho : bs.length ≤ p.nTxt) (hl : bs.length < n) (hr : readElem oct bs.length = some b)
    (hbad : 9 < lowNibble b ∨ 9 < highNibble b) :
    semiDecNum p n oct = .error (.raised .invalidDigits bs.length) := by
  rw [semiDecNum, if_neg (by omega), forFrom_flatMap_error (fun b => [semiNumber b]) bs hl
    (semiDecNum_steps h hb ho) (e := .raised .invalidDigits bs.length)
    (by rw [semiDecNumBody, fetchElem_some hr]; simp only; rw [if_pos hbad]; rfl)]

theorem semiDecNum_unwritten {oct : Buffer 8} {bs : List Octet} {n : Nat}
    (h : ∀ k < bs.length, readElem oct k = bs[k]?) (hb : ∀ b ∈ bs, ¬(9 < lowNibble b ∨ 9 < highNibble b))
    (hn : n ≤ p.nOct) (ho : bs.length ≤ p.nTxt) (hl : bs.length < n) (hr : readElem oct bs.length = none) :
    semiDecNum p n oct = .error (.unwritten .oct bs.length) := by
  rw [semiDecNum, if_neg (by omega), forFrom_flatMap_error (fun b => [semiNumber b]) bs hl
    (semiDecNum_steps h hb ho) (e := .unwritten .oct bs.length)
    (by rw [semiDecNumBody, fetchElem_none hr])]

/-! ## SEMI_ENC_DIG -/

/-- The octet of digit pair `k`, with the padding 0xF above a last odd digit. -/
def pairOctet (ds : List Word) (k : Nat) : Octet :=
  nibbles (ds.getD (2 * k) 0).toNat (if 2 * k + 1 < ds.length then (ds.getD (2 * k + 1) 0).toNat else 0xF)

/-- The octets of a digit string. -/
def pairOctets (ds : List Word) : List Octet := (List.range (ceilDiv ds.length 2)).map (pairOctet ds)

@[simp] theorem pairOctets_length (ds : List Word) : (pairOctets ds).length = ceilDiv ds.length 2 := by
  simp [pairOctets]

theorem secondDigit_ok {txt : Buffer 32} {d k : Nat} {x : Word} (hd : 2 * k + 1 < d)
    (h : readElem txt (2 * k + 1) = some x) (hx : x.toNat ≤ 9) : secondDigit d txt k = .ok x.toNat := by
  rw [secondDigit, if_pos hd, fetchElem_some h]; simp only; rw [if_neg (by omega)]

theorem secondDigit_padding {txt : Buffer 32} {d k : Nat} (hd : ¬2 * k + 1 < d) : secondDigit d txt k = .ok 0xF := by
  rw [secondDigit, if_neg hd]

/-- Pairs whose two digits both lie in a written, legal prefix are encoded, whatever the declared count. -/
theorem semiEncDig_step {txt : Buffer 32} {ds : List Word} {d k : Nat} (h : ∀ k < ds.length, readElem txt k = ds[k]?)
    (hx : ∀ x ∈ ds, x.toNat ≤ 9) (hk : 2 * k + 1 < ds.length ∨ (2 * k < ds.length ∧ ds.length = d))
    (hl : ds.length ≤ d) {out : List Octet} (ho : out.length < p.nOct) :
    semiEncDigBody p d txt k out = .ok (out ++ [pairOctet ds k]) := by
  have hk0 : 2 * k < ds.length := by omega
  have h0 : readElem txt (2 * k) = some ds[2 * k] := by rw [h _ hk0, List.getElem?_eq_getElem hk0]
  have hx0 := hx _ (List.getElem_mem hk0)
  rw [semiEncDigBody, fetchElem_some h0]; simp only
  rw [if_neg (by omega)]
  by_cases hk1 : 2 * k + 1 < ds.length
  · have h1 : readElem txt (2 * k + 1) = some ds[2 * k + 1] := by rw [h _ hk1, List.getElem?_eq_getElem hk1]
    rw [secondDigit_ok (by omega) h1 (hx _ (List.getElem_mem hk1))]; simp only
    rw [push_ok ho, pairOctet, if_pos hk1, List.getD_eq_getElem _ _ hk0, List.getD_eq_getElem _ _ hk1]
  · rw [secondDigit_padding (by omega)]; simp only
    rw [push_ok ho, pairOctet, if_neg hk1, List.getD_eq_getElem _ _ hk0]

theorem semiEncDig_ok {txt : Buffer 32} {ds : List Word} (h : ∀ k < ds.length, readElem txt k = ds[k]?)
    (hx : ∀ x ∈ ds, x.toNat ≤ 9) (hn : ds.length ≤ p.nTxt) (ho : ceilDiv ds.length 2 ≤ p.nOct) :
    semiEncDig p ds.length txt = .ok
      { oct := pairOctets ds, dstLen := ceilDiv ds.length 2, lenf := ds.length, consumed := ds.length } := by
  have hloop := forFrom_ok (body := semiEncDigBody p ds.length txt)
    (fun k => (List.range k).map (pairOctet ds)) (ceilDiv ds.length 2) fun k hk => by
      rw [ceilDiv_two] at hk ho
      rw [semiEncDig_step h hx (by omega) (Nat.le_refl _) (by simp; omega), List.range_succ, List.map_append]
      rfl
  simp only [List.range_zero, List.map_nil] at hloop
  rw [semiEncDig, if_neg (by omega), hloop]
  simp [pairOctets]

theorem semiEncDig_halt {txt : Buffer 32} {ds : List Word} {d : Nat} {e : Halt}
    (h : ∀ k < ds.length, readElem txt k = ds[k]?) (hx : ∀ x ∈ ds, x.toNat ≤ 9) (hn : d ≤ p.nTxt)
    (ho : ceilDiv ds.length 2 ≤ p.nOct) (hl : ds.length < d)
    (he : ∀ out, semiEncDigBody p d txt (ds.length / 2) out = .error e) : semiEncDig p d txt = .error e := by
  have hloop := forFrom_error (body := semiEncDigBody p d txt)
    (fun k => (List.range k).map (pairOctet ds)) (m := ds.length / 2) (n := ceilDiv d 2) (e := e)
    (by rw [ceilDiv_two]; omega) (fun k hk => by
      rw [ceilDiv_two] at ho
      rw [semiEncDig_step h hx (.inl (by omega)) (by omega) (by simp; omega), List.range_succ, List.map_append]
      rfl) (he _)
  simp only [List.range_zero, List.map_nil] at hloop
  rw [semiEncDig, if_neg (by omega), hloop]

/-- The halt at the first digit that cannot be encoded, at an even or an odd index. -/
theorem semiEncDigBody_halt {txt : Buffer 32} {ds : List Word} {d : Nat} {e : Halt}
    (h : ∀ k < ds.length, readElem txt k = ds[k]?) (hx : ∀ x ∈ ds, x.toNat ≤ 9) (hl : ds.length < d)
    (hf : (fetchElem .txt txt ds.length = .error e)
      ∨ ∃ x : Word, readElem txt ds.length = some x ∧ 9 < x.toNat ∧ e = .raised .invalidDigits ds.length)
    (out : List Octet) : semiEncDigBody p d txt (ds.length / 2) out = .error e := by
  rcases Nat.mod_two_eq_zero_or_one ds.length with hpar | hpar
  · have hi : 2 * (ds.length / 2) = ds.length := by omega
    rw [semiEncDigBody, hi]
    rcases hf with hf | ⟨x, hr, hbad, rfl⟩
    · rw [hf]
    · rw [fetchElem_some hr]; simp only; rw [if_pos hbad]; rfl
  · have hi : 2 * (ds.length / 2) + 1 = ds.length := by omega
    have hk0 : 2 * (ds.length / 2) < ds.length := by omega
    have h0 : readElem txt (2 * (ds.length / 2)) = some ds[2 * (ds.length / 2)] := by
      rw [h _ hk0, List.getElem?_eq_getElem hk0]
    have hx0 := hx _ (List.getElem_mem hk0)
    rw [semiEncDigBody, fetchElem_some h0]; simp only
    rw [if_neg (by omega), secondDigit, if_pos (by omega), hi]
    rcases hf with hf | ⟨x, hr, hbad, rfl⟩
    · rw [hf]
    · rw [fetchElem_some hr]; simp only; rw [if_pos hbad]; rfl

theorem semiEncDig_invalid {txt : Buffer 32} {ds : List Word} {d : Nat} {x : Word}
    (h : ∀ k < ds.length, readElem txt k = ds[k]?) (hx : ∀ x ∈ ds, x.toNat ≤ 9) (hn : d ≤ p.nTxt)
    (ho : ceilDiv ds.length 2 ≤ p.nOct) (hl : ds.length < d) (hr : readElem txt ds.length = some x)
    (hbad : 9 < x.toNat) : semiEncDig p d txt = .error (.raised .invalidDigits ds.length) :=
  semiEncDig_halt h hx hn ho hl (semiEncDigBody_halt h hx hl (.inr ⟨x, hr, hbad, rfl⟩))

theorem semiEncDig_unwritten {txt : Buffer 32} {ds : List Word} {d : Nat}
    (h : ∀ k < ds.length, readElem txt k = ds[k]?) (hx : ∀ x ∈ ds, x.toNat ≤ 9) (hn : d ≤ p.nTxt)
    (ho : ceilDiv ds.length 2 ≤ p.nOct) (hl : ds.length < d) (hr : readElem txt ds.length = none) :
    semiEncDig p d txt = .error (.unwritten .txt ds.length) :=
  semiEncDig_halt h hx hn ho hl (semiEncDigBody_halt h hx hl (.inl (fetchElem_none hr)))

/-! ## SEMI_DEC_DIG -/

/-- Nibble `k` of the octets in OCT, if its octet has been written. -/
def nibbleOf (oct : Buffer 8) (k : Nat) : Option Nat := (readElem oct (k / 2)).map fun b => digitNibble b k

theorem digitsFrom_step {oct : Buffer 8} {k n d : Nat} {out : List Word} (h : nibbleOf oct k = some d) (hd : d ≤ 9)
    (ho : out.length < p.nTxt) :
    digitsFrom p oct k (n + 1) out = digitsFrom p oct (k + 1) n (out ++ [BitVec.ofNat 32 d]) := by
  obtain ⟨b, hb, rfl⟩ := Option.map_eq_some_iff.mp h
  rw [digitsFrom, fetchElem_some hb]; simp only
  rw [if_neg (by omega), if_neg (by omega), push_ok ho]

theorem digitsFrom_stop {oct : Buffer 8} {k n : Nat} {out : List Word} (h : nibbleOf oct k = some 0xF) :
    digitsFrom p oct k (n + 1) out = .ok out := by
  obtain ⟨b, hb, hf⟩ := Option.map_eq_some_iff.mp h
  rw [digitsFrom, fetchElem_some hb]; simp only; rw [if_pos hf]

theorem digitsFrom_invalid {oct : Buffer 8} {k n d : Nat} {out : List Word} (h : nibbleOf oct k = some d)
    (h1 : 9 < d) (h2 : d ≠ 0xF) : digitsFrom p oct k (n + 1) out = .error (.raised .invalidDigits (k / 2)) := by
  obtain ⟨b, hb, rfl⟩ := Option.map_eq_some_iff.mp h
  rw [digitsFrom, fetchElem_some hb]; simp only; rw [if_neg h2, if_pos h1]; rfl

theorem digitsFrom_unwritten {oct : Buffer 8} {k n : Nat} {out : List Word} (h : nibbleOf oct k = none) :
    digitsFrom p oct k (n + 1) out = .error (.unwritten .oct (k / 2)) := by
  rw [digitsFrom, fetchElem_none (Option.map_eq_none_iff.mp h)]

/-- A prefix of digits is read, and the rest goes on from there. -/
theorem digitsFrom_prefix {oct : Buffer 8} (ds : List Nat) (k n : Nat) (out : List Word)
    (h : ∀ j < ds.length, nibbleOf oct (k + j) = ds[j]?) (hd : ∀ d ∈ ds, d ≤ 9)
    (ho : out.length + ds.length ≤ p.nTxt) :
    digitsFrom p oct k (ds.length + n) out
      = digitsFrom p oct (k + ds.length) n (out ++ ds.map (BitVec.ofNat 32)) := by
  induction ds generalizing k out with
  | nil => simp
  | cons d rest ih =>
    simp only [List.length_cons] at ho ⊢
    have h0 : nibbleOf oct k = some d := by simpa using h 0 (by simp)
    rw [show rest.length + 1 + n = rest.length + n + 1 by omega,
      digitsFrom_step h0 (hd d (by simp)) (by omega),
      ih (k + 1) _ (fun j hj => by
        have := h (j + 1) (by simpa using hj)
        rw [Nat.add_right_comm, Nat.add_assoc]; simpa using this)
        (fun e he => hd e (by simp [he])) (by simp; omega)]
    rw [show k + 1 + rest.length = k + (rest.length + 1) by omega]
    simp

/-! ## The checks before the loops -/

theorem semiEncNum_size {n : Nat} (h : p.nTxt < n) (txt : Buffer 32) :
    semiEncNum p n txt = .error (.raised .incorrectSize 0) := by rw [semiEncNum, if_pos h]; rfl

theorem semiDecNum_size {n : Nat} (h : p.nOct < n) (oct : Buffer 8) :
    semiDecNum p n oct = .error (.raised .incorrectSize 0) := by rw [semiDecNum, if_pos h]; rfl

theorem semiEncDig_size {d : Nat} (h : p.nTxt < d) (txt : Buffer 32) :
    semiEncDig p d txt = .error (.raised .incorrectSize 0) := by rw [semiEncDig, if_pos h]; rfl

theorem semiDecDig_size {m d : Nat} (h : p.nOct < m ∨ p.nTxt < d) (oct : Buffer 8) :
    semiDecDig p m d oct = .error (.raised .incorrectSize 0) := by
  rw [semiDecDig]
  split_ifs
  · rfl
  · rfl
  · omega
  · omega

theorem semiDecDig_truncated {m d : Nat} (h1 : m ≤ p.nOct) (h2 : d ≤ p.nTxt) (h3 : m < ceilDiv d 2) (oct : Buffer 8) :
    semiDecDig p m d oct = .error (.raised .truncated m) := by
  rw [semiDecDig, if_neg (by omega), if_neg (by omega), if_pos h3]; rfl

/-- SEMI_DEC_DIG past its checks is its loop. -/
theorem semiDecDig_loop {m d : Nat} (h1 : m ≤ p.nOct) (h2 : d ≤ p.nTxt) (h3 : ceilDiv d 2 ≤ m) (oct : Buffer 8) :
    semiDecDig p m d oct =
      match digitsFrom p oct 0 d [] with
      | .error h => .error h
      | .ok out => .ok { txt := out, dstLen := out.length, lenf := out.length, consumed := ceilDiv d 2 } := by
  rw [semiDecDig, if_neg (by omega), if_neg (by omega), if_neg (by omega)] <;> rfl

theorem semiDecDig_ok {oct : Buffer 8} {m d : Nat} {ds : List Nat} (h1 : m ≤ p.nOct) (h2 : d ≤ p.nTxt)
    (h3 : ceilDiv d 2 ≤ m) (h : ∀ k < ds.length, nibbleOf oct k = ds[k]?) (hd : ∀ x ∈ ds, x ≤ 9)
    (hl : ds.length = d ∨ (ds.length < d ∧ nibbleOf oct ds.length = some 0xF)) :
    semiDecDig p m d oct = .ok
      { txt := ds.map (BitVec.ofNat 32), dstLen := ds.length, lenf := ds.length, consumed := ceilDiv d 2 } := by
  have hpre (n : Nat) := digitsFrom_prefix (p := p) ds 0 n [] (by simpa using h) hd (by simp; omega)
  simp only [Nat.zero_add, List.nil_append] at hpre
  have hloop : digitsFrom p oct 0 d [] = .ok (ds.map (BitVec.ofNat 32)) := by
    rcases hl with hl | ⟨hl, hf⟩
    · have := hpre 0
      rw [Nat.add_zero, hl] at this
      rw [this]; rfl
    · obtain ⟨n, rfl⟩ : ∃ n, d = ds.length + (n + 1) := ⟨d - ds.length - 1, by omega⟩
      rw [hpre, digitsFrom_stop hf]
  rw [semiDecDig_loop h1 h2 h3, hloop]; simp

theorem semiDecDig_invalid {oct : Buffer 8} {m d x : Nat} {ds : List Nat} (h1 : m ≤ p.nOct) (h2 : d ≤ p.nTxt)
    (h3 : ceilDiv d 2 ≤ m) (h : ∀ k < ds.length, nibbleOf oct k = ds[k]?) (hd : ∀ x ∈ ds, x ≤ 9) (hl : ds.length < d)
    (hx : nibbleOf oct ds.length = some x) (hx1 : 9 < x) (hx2 : x ≠ 0xF) :
    semiDecDig p m d oct = .error (.raised .invalidDigits (ds.length / 2)) := by
  obtain ⟨n, rfl⟩ : ∃ n, d = ds.length + (n + 1) := ⟨d - ds.length - 1, by omega⟩
  have hpre := digitsFrom_prefix (p := p) ds 0 (n + 1) [] (by simpa using h) hd (by simp; omega)
  simp only [Nat.zero_add, List.nil_append] at hpre
  rw [semiDecDig_loop h1 h2 h3, hpre, digitsFrom_invalid hx hx1 hx2]

theorem semiDecDig_unwritten {oct : Buffer 8} {m d : Nat} {ds : List Nat} (h1 : m ≤ p.nOct) (h2 : d ≤ p.nTxt)
    (h3 : ceilDiv d 2 ≤ m) (h : ∀ k < ds.length, nibbleOf oct k = ds[k]?) (hd : ∀ x ∈ ds, x ≤ 9) (hl : ds.length < d)
    (hx : nibbleOf oct ds.length = none) :
    semiDecDig p m d oct = .error (.unwritten .oct (ds.length / 2)) := by
  obtain ⟨n, rfl⟩ : ∃ n, d = ds.length + (n + 1) := ⟨d - ds.length - 1, by omega⟩
  have hpre := digitsFrom_prefix (p := p) ds 0 (n + 1) [] (by simpa using h) hd (by simp; omega)
  simp only [Nat.zero_add, List.nil_append] at hpre
  rw [semiDecDig_loop h1 h2 h3, hpre, digitsFrom_unwritten hx]

/-! ## Time zones -/

theorem semiEncTz_invalid {q : Int} (h : 79 < q.natAbs) : semiEncTz q = .error (.raised .invalidDigits 0) := by
  rw [semiEncTz, if_pos h]; rfl

theorem tzOctet_eq (negative : Bool) {m : Nat} (h : m ≤ 79) :
    tzOctet negative m = m % 10 * 16 + m / 10 + negative.toNat * 8 := by
  have key : ∀ (b : Bool) (m : Fin 80), tzOctet b m.val = m.val % 10 * 16 + m.val / 10 + b.toNat * 8 := by decide
  exact key negative ⟨m, by omega⟩

theorem semiEncTz_ok {q : Int} (h : q.natAbs ≤ 79) :
    semiEncTz q = .ok
      { result := some (BitVec.ofNat 32 (q.natAbs % 10 * 16 + q.natAbs / 10 + (decide (q < 0)).toNat * 8))
        dstLen := 0, lenf := 0, consumed := 0 } := by
  rw [semiEncTz, if_neg (by omega), tzOctet_eq _ h]

theorem semiDecTz_invalid {b : Octet} (h : 9 < b.toNat / 16) : semiDecTz b = .error (.raised .invalidDigits 0) := by
  rw [semiDecTz, highNibble_eq, if_pos h]; rfl

theorem tzMagnitude_eq (b : Octet) : tzMagnitude b = 10 * (b.toNat % 8) + b.toNat / 16 := by
  rw [tzMagnitude, highNibble_eq, BitVec.extractLsb'_toNat]; rfl

/-- The scalar result of SEMI_DEC_TZ. -/
def tzResult (b : Octet) : Word :=
  BitVec.ofNat 32 (if b.getLsbD 3 then (2 ^ 32 - tzMagnitude b) % 2 ^ 32 else tzMagnitude b)

theorem semiDecTz_ok {b : Octet} (h : b.toNat / 16 ≤ 9) :
    semiDecTz b = .ok { result := some (tzResult b), dstLen := 0, lenf := 0, consumed := 0 } := by
  rw [semiDecTz, highNibble_eq, if_neg (by omega)]; rfl

theorem tzResult_toInt (b : Octet) :
    (tzResult b).toInt = if b.toNat / 8 % 2 = 1 then -(10 * (b.toNat % 8) + b.toNat / 16 : Int)
      else (10 * (b.toNat % 8) + b.toNat / 16 : Int) := by
  have key : ∀ b : Octet, (tzResult b).toInt = if b.toNat / 8 % 2 = 1 then -(10 * (b.toNat % 8) + b.toNat / 16 : Int)
      else (10 * (b.toNat % 8) + b.toNat / 16 : Int) := by decide +kernel
  exact key b

end Sys2Proof.Machine
end

