-- ==== Sys2Proof/Laws/State.lean ====
section
/-! SUPPORT. One lemma per field per update of the state, true by unfolding, so that no later proof unfolds a record update. -/

namespace Sys2Proof.Machine

/-! ## commitState -/

@[simp] theorem commitState_ie (c : Commit) (s : State) : (commitState c s).ie = s.ie := rfl
@[simp] theorem commitState_busy (c : Commit) (s : State) : (commitState c s).busy = false := rfl
@[simp] theorem commitState_done (c : Commit) (s : State) : (commitState c s).done = true := rfl
@[simp] theorem commitState_ovr (c : Commit) (s : State) : (commitState c s).ovr = s.ovr := rfl
@[simp] theorem commitState_errCode (c : Commit) (s : State) : (commitState c s).errCode = 0 := rfl
@[simp] theorem commitState_cmd (c : Commit) (s : State) : (commitState c s).cmd = s.cmd := rfl
@[simp] theorem commitState_srcLen (c : Commit) (s : State) : (commitState c s).srcLen = s.srcLen := rfl
@[simp] theorem commitState_aux (c : Commit) (s : State) : (commitState c s).aux = s.aux := rfl
@[simp] theorem commitState_arg (c : Commit) (s : State) : (commitState c s).arg = s.arg := rfl
@[simp] theorem commitState_dstLen (c : Commit) (s : State) : (commitState c s).dstLen = BitVec.ofNat 16 c.dstLen := rfl
@[simp] theorem commitState_lenf (c : Commit) (s : State) : (commitState c s).lenf = BitVec.ofNat 16 c.lenf := rfl
@[simp] theorem commitState_consumed (c : Commit) (s : State) : (commitState c s).consumed = BitVec.ofNat 16 c.consumed := rfl
@[simp] theorem commitState_result (c : Commit) (s : State) : (commitState c s).result = c.result.getD s.result := rfl
@[simp] theorem commitState_mem (c : Commit) (s : State) : (commitState c s).mem = { txt := stage s.mem.txt c.txt, sep := stage s.mem.sep c.sep, oct := stage s.mem.oct c.oct } := rfl
@[simp] theorem commitState_remaining (c : Commit) (s : State) : (commitState c s).remaining = s.remaining := rfl
@[simp] theorem commitState_rst (c : Commit) (s : State) : (commitState c s).rst = s.rst := rfl
@[simp] theorem commitState_program (c : Commit) (s : State) : (commitState c s).program = s.program := rfl
@[simp] theorem commitState_sched (c : Commit) (s : State) : (commitState c s).sched = s.sched := rfl
@[simp] theorem commitState_readData (c : Commit) (s : State) : (commitState c s).readData = s.readData := rfl
@[simp] theorem commitState_draws (c : Commit) (s : State) : (commitState c s).draws = s.draws := rfl

/-! ## errorState -/

@[simp] theorem errorState_ie (e : ErrKind) (pos : Nat) (s : State) : (errorState e pos s).ie = s.ie := rfl
@[simp] theorem errorState_busy (e : ErrKind) (pos : Nat) (s : State) : (errorState e pos s).busy = false := rfl
@[simp] theorem errorState_done (e : ErrKind) (pos : Nat) (s : State) : (errorState e pos s).done = true := rfl
@[simp] theorem errorState_ovr (e : ErrKind) (pos : Nat) (s : State) : (errorState e pos s).ovr = s.ovr := rfl
@[simp] theorem errorState_errCode (e : ErrKind) (pos : Nat) (s : State) : (errorState e pos s).errCode = errCodeOf e := rfl
@[simp] theorem errorState_cmd (e : ErrKind) (pos : Nat) (s : State) : (errorState e pos s).cmd = s.cmd := rfl
@[simp] theorem errorState_srcLen (e : ErrKind) (pos : Nat) (s : State) : (errorState e pos s).srcLen = s.srcLen := rfl
@[simp] theorem errorState_aux (e : ErrKind) (pos : Nat) (s : State) : (errorState e pos s).aux = s.aux := rfl
@[simp] theorem errorState_arg (e : ErrKind) (pos : Nat) (s : State) : (errorState e pos s).arg = s.arg := rfl
@[simp] theorem errorState_dstLen (e : ErrKind) (pos : Nat) (s : State) : (errorState e pos s).dstLen = 0 := rfl
@[simp] theorem errorState_lenf (e : ErrKind) (pos : Nat) (s : State) : (errorState e pos s).lenf = 0 := rfl
@[simp] theorem errorState_consumed (e : ErrKind) (pos : Nat) (s : State) : (errorState e pos s).consumed = BitVec.ofNat 16 pos := rfl
@[simp] theorem errorState_result (e : ErrKind) (pos : Nat) (s : State) : (errorState e pos s).result = s.result := rfl
@[simp] theorem errorState_mem (e : ErrKind) (pos : Nat) (s : State) : (errorState e pos s).mem = s.mem := rfl
@[simp] theorem errorState_remaining (e : ErrKind) (pos : Nat) (s : State) : (errorState e pos s).remaining = s.remaining := rfl
@[simp] theorem errorState_rst (e : ErrKind) (pos : Nat) (s : State) : (errorState e pos s).rst = s.rst := rfl
@[simp] theorem errorState_program (e : ErrKind) (pos : Nat) (s : State) : (errorState e pos s).program = s.program := rfl
@[simp] theorem errorState_sched (e : ErrKind) (pos : Nat) (s : State) : (errorState e pos s).sched = s.sched := rfl
@[simp] theorem errorState_readData (e : ErrKind) (pos : Nat) (s : State) : (errorState e pos s).readData = s.readData := rfl
@[simp] theorem errorState_draws (e : ErrKind) (pos : Nat) (s : State) : (errorState e pos s).draws = s.draws := rfl

/-! ## startStep -/

@[simp] theorem startStep_ie (v : Word) (s : State) : (startStep v s).ie = s.ie := rfl
@[simp] theorem startStep_busy (v : Word) (s : State) : (startStep v s).busy = true := rfl
@[simp] theorem startStep_done (v : Word) (s : State) : (startStep v s).done = false := rfl
@[simp] theorem startStep_ovr (v : Word) (s : State) : (startStep v s).ovr = s.ovr := rfl
@[simp] theorem startStep_errCode (v : Word) (s : State) : (startStep v s).errCode = 0 := rfl
@[simp] theorem startStep_cmd (v : Word) (s : State) : (startStep v s).cmd = v := rfl
@[simp] theorem startStep_srcLen (v : Word) (s : State) : (startStep v s).srcLen = s.srcLen := rfl
@[simp] theorem startStep_aux (v : Word) (s : State) : (startStep v s).aux = s.aux := rfl
@[simp] theorem startStep_arg (v : Word) (s : State) : (startStep v s).arg = s.arg := rfl
@[simp] theorem startStep_dstLen (v : Word) (s : State) : (startStep v s).dstLen = s.dstLen := rfl
@[simp] theorem startStep_lenf (v : Word) (s : State) : (startStep v s).lenf = s.lenf := rfl
@[simp] theorem startStep_consumed (v : Word) (s : State) : (startStep v s).consumed = s.consumed := rfl
@[simp] theorem startStep_result (v : Word) (s : State) : (startStep v s).result = s.result := rfl
@[simp] theorem startStep_mem (v : Word) (s : State) : (startStep v s).mem = s.mem := rfl
@[simp] theorem startStep_remaining (v : Word) (s : State) : (startStep v s).remaining = Config.freeLatency s.draws + 1 := rfl
@[simp] theorem startStep_rst (v : Word) (s : State) : (startStep v s).rst = s.rst := rfl
@[simp] theorem startStep_program (v : Word) (s : State) : (startStep v s).program = s.program := rfl
@[simp] theorem startStep_sched (v : Word) (s : State) : (startStep v s).sched = s.sched := rfl
@[simp] theorem startStep_readData (v : Word) (s : State) : (startStep v s).readData = s.readData := rfl
@[simp] theorem startStep_draws (v : Word) (s : State) : (startStep v s).draws = s.draws + 1 := rfl

/-! ## resetRegisters -/

@[simp] theorem resetRegisters_ie (s : State) : (resetRegisters s).ie = false := rfl
@[simp] theorem resetRegisters_busy (s : State) : (resetRegisters s).busy = false := rfl
@[simp] theorem resetRegisters_done (s : State) : (resetRegisters s).done = false := rfl
@[simp] theorem resetRegisters_ovr (s : State) : (resetRegisters s).ovr = false := rfl
@[simp] theorem resetRegisters_errCode (s : State) : (resetRegisters s).errCode = 0 := rfl
@[simp] theorem resetRegisters_cmd (s : State) : (resetRegisters s).cmd = 0 := rfl
@[simp] theorem resetRegisters_srcLen (s : State) : (resetRegisters s).srcLen = 0 := rfl
@[simp] theorem resetRegisters_aux (s : State) : (resetRegisters s).aux = 0 := rfl
@[simp] theorem resetRegisters_arg (s : State) : (resetRegisters s).arg = 0 := rfl
@[simp] theorem resetRegisters_dstLen (s : State) : (resetRegisters s).dstLen = 0 := rfl
@[simp] theorem resetRegisters_lenf (s : State) : (resetRegisters s).lenf = 0 := rfl
@[simp] theorem resetRegisters_consumed (s : State) : (resetRegisters s).consumed = 0 := rfl
@[simp] theorem resetRegisters_result (s : State) : (resetRegisters s).result = 0 := rfl
@[simp] theorem resetRegisters_mem (s : State) : (resetRegisters s).mem = s.mem := rfl
@[simp] theorem resetRegisters_remaining (s : State) : (resetRegisters s).remaining = 0 := rfl
@[simp] theorem resetRegisters_rst (s : State) : (resetRegisters s).rst = s.rst := rfl
@[simp] theorem resetRegisters_program (s : State) : (resetRegisters s).program = s.program := rfl
@[simp] theorem resetRegisters_sched (s : State) : (resetRegisters s).sched = s.sched := rfl
@[simp] theorem resetRegisters_readData (s : State) : (resetRegisters s).readData = s.readData := rfl
@[simp] theorem resetRegisters_draws (s : State) : (resetRegisters s).draws = s.draws := rfl

/-! ## clearDone -/

@[simp] theorem clearDone_ie (s : State) : (clearDone s).ie = s.ie := rfl
@[simp] theorem clearDone_busy (s : State) : (clearDone s).busy = s.busy := rfl
@[simp] theorem clearDone_done (s : State) : (clearDone s).done = false := rfl
@[simp] theorem clearDone_ovr (s : State) : (clearDone s).ovr = s.ovr := rfl
@[simp] theorem clearDone_errCode (s : State) : (clearDone s).errCode = s.errCode := rfl
@[simp] theorem clearDone_cmd (s : State) : (clearDone s).cmd = s.cmd := rfl
@[simp] theorem clearDone_srcLen (s : State) : (clearDone s).srcLen = s.srcLen := rfl
@[simp] theorem clearDone_aux (s : State) : (clearDone s).aux = s.aux := rfl
@[simp] theorem clearDone_arg (s : State) : (clearDone s).arg = s.arg := rfl
@[simp] theorem clearDone_dstLen (s : State) : (clearDone s).dstLen = s.dstLen := rfl
@[simp] theorem clearDone_lenf (s : State) : (clearDone s).lenf = s.lenf := rfl
@[simp] theorem clearDone_consumed (s : State) : (clearDone s).consumed = s.consumed := rfl
@[simp] theorem clearDone_result (s : State) : (clearDone s).result = s.result := rfl
@[simp] theorem clearDone_mem (s : State) : (clearDone s).mem = s.mem := rfl
@[simp] theorem clearDone_remaining (s : State) : (clearDone s).remaining = s.remaining := rfl
@[simp] theorem clearDone_rst (s : State) : (clearDone s).rst = s.rst := rfl
@[simp] theorem clearDone_program (s : State) : (clearDone s).program = s.program := rfl
@[simp] theorem clearDone_sched (s : State) : (clearDone s).sched = s.sched := rfl
@[simp] theorem clearDone_readData (s : State) : (clearDone s).readData = s.readData := rfl
@[simp] theorem clearDone_draws (s : State) : (clearDone s).draws = s.draws := rfl

/-! ## dropWrite -/

@[simp] theorem dropWrite_ie (s : State) : (dropWrite s).ie = s.ie := rfl
@[simp] theorem dropWrite_busy (s : State) : (dropWrite s).busy = s.busy := rfl
@[simp] theorem dropWrite_done (s : State) : (dropWrite s).done = s.done := rfl
@[simp] theorem dropWrite_ovr (s : State) : (dropWrite s).ovr = true := rfl
@[simp] theorem dropWrite_errCode (s : State) : (dropWrite s).errCode = s.errCode := rfl
@[simp] theorem dropWrite_cmd (s : State) : (dropWrite s).cmd = s.cmd := rfl
@[simp] theorem dropWrite_srcLen (s : State) : (dropWrite s).srcLen = s.srcLen := rfl
@[simp] theorem dropWrite_aux (s : State) : (dropWrite s).aux = s.aux := rfl
@[simp] theorem dropWrite_arg (s : State) : (dropWrite s).arg = s.arg := rfl
@[simp] theorem dropWrite_dstLen (s : State) : (dropWrite s).dstLen = s.dstLen := rfl
@[simp] theorem dropWrite_lenf (s : State) : (dropWrite s).lenf = s.lenf := rfl
@[simp] theorem dropWrite_consumed (s : State) : (dropWrite s).consumed = s.consumed := rfl
@[simp] theorem dropWrite_result (s : State) : (dropWrite s).result = s.result := rfl
@[simp] theorem dropWrite_mem (s : State) : (dropWrite s).mem = s.mem := rfl
@[simp] theorem dropWrite_remaining (s : State) : (dropWrite s).remaining = s.remaining := rfl
@[simp] theorem dropWrite_rst (s : State) : (dropWrite s).rst = s.rst := rfl
@[simp] theorem dropWrite_program (s : State) : (dropWrite s).program = s.program := rfl
@[simp] theorem dropWrite_sched (s : State) : (dropWrite s).sched = s.sched := rfl
@[simp] theorem dropWrite_readData (s : State) : (dropWrite s).readData = s.readData := rfl
@[simp] theorem dropWrite_draws (s : State) : (dropWrite s).draws = s.draws := rfl

/-! ## afterDraw -/

@[simp] theorem afterDraw_ie (s : State) : (afterDraw s).ie = s.ie := rfl
@[simp] theorem afterDraw_busy (s : State) : (afterDraw s).busy = s.busy := rfl
@[simp] theorem afterDraw_done (s : State) : (afterDraw s).done = s.done := rfl
@[simp] theorem afterDraw_ovr (s : State) : (afterDraw s).ovr = s.ovr := rfl
@[simp] theorem afterDraw_errCode (s : State) : (afterDraw s).errCode = s.errCode := rfl
@[simp] theorem afterDraw_cmd (s : State) : (afterDraw s).cmd = s.cmd := rfl
@[simp] theorem afterDraw_srcLen (s : State) : (afterDraw s).srcLen = s.srcLen := rfl
@[simp] theorem afterDraw_aux (s : State) : (afterDraw s).aux = s.aux := rfl
@[simp] theorem afterDraw_arg (s : State) : (afterDraw s).arg = s.arg := rfl
@[simp] theorem afterDraw_dstLen (s : State) : (afterDraw s).dstLen = s.dstLen := rfl
@[simp] theorem afterDraw_lenf (s : State) : (afterDraw s).lenf = s.lenf := rfl
@[simp] theorem afterDraw_consumed (s : State) : (afterDraw s).consumed = s.consumed := rfl
@[simp] theorem afterDraw_result (s : State) : (afterDraw s).result = s.result := rfl
@[simp] theorem afterDraw_mem (s : State) : (afterDraw s).mem = s.mem := rfl
@[simp] theorem afterDraw_remaining (s : State) : (afterDraw s).remaining = s.remaining := rfl
@[simp] theorem afterDraw_rst (s : State) : (afterDraw s).rst = s.rst := rfl
@[simp] theorem afterDraw_program (s : State) : (afterDraw s).program = s.program := rfl
@[simp] theorem afterDraw_sched (s : State) : (afterDraw s).sched = s.sched := rfl
@[simp] theorem afterDraw_readData (s : State) : (afterDraw s).readData = s.readData := rfl
@[simp] theorem afterDraw_draws (s : State) : (afterDraw s).draws = s.draws + 1 := rfl

/-! ## forgetBuffers -/

@[simp] theorem forgetBuffers_ie (s : State) : (forgetBuffers s).ie = s.ie := rfl
@[simp] theorem forgetBuffers_busy (s : State) : (forgetBuffers s).busy = s.busy := rfl
@[simp] theorem forgetBuffers_done (s : State) : (forgetBuffers s).done = s.done := rfl
@[simp] theorem forgetBuffers_ovr (s : State) : (forgetBuffers s).ovr = s.ovr := rfl
@[simp] theorem forgetBuffers_errCode (s : State) : (forgetBuffers s).errCode = s.errCode := rfl
@[simp] theorem forgetBuffers_cmd (s : State) : (forgetBuffers s).cmd = s.cmd := rfl
@[simp] theorem forgetBuffers_srcLen (s : State) : (forgetBuffers s).srcLen = s.srcLen := rfl
@[simp] theorem forgetBuffers_aux (s : State) : (forgetBuffers s).aux = s.aux := rfl
@[simp] theorem forgetBuffers_arg (s : State) : (forgetBuffers s).arg = s.arg := rfl
@[simp] theorem forgetBuffers_dstLen (s : State) : (forgetBuffers s).dstLen = s.dstLen := rfl
@[simp] theorem forgetBuffers_lenf (s : State) : (forgetBuffers s).lenf = s.lenf := rfl
@[simp] theorem forgetBuffers_consumed (s : State) : (forgetBuffers s).consumed = s.consumed := rfl
@[simp] theorem forgetBuffers_result (s : State) : (forgetBuffers s).result = s.result := rfl
@[simp] theorem forgetBuffers_mem (s : State) : (forgetBuffers s).mem = { txt := [], sep := [], oct := [] } := rfl
@[simp] theorem forgetBuffers_remaining (s : State) : (forgetBuffers s).remaining = s.remaining := rfl
@[simp] theorem forgetBuffers_rst (s : State) : (forgetBuffers s).rst = s.rst := rfl
@[simp] theorem forgetBuffers_program (s : State) : (forgetBuffers s).program = s.program := rfl
@[simp] theorem forgetBuffers_sched (s : State) : (forgetBuffers s).sched = s.sched := rfl
@[simp] theorem forgetBuffers_readData (s : State) : (forgetBuffers s).readData = s.readData := rfl
@[simp] theorem forgetBuffers_draws (s : State) : (forgetBuffers s).draws = s.draws := rfl

end Sys2Proof.Machine
end

