-- ==== Sys2Proof/Laws/Ucs2.lean ====
section
/-! SUPPORT. One spec lemma per UCS-2 stage, for every build's parameters: code units and their octets, encoding,
decoding, and how each can stop. -/

namespace Sys2Proof.Machine

variable {p : Params}

/-! ## Code units -/

theorem codeUnit_eq (hi lo : Octet) : codeUnit hi lo = 256 * hi.toNat + lo.toNat := by
  have h : (hi.toNat <<< 8) ||| lo.toNat = hi.toNat <<< 8 + lo.toNat :=
    (Nat.shiftLeft_add_eq_or_of_lt (by simpa using lo.isLt) hi.toNat).symm
  rw [codeUnit, h, Nat.shiftLeft_eq]; omega

theorem unitHigh_eq (u : Nat) : unitHigh u = BitVec.ofNat 8 (u / 256) := by
  rw [unitHigh, Nat.shiftRight_eq_div_pow]

theorem unitLow_eq (u : Nat) : unitLow u = BitVec.ofNat 8 (u % 256) := by
  rw [unitLow]; apply BitVec.eq_of_toNat_eq; simp

theorem codeUnit_split {u : Nat} (h : u < 65536) : codeUnit (unitHigh u) (unitLow u) = u := by
  rw [codeUnit_eq, unitHigh_eq, unitLow_eq]; simp; omega

theorem and_low_ten_bits (n : Nat) : n &&& 1023 = n % 1024 := Nat.and_two_pow_sub_one_eq_mod n 10

/-- The surrogate pair of a code point above 0xFFFF, as sums (43_ucs2.md R191). -/
theorem codeUnits_pair {c : Nat} (h1 : 0xFFFF < c) (h2 : c ≤ 0x10FFFF) :
    codeUnits c = [0xD800 + (c - 0x10000) / 1024, 0xDC00 + (c - 0x10000) % 1024] := by
  have ha : (c - 0x10000) / 1024 < 2 ^ 10 := by omega
  have hb : (c - 0x10000) % 1024 < 2 ^ 10 := by omega
  have hhi : 54 <<< 10 + (c - 0x10000) / 1024 = 54 <<< 10 ||| (c - 0x10000) / 1024 :=
    Nat.shiftLeft_add_eq_or_of_lt ha 54
  have hlo : 55 <<< 10 + (c - 0x10000) % 1024 = 55 <<< 10 ||| (c - 0x10000) % 1024 :=
    Nat.shiftLeft_add_eq_or_of_lt hb 55
  rw [codeUnits, if_neg (by omega), Nat.shiftRight_eq_div_pow, and_low_ten_bits]
  simp only [Nat.reduceShiftLeft, Nat.reducePow] at hhi hlo ⊢
  rw [← hhi, ← hlo]

theorem codeUnits_single {c : Nat} (h : c ≤ 0xFFFF) : codeUnits c = [c] := by rw [codeUnits, if_pos h]

theorem pairCodePoint_eq (hi lo : Nat) : pairCodePoint hi lo = 0x10000 + (hi - 0xD800) * 1024 + (lo - 0xDC00) := by
  have h := Nat.shiftLeft_eq (hi - 0xD800) 10
  simp only [Nat.reducePow] at h
  unfold pairCodePoint
  simp only [h]

/-! ## Encoding -/

/-- The octets of code units, high octet first. -/
def octetsOfUnits (us : List Nat) : List Octet := us.flatMap fun u => [unitHigh u, unitLow u]

/-- The octets of a code point. -/
def octetsOf (c : CodePoint) : List Octet := octetsOfUnits (codeUnits c.toNat)

theorem pushUnits_ok (cap pos : Nat) (us : List Nat) (out : List Octet)
    (h : out.length + (octetsOfUnits us).length ≤ cap) : pushUnits cap pos us out = .ok (out ++ octetsOfUnits us) := by
  induction us generalizing out with
  | nil => simp [pushUnits, octetsOfUnits]
  | cons u rest ih =>
    have hl : (octetsOfUnits (u :: rest)).length = 2 + (octetsOfUnits rest).length := by
      simp [octetsOfUnits]; omega
    rw [hl] at h
    rw [pushUnits, push_ok (by omega)]; simp only
    rw [push_ok (by simp; omega)]; simp only
    rw [ih _ (by simp; omega)]
    simp [octetsOfUnits]

theorem pushUnits_full (cap pos : Nat) (us : List Nat) (out : List Octet) (h1 : out.length ≤ cap)
    (h2 : cap < out.length + (octetsOfUnits us).length) :
    pushUnits cap pos us out = .error (.raised .incorrectSize pos) := by
  induction us generalizing out with
  | nil => simp [octetsOfUnits] at h2; omega
  | cons u rest ih =>
    have hl : (octetsOfUnits (u :: rest)).length = 2 + (octetsOfUnits rest).length := by
      simp [octetsOfUnits]; omega
    rw [hl] at h2
    rw [pushUnits]
    rcases push_cases out (unitHigh u) cap pos with ⟨hc, he⟩ | ⟨-, he⟩
    · rw [he]; simp only
      rcases push_cases (out ++ [unitHigh u]) (unitLow u) cap pos with ⟨hc', he'⟩ | ⟨-, he'⟩
      · rw [he']; simp only
        exact ih _ (by simp at hc' ⊢; omega) (by simp at hc' ⊢; omega)
      · rw [he']
    · rw [he]

theorem pushUnits_cases (cap pos : Nat) (us : List Nat) (out : List Octet) (h : out.length ≤ cap) :
    (out.length + (octetsOfUnits us).length ≤ cap ∧ pushUnits cap pos us out = .ok (out ++ octetsOfUnits us))
      ∨ pushUnits cap pos us out = .error (.raised .incorrectSize pos) := by
  rcases Nat.lt_or_ge cap (out.length + (octetsOfUnits us).length) with h2 | h2
  · exact .inr (pushUnits_full cap pos us out h h2)
  · exact .inl ⟨h2, pushUnits_ok cap pos us out h2⟩

/-- A code point UTF-16 cannot encode (R192). -/
abbrev notUtf16 (c : CodePoint) : Prop := isSurrogate c.toNat = true ∨ 0x10FFFF < c.toNat

theorem ucs2Enc_steps {txt : Buffer 32} {cs : List CodePoint} (h : ∀ k < cs.length, readElem txt k = cs[k]?)
    (he : ∀ c ∈ cs, ¬notUtf16 c) (hl : (cs.flatMap octetsOf).length ≤ p.nOct) (k : Nat) (hk : k < cs.length) :
    ucs2EncBody p txt k ((cs.take k).flatMap octetsOf) = .ok ((cs.take k).flatMap octetsOf ++ octetsOf cs[k]) := by
  have hr : readElem txt k = some cs[k] := by rw [h k hk, List.getElem?_eq_getElem hk]
  have := flatMap_take_length octetsOf cs k hk
  rw [ucs2EncBody, fetchElem_some hr]; simp only
  rw [if_neg (he _ (List.getElem_mem hk))]
  exact pushUnits_ok _ _ _ _ (Nat.le_trans this hl)

theorem ucs2Enc_ok {txt : Buffer 32} {cs : List CodePoint} (h : ∀ k < cs.length, readElem txt k = cs[k]?)
    (he : ∀ c ∈ cs, ¬notUtf16 c) (hn : cs.length ≤ p.nTxt) (hl : (cs.flatMap octetsOf).length ≤ p.nOct) :
    ucs2Enc p cs.length txt = .ok
      { oct := cs.flatMap octetsOf, dstLen := (cs.flatMap octetsOf).length
        lenf := (cs.flatMap octetsOf).length, consumed := cs.length } := by
  rw [ucs2Enc, if_neg (by omega), forFrom_flatMap octetsOf cs (ucs2Enc_steps h he hl)]

theorem ucs2Enc_halt {txt : Buffer 32} {cs : List CodePoint} {n : Nat} {e : Halt} (hl' : cs.length < n)
    (h : ∀ k < cs.length, readElem txt k = cs[k]?) (he : ∀ c ∈ cs, ¬notUtf16 c) (hn : n ≤ p.nTxt)
    (hl : (cs.flatMap octetsOf).length ≤ p.nOct)
    (hb : ucs2EncBody p txt cs.length (cs.flatMap octetsOf) = .error e) : ucs2Enc p n txt = .error e := by
  rw [ucs2Enc, if_neg (by omega), forFrom_flatMap_error octetsOf cs hl' (ucs2Enc_steps h he hl) hb]

theorem ucs2EncBody_unwritten {txt : Buffer 32} {i : Nat} (h : readElem txt i = none) (out : List Octet) :
    ucs2EncBody p txt i out = .error (.unwritten .txt i) := by
  rw [ucs2EncBody, fetchElem_none h]

theorem ucs2EncBody_unmappable {txt : Buffer 32} {i : Nat} {c : CodePoint} (h : readElem txt i = some c)
    (hc : notUtf16 c) (out : List Octet) : ucs2EncBody p txt i out = .error (.raised .unmappableChar i) := by
  rw [ucs2EncBody, fetchElem_some h]; simp only; rw [if_pos hc]; rfl

theorem ucs2EncBody_full {txt : Buffer 32} {i : Nat} {c : CodePoint} (h : readElem txt i = some c)
    (hc : ¬notUtf16 c) {out : List Octet} (h1 : out.length ≤ p.nOct)
    (h2 : p.nOct < out.length + (octetsOf c).length) :
    ucs2EncBody p txt i out = .error (.raised .incorrectSize i) := by
  rw [ucs2EncBody, fetchElem_some h]; simp only; rw [if_neg hc]; exact pushUnits_full _ _ _ _ h1 h2

/-! ## Decoding -/

/-- How UTF-16 big-endian octets read as text (R191, R193). -/
inductive Utf16 : List Octet → List CodePoint → Prop where
  | nil : Utf16 [] []
  | unit {a b : Octet} {os : List Octet} {cs : List CodePoint} :
      isHighSurrogate (codeUnit a b) = false → isLowSurrogate (codeUnit a b) = false → Utf16 os cs →
      Utf16 (a :: b :: os) (BitVec.ofNat 32 (codeUnit a b) :: cs)
  | pair {a b c d : Octet} {os : List Octet} {cs : List CodePoint} :
      isHighSurrogate (codeUnit a b) = true → isLowSurrogate (codeUnit c d) = true → Utf16 os cs →
      Utf16 (a :: b :: c :: d :: os) (BitVec.ofNat 32 (pairCodePoint (codeUnit a b) (codeUnit c d)) :: cs)

theorem Utf16.length_le {os : List Octet} {cs : List CodePoint} (h : Utf16 os cs) : 2 * cs.length ≤ os.length := by
  induction h with
  | nil => simp
  | unit _ _ _ ih => simp; omega
  | pair _ _ _ ih => simp; omega

theorem Utf16.length_even {os : List Octet} {cs : List CodePoint} (h : Utf16 os cs) : os.length % 2 = 0 := by
  induction h with
  | nil => simp
  | unit _ _ _ ih => simp; omega
  | pair _ _ _ ih => simp; omega

theorem Utf16.append {os os' : List Octet} {cs cs' : List CodePoint} (h : Utf16 os cs) (h' : Utf16 os' cs') :
    Utf16 (os ++ os') (cs ++ cs') := by
  induction h with
  | nil => exact h'
  | unit h1 h2 _ ih => exact .unit h1 h2 ih
  | pair h1 h2 _ ih => exact .pair h1 h2 ih

theorem fetchUnit_ok {oct : Buffer 8} {k : Nat} {a b : Octet} (ha : readElem oct (2 * k) = some a)
    (hb : readElem oct (2 * k + 1) = some b) : fetchUnit oct k = .ok (codeUnit a b) := by
  rw [fetchUnit, fetchElem_some ha]; simp only; rw [fetchElem_some hb]

theorem fetchUnit_high_unwritten {oct : Buffer 8} {k : Nat} (ha : readElem oct (2 * k) = none) :
    fetchUnit oct k = .error (.unwritten .oct (2 * k)) := by
  rw [fetchUnit, fetchElem_none ha]

theorem fetchUnit_low_unwritten {oct : Buffer 8} {k : Nat} {a : Octet} (ha : readElem oct (2 * k) = some a)
    (hb : readElem oct (2 * k + 1) = none) : fetchUnit oct k = .error (.unwritten .oct (2 * k + 1)) := by
  rw [fetchUnit, fetchElem_some ha]; simp only; rw [fetchElem_none hb]

/-- Reading a code unit answers it or names the first unwritten octet. -/
theorem fetchUnit_cases (oct : Buffer 8) (k : Nat) :
    (∃ u, fetchUnit oct k = .ok u)
      ∨ ∃ j, (j = 2 * k ∨ j = 2 * k + 1) ∧ readElem oct j = none ∧ fetchUnit oct k = .error (.unwritten .oct j) := by
  cases ha : readElem oct (2 * k) with
  | none => exact .inr ⟨_, .inl rfl, ha, fetchUnit_high_unwritten ha⟩
  | some a =>
    cases hb : readElem oct (2 * k + 1) with
    | none => exact .inr ⟨_, .inr rfl, hb, fetchUnit_low_unwritten ha hb⟩
    | some b => exact .inl ⟨_, fetchUnit_ok ha hb⟩

theorem not_low_of_high {u : Nat} (h : isHighSurrogate u = true) : isLowSurrogate u = false := by
  simp [isHighSurrogate, isLowSurrogate] at h ⊢; omega

variable {oct : Buffer 8} {n k u v : Nat} {out : List CodePoint}

theorem ucs2DecFrom_halt {e : Halt} (h : fetchUnit oct k = .error e) :
    ucs2DecFrom p oct (n + 1) k out = .error e := by
  rw [ucs2DecFrom.eq_def]; simp only [h]

theorem ucs2DecFrom_unit (h : fetchUnit oct k = .ok u) (h1 : isHighSurrogate u = false)
    (h2 : isLowSurrogate u = false) (ho : out.length < p.nTxt) :
    ucs2DecFrom p oct (n + 1) k out = ucs2DecFrom p oct n (k + 1) (out ++ [BitVec.ofNat 32 u]) := by
  rw [ucs2DecFrom.eq_def]; simp only [h, h1, h2, Bool.false_eq_true, if_false, push_ok ho]

theorem ucs2DecFrom_low (h : fetchUnit oct k = .ok u) (h2 : isLowSurrogate u = true) :
    ucs2DecFrom p oct (n + 1) k out = .error (.raised .unmappableChar (2 * k)) := by
  have h1 : isHighSurrogate u = false := by
    cases hc : isHighSurrogate u
    · rfl
    · rw [not_low_of_high hc] at h2; cases h2
  rw [ucs2DecFrom.eq_def]; simp only [h, h1, h2, Bool.false_eq_true, if_false, if_true, raise]

theorem ucs2DecFrom_high_last (h : fetchUnit oct k = .ok u) (h1 : isHighSurrogate u = true) :
    ucs2DecFrom p oct 1 k out = .error (.raised .unmappableChar (2 * k)) := by
  rw [ucs2DecFrom.eq_def]; simp only [h, h1, if_true, raise]

theorem ucs2DecFrom_high_halt {e : Halt} (h : fetchUnit oct k = .ok u) (h1 : isHighSurrogate u = true)
    (h' : fetchUnit oct (k + 1) = .error e) : ucs2DecFrom p oct (n + 2) k out = .error e := by
  rw [ucs2DecFrom.eq_def]; simp only [h, h1, if_true, h']

theorem ucs2DecFrom_high_alone (h : fetchUnit oct k = .ok u) (h1 : isHighSurrogate u = true)
    (h' : fetchUnit oct (k + 1) = .ok v) (h2 : isLowSurrogate v = false) :
    ucs2DecFrom p oct (n + 2) k out = .error (.raised .unmappableChar (2 * k)) := by
  rw [ucs2DecFrom.eq_def]; simp only [h, h1, if_true, h', h2, Bool.false_eq_true, if_false, raise]

theorem ucs2DecFrom_pair (h : fetchUnit oct k = .ok u) (h1 : isHighSurrogate u = true)
    (h' : fetchUnit oct (k + 1) = .ok v) (h2 : isLowSurrogate v = true) (ho : out.length < p.nTxt) :
    ucs2DecFrom p oct (n + 2) k out
      = ucs2DecFrom p oct n (k + 2) (out ++ [BitVec.ofNat 32 (pairCodePoint u v)]) := by
  rw [ucs2DecFrom.eq_def]; simp only [h, h1, if_true, h', h2, push_ok ho]

/-- A well-formed prefix is decoded, and the rest goes on from there. -/
theorem ucs2DecFrom_prefix {os : List Octet} {cs : List CodePoint} (h : Utf16 os cs) (n k : Nat)
    (out : List CodePoint) (hr : ∀ j (hj : j < os.length), readElem oct (2 * k + j) = some os[j])
    (ho : out.length + cs.length ≤ p.nTxt) :
    ucs2DecFrom p oct (os.length / 2 + n) k out = ucs2DecFrom p oct n (k + os.length / 2) (out ++ cs) := by
  induction h generalizing k out with
  | nil => simp
  | @unit a b os cs h1 h2 _ ih =>
    simp only [List.length_cons] at ho ⊢
    have ha : readElem oct (2 * k) = some a := hr 0 (by simp)
    have hb : readElem oct (2 * k + 1) = some b := hr 1 (by simp)
    rw [show (os.length + 1 + 1) / 2 + n = os.length / 2 + n + 1 by omega,
      ucs2DecFrom_unit (fetchUnit_ok ha hb) h1 h2 (by omega),
      ih (k + 1) _ (fun j hj => by
        have := hr (j + 2) (by simpa using hj)
        rw [show 2 * (k + 1) + j = 2 * k + (j + 2) by omega]; simpa using this) (by simp; omega),
      show k + 1 + os.length / 2 = k + (os.length + 1 + 1) / 2 by omega]
    simp
  | @pair a b c d os cs h1 h2 _ ih =>
    simp only [List.length_cons] at ho ⊢
    have ha : readElem oct (2 * k) = some a := hr 0 (by simp)
    have hb : readElem oct (2 * k + 1) = some b := hr 1 (by simp)
    have hc : readElem oct (2 * (k + 1)) = some c := hr 2 (by simp)
    have hd : readElem oct (2 * (k + 1) + 1) = some d := hr 3 (by simp)
    rw [show (os.length + 1 + 1 + 1 + 1) / 2 + n = os.length / 2 + n + 2 by omega,
      ucs2DecFrom_pair (fetchUnit_ok ha hb) h1 (fetchUnit_ok hc hd) h2 (by omega),
      ih (k + 2) _ (fun j hj => by
        have := hr (j + 4) (by simpa using hj)
        rw [show 2 * (k + 2) + j = 2 * k + (j + 4) by omega]; simpa using this) (by simp; omega),
      show k + 2 + os.length / 2 = k + (os.length + 1 + 1 + 1 + 1) / 2 by omega]
    simp

/-- What UCS2_DEC's loop can do: it answers a text within N_TXT, raises an error at the octet position of some code
unit, or meets an unwritten octet. -/
theorem ucs2DecFrom_cases (p : Params) (oct : Buffer 8) (n k : Nat) (out : List CodePoint) (ho : out.length ≤ p.nTxt) :
    (∃ cs, cs.length ≤ p.nTxt ∧ ucs2DecFrom p oct n k out = .ok cs)
      ∨ (∃ e j, e ≠ .illegalCommand ∧ j < 2 * (k + n) ∧ ucs2DecFrom p oct n k out = .error (.raised e j))
      ∨ (∃ j, j < 2 * (k + n) ∧ readElem oct j = none ∧ ucs2DecFrom p oct n k out = .error (.unwritten .oct j)) := by
  induction n using Nat.strong_induction_on generalizing k out with
  | _ n ih =>
    cases n with
    | zero => exact .inl ⟨out, ho, rfl⟩
    | succ n =>
      rcases fetchUnit_cases oct k with ⟨u, h⟩ | ⟨j, hj, hn, h⟩
      · cases h1 : isHighSurrogate u with
        | true =>
          cases n with
          | zero => exact .inr (.inl ⟨.unmappableChar, 2 * k, by decide, by omega, ucs2DecFrom_high_last h h1⟩)
          | succ n =>
            rcases fetchUnit_cases oct (k + 1) with ⟨v, h'⟩ | ⟨j, hj, hn, h'⟩
            · cases h2 : isLowSurrogate v with
              | false =>
                exact .inr (.inl ⟨.unmappableChar, 2 * k, by decide, by omega, ucs2DecFrom_high_alone h h1 h' h2⟩)
              | true =>
                rcases Nat.lt_or_ge out.length p.nTxt with hl | hl
                · rw [ucs2DecFrom_pair h h1 h' h2 hl]
                  rcases ih n (by omega) (k + 2) (out ++ [BitVec.ofNat 32 (pairCodePoint u v)]) (by simp; omega) with
                    h3 | ⟨e, j, h3, h4, h5⟩ | ⟨j, h3, h4, h5⟩
                  · exact .inl h3
                  · exact .inr (.inl ⟨e, j, h3, by omega, h5⟩)
                  · exact .inr (.inr ⟨j, by omega, h4, h5⟩)
                · refine .inr (.inl ⟨.incorrectSize, 2 * k, by decide, by omega, ?_⟩)
                  rw [ucs2DecFrom.eq_def]; simp only [h, h1, if_true, h', h2, push_full hl]
            · exact .inr (.inr ⟨j, by omega, hn, ucs2DecFrom_high_halt h h1 h'⟩)
        | false =>
          cases h2 : isLowSurrogate u with
          | true => exact .inr (.inl ⟨.unmappableChar, 2 * k, by decide, by omega, ucs2DecFrom_low h h2⟩)
          | false =>
            rcases Nat.lt_or_ge out.length p.nTxt with hl | hl
            · rw [ucs2DecFrom_unit h h1 h2 hl]
              rcases ih n (by omega) (k + 1) (out ++ [BitVec.ofNat 32 u]) (by simp; omega) with
                h3 | ⟨e, j, h3, h4, h5⟩ | ⟨j, h3, h4, h5⟩
              · exact .inl h3
              · exact .inr (.inl ⟨e, j, h3, by omega, h5⟩)
              · exact .inr (.inr ⟨j, by omega, h4, h5⟩)
            · refine .inr (.inl ⟨.incorrectSize, 2 * k, by decide, by omega, ?_⟩)
              rw [ucs2DecFrom.eq_def]; simp only [h, h1, h2, Bool.false_eq_true, if_false, push_full hl]
      · exact .inr (.inr ⟨j, by omega, hn, ucs2DecFrom_halt h⟩)

/-- The octets of an encodable code point read back as it (R194). -/
theorem utf16_octetsOf {c : CodePoint} (h : ¬notUtf16 c) : Utf16 (octetsOf c) [c] := by
  simp only [notUtf16, isSurrogate, not_or, Bool.and_eq_true, decide_eq_true_eq] at h
  obtain ⟨hs, hm⟩ := h
  have hc : BitVec.ofNat 32 c.toNat = c := by simp
  rcases Nat.lt_or_ge 0xFFFF c.toNat with hlt | hle
  · rw [octetsOf, codeUnits_pair hlt (by omega)]
    have h1 : codeUnit (unitHigh (0xD800 + (c.toNat - 0x10000) / 1024)) (unitLow (0xD800 + (c.toNat - 0x10000) / 1024))
        = 0xD800 + (c.toNat - 0x10000) / 1024 := codeUnit_split (by omega)
    have h2 : codeUnit (unitHigh (0xDC00 + (c.toNat - 0x10000) % 1024)) (unitLow (0xDC00 + (c.toNat - 0x10000) % 1024))
        = 0xDC00 + (c.toNat - 0x10000) % 1024 := codeUnit_split (by omega)
    have hp : pairCodePoint (0xD800 + (c.toNat - 0x10000) / 1024) (0xDC00 + (c.toNat - 0x10000) % 1024) = c.toNat := by
      rw [pairCodePoint_eq]; omega
    have := Utf16.pair (a := unitHigh (0xD800 + (c.toNat - 0x10000) / 1024))
      (b := unitLow (0xD800 + (c.toNat - 0x10000) / 1024))
      (c := unitHigh (0xDC00 + (c.toNat - 0x10000) % 1024))
      (d := unitLow (0xDC00 + (c.toNat - 0x10000) % 1024))
      (by rw [h1]; simp [isHighSurrogate]; omega) (by rw [h2]; simp [isLowSurrogate]; omega) Utf16.nil
    rw [h1, h2, hp, hc] at this
    exact this
  · rw [octetsOf, codeUnits_single (by omega)]
    have h1 : codeUnit (unitHigh c.toNat) (unitLow c.toNat) = c.toNat := codeUnit_split (by omega)
    have := Utf16.unit (a := unitHigh c.toNat) (b := unitLow c.toNat)
      (by rw [h1]; simp [isHighSurrogate]; omega) (by rw [h1]; simp [isLowSurrogate]; omega) Utf16.nil
    rw [h1, hc] at this
    exact this

theorem utf16_flatMap {cs : List CodePoint} (h : ∀ c ∈ cs, ¬notUtf16 c) : Utf16 (cs.flatMap octetsOf) cs := by
  induction cs with
  | nil => exact .nil
  | cons c rest ih =>
    rw [List.flatMap_cons]
    exact (utf16_octetsOf (h c (by simp))).append (ih fun d hd => h d (by simp [hd]))

/-! ## The commands -/

theorem ucs2Enc_size {n : Nat} (h : p.nTxt < n) (txt : Buffer 32) :
    ucs2Enc p n txt = .error (.raised .incorrectSize 0) := by rw [ucs2Enc, if_pos h]; rfl

theorem ucs2Dec_size {m : Nat} (h : p.nOct < m ∨ m % 2 = 1) (oct : Buffer 8) :
    ucs2Dec p m oct = .error (.raised .incorrectSize 0) := by
  rw [ucs2Dec]
  split_ifs
  · rfl
  · rfl
  · omega

theorem read_prefix {oct : Buffer 8} {os : List Octet} (h : ∀ k < os.length, readElem oct k = os[k]?) :
    ∀ j (hj : j < os.length), readElem oct (2 * 0 + j) = some os[j] := fun j hj => by
  rw [show 2 * 0 + j = j by omega, h j hj, List.getElem?_eq_getElem hj]

theorem ucs2Dec_ok {oct : Buffer 8} {os : List Octet} {cs : List CodePoint} (hn : os.length ≤ p.nOct)
    (h : ∀ k < os.length, readElem oct k = os[k]?) (hu : Utf16 os cs) (ho : cs.length ≤ p.nTxt) :
    ucs2Dec p os.length oct = .ok { txt := cs, dstLen := cs.length, lenf := os.length, consumed := os.length } := by
  have := ucs2DecFrom_prefix hu 0 0 [] (read_prefix h) (by simpa using ho)
  simp only [Nat.add_zero, List.nil_append] at this
  rw [ucs2Dec, if_neg (by omega), if_neg (by have := hu.length_even; omega), this]; rfl

/-- A halt after a well-formed prefix. -/
theorem ucs2Dec_halt {oct : Buffer 8} {os : List Octet} {cs : List CodePoint} {m : Nat} {e : Halt} (hn : m ≤ p.nOct)
    (hm : m % 2 = 0) (h : ∀ k < os.length, readElem oct k = os[k]?) (hu : Utf16 os cs) (ho : cs.length ≤ p.nTxt)
    (hl : os.length ≤ m)
    (he : ucs2DecFrom p oct (m / 2 - os.length / 2) (os.length / 2) cs = .error e) : ucs2Dec p m oct = .error e := by
  have := ucs2DecFrom_prefix hu (m / 2 - os.length / 2) 0 [] (read_prefix h) (by simpa using ho)
  rw [show os.length / 2 + (m / 2 - os.length / 2) = m / 2 by omega, Nat.zero_add, List.nil_append, he] at this
  rw [ucs2Dec, if_neg (by omega), if_neg (by omega), this]

end Sys2Proof.Machine
end

