-- ==== Sys2Proof/Laws/Exec.lean ====
section
/-! SUPPORT. What any command can do, said once for all sixteen: it commits lists that fit its destinations, it raises an
error other than IllegalCommand, or it meets an unwritten element of its source. -/

namespace Sys2Proof.Machine

/-- A command's pseudocode on a state's operands and source. -/
def kernel (p : Params) (i : Instr) (s : State) : Except Halt Commit :=
  match i with
  | .nop => .ok { dstLen := 0, lenf := 0, consumed := 0 }
  | .semiEncNum => semiEncNum p (srcLenOf s) s.mem.txt
  | .semiDecNum => semiDecNum p (srcLenOf s) s.mem.oct
  | .semiEncDig => semiEncDig p (srcLenOf s) s.mem.txt
  | .semiDecDig => semiDecDig p (srcLenOf s) (auxOf s) s.mem.oct
  | .semiEncTz => semiEncTz s.arg.toInt
  | .semiDecTz => semiDecTz (s.arg.extractLsb' 0 8)
  | .g7Map => g7Map p (srcLenOf s) s.mem.txt
  | .g7Unmap => g7Unmap p (srcLenOf s) s.mem.sep
  | .septPack => septPack p (srcLenOf s) s.mem.sep
  | .septUnpack => septUnpack p (srcLenOf s) (auxOf s) s.mem.oct
  | .g7Encode => g7Encode p (srcLenOf s) s.mem.txt
  | .g7Decode => g7Decode p (srcLenOf s) (auxOf s) s.mem.oct
  | .ussdPack => ussdPack p (srcLenOf s) s.mem.txt
  | .ucs2Enc => ucs2Enc p (srcLenOf s) s.mem.txt
  | .ucs2Dec => ucs2Dec p (srcLenOf s) s.mem.oct

/-- Every arm of exec completes the command with what its pseudocode answers. -/
theorem exec_eq (i : Instr) (s : State) : exec i s = completeCommand (kernel defaultParams i s) s := by
  cases i <;> rfl

theorem completeCommand_ok (c : Commit) (s : State) : completeCommand (.ok c) s = .next (commitState c s) := rfl

theorem completeCommand_raised (e : ErrKind) (pos : Nat) (s : State) :
    completeCommand (.error (.raised e pos)) s = .next (errorState e pos s) := rfl

theorem completeCommand_unwritten (b : Buf) (k : Nat) (s : State) :
    completeCommand (.error (.unwritten b k)) s = .fault (.unwrittenElement b k) := rfl

/-- A commit stores lists only in its command's destinations, as long as its lengths say, within the capacities; only
the time-zone commands have a scalar result. -/
structure Fits (i : Instr) (c : Commit) : Prop where
  txt : c.txt.length = if writesBuffer i .txt then c.dstLen else 0
  sep : c.sep.length = if writesBuffer i .sep then c.lenf else 0
  oct : c.oct.length = if writesBuffer i .oct then c.dstLen else 0
  dstLen : c.dstLen ≤ 512
  lenf : c.lenf ≤ 512
  consumed : c.consumed ≤ 512
  result : i ≠ .semiEncTz → i ≠ .semiDecTz → c.result = none

/-- A halt of a command whose source is the first `n` elements of a buffer. -/
def HaltAt {w : Nat} (name : Buf) (b : Buffer w) (n : Nat) : Halt → Prop
  | .raised e pos => e ≠ .illegalCommand ∧ pos ≤ 512
  | .unwritten b' k => b' = name ∧ k < n ∧ readElem b k = none

theorem HaltAt.raised {w : Nat} {name : Buf} {b : Buffer w} {n pos : Nat} {e : ErrKind} (h : e ≠ .illegalCommand)
    (hp : pos ≤ 512) : HaltAt name b n (.raised e pos) := ⟨h, hp⟩

theorem HaltAt.fetch {w : Nat} {name : Buf} {b : Buffer w} {n i : Nat} {h : Halt} (hi : i < n)
    (he : fetchElem name b i = .error h) : HaltAt name b n h := by
  obtain ⟨hn, rfl⟩ := fetchElem_eq_error he
  exact ⟨rfl, hi, hn⟩

/-- A halt of any command. -/
def HaltFits (i : Instr) (s : State) : Halt → Prop
  | .raised e pos => e ≠ .illegalCommand ∧ pos ≤ 512
  | .unwritten b k => sourceOf i = some b ∧ k < s.srcLen.toNat ∧ readBuffer b k s.mem = none

/-- The counted loop over a list that stays within a capacity. -/
theorem forFrom_outcome {w cap n : Nat} {body : Nat → List (BitVec w) → Except Halt (List (BitVec w))} {R : Halt → Prop}
    (hok : ∀ k < n, ∀ a b, a.length ≤ cap → body k a = .ok b → b.length ≤ cap)
    (herr : ∀ k < n, ∀ a e, a.length ≤ cap → body k a = .error e → R e) :
    (∃ out, out.length ≤ cap ∧ forFrom body 0 n [] = .ok out) ∨ ∃ e, R e ∧ forFrom body 0 n [] = .error e := by
  rcases forFrom_invariant (body := body) (fun _ a => a.length ≤ cap) 0 n [] (by simp)
      (fun k a b _ hk ha hb => hok k (by omega) a b ha hb) with ⟨b, h1, h2⟩ | ⟨k, a, e, -, hk, ha, hb, h⟩
  · exact .inl ⟨b, h1, h2⟩
  · exact .inr ⟨e, herr k (by omega) a e ha hb, h⟩

theorem push_length {w cap pos : Nat} {a b : List (BitVec w)} {v : BitVec w} (h : push a v cap pos = .ok b) :
    b.length ≤ cap := by
  obtain ⟨hl, rfl⟩ := push_eq_ok h
  simp; omega

/-! ## Each loop -/

theorem semiEncNum_loop {n : Nat} (hn : n ≤ 512) (txt : Buffer 32) :
    (∃ out, out.length ≤ 512 ∧ forFrom (semiEncNumBody defaultParams txt) 0 n [] = .ok out)
      ∨ ∃ e, HaltAt .txt txt n e ∧ forFrom (semiEncNumBody defaultParams txt) 0 n [] = .error e := by
  refine forFrom_outcome (fun k _ a b _ h => ?_) (fun k hk a e _ h => ?_) <;> rw [semiEncNumBody] at h <;> split at h
  · cases h
  · split at h
    · cases h
    · exact push_length h
  · rename_i hf; cases h; exact .fetch hk hf
  · split at h
    · cases h; exact .raised (by decide) (by omega)
    · obtain ⟨-, rfl⟩ := push_eq_error h; exact .raised (by decide) (by omega)

theorem semiDecNum_loop {n : Nat} (hn : n ≤ 512) (oct : Buffer 8) :
    (∃ out, out.length ≤ 512 ∧ forFrom (semiDecNumBody defaultParams oct) 0 n [] = .ok out)
      ∨ ∃ e, HaltAt .oct oct n e ∧ forFrom (semiDecNumBody defaultParams oct) 0 n [] = .error e := by
  refine forFrom_outcome (fun k _ a b _ h => ?_) (fun k hk a e _ h => ?_) <;> rw [semiDecNumBody] at h <;> split at h
  · cases h
  · split at h
    · cases h
    · exact push_length h
  · rename_i hf; cases h; exact .fetch hk hf
  · split at h
    · cases h; exact .raised (by decide) (by omega)
    · obtain ⟨-, rfl⟩ := push_eq_error h; exact .raised (by decide) (by omega)

theorem secondDigit_error {d k : Nat} {txt : Buffer 32} {e : Halt} (hd : d ≤ 512) (h : secondDigit d txt k = .error e) :
    HaltAt .txt txt d e := by
  rw [secondDigit] at h
  split at h
  · rename_i hlt
    split at h
    · rename_i hf; cases h; exact .fetch hlt hf
    · split at h
      · cases h; exact .raised (by decide) (by omega)
      · cases h
  · cases h

theorem semiEncDig_loop {d : Nat} (hd : d ≤ 512) (txt : Buffer 32) :
    (∃ out, out.length ≤ 512 ∧ forFrom (semiEncDigBody defaultParams d txt) 0 (ceilDiv d 2) [] = .ok out)
      ∨ ∃ e, HaltAt .txt txt d e ∧ forFrom (semiEncDigBody defaultParams d txt) 0 (ceilDiv d 2) [] = .error e := by
  refine forFrom_outcome (fun k _ a b _ h => ?_) (fun k hk a e _ h => ?_) <;> rw [semiEncDigBody] at h <;> split at h
  · cases h
  · split at h
    · cases h
    · split at h
      · cases h
      · exact push_length h
  · rename_i hf; cases h; rw [ceilDiv_two] at hk; exact .fetch (by omega) hf
  · rw [ceilDiv_two] at hk
    split at h
    · cases h; exact .raised (by decide) (by omega)
    · split at h
      · rename_i hf; cases h; exact secondDigit_error hd hf
      · obtain ⟨-, rfl⟩ := push_eq_error h; exact .raised (by decide) (by omega)

theorem digitsFrom_cases (oct : Buffer 8) {m d : Nat} (hm : (d + 1) / 2 ≤ m) (hd : d ≤ 512) (n k : Nat)
    (hk : k + n = d) (out : List Word) (ho : out.length ≤ 512) :
    (∃ out', out'.length ≤ 512 ∧ digitsFrom defaultParams oct k n out = .ok out')
      ∨ ∃ e, HaltAt .oct oct m e ∧ digitsFrom defaultParams oct k n out = .error e := by
  induction n generalizing k out with
  | zero => exact .inl ⟨out, ho, rfl⟩
  | succ n ih =>
    cases hf : fetchElem .oct oct (k / 2) with
    | error e => exact .inr ⟨e, .fetch (by omega) hf, by rw [digitsFrom, hf]⟩
    | ok b =>
      by_cases h1 : digitNibble b k = 0xF
      · exact .inl ⟨out, ho, by rw [digitsFrom, hf]; simp only; rw [if_pos h1]⟩
      · by_cases h2 : 9 < digitNibble b k
        · exact .inr ⟨.raised .invalidDigits (k / 2), .raised (by decide) (by omega),
            by rw [digitsFrom, hf]; simp only; rw [if_neg h1, if_pos h2]; rfl⟩
        · rcases push_cases out (BitVec.ofNat 32 (digitNibble b k)) defaultParams.nTxt (k / 2) with ⟨hl, hp⟩ | ⟨-, hp⟩
          · have he : digitsFrom defaultParams oct k (n + 1) out
                = digitsFrom defaultParams oct (k + 1) n (out ++ [BitVec.ofNat 32 (digitNibble b k)]) := by
              rw [digitsFrom, hf]; simp only; rw [if_neg h1, if_neg h2, hp]
            rw [he]
            have hl' : out.length < 512 := hl
            exact ih (k + 1) (by omega) _ (by simp; omega)
          · exact .inr ⟨.raised .incorrectSize (k / 2), .raised (by decide) (by omega),
              by rw [digitsFrom, hf]; simp only; rw [if_neg h1, if_neg h2, hp]⟩

theorem map7_loop {n : Nat} (hn : n ≤ 512) (txt : Buffer 32) :
    (∃ out, out.length ≤ 512 ∧ map7 defaultParams txt n = .ok out)
      ∨ ∃ e, HaltAt .txt txt n e ∧ map7 defaultParams txt n = .error e := by
  refine forFrom_outcome (fun k _ a b ha h => ?_) (fun k hk a e ha h => ?_) <;> rw [map7Body] at h <;> split at h
  · cases h
  · split at h
    · cases h
    · rename_i ss _
      rcases pushAll_cases defaultParams.nSep k ss a ha with ⟨hl, hp⟩ | hp
      · rw [hp] at h; cases h; rw [List.length_append]; exact hl
      · rw [hp] at h; cases h
  · rename_i hf; cases h; exact .fetch hk hf
  · split at h
    · cases h; exact .raised (by decide) (by omega)
    · rename_i ss _
      rcases pushAll_cases defaultParams.nSep k ss a ha with ⟨hl, hp⟩ | hp
      · rw [hp] at h; cases h
      · rw [hp] at h; cases h; exact .raised (by decide) (by omega)

theorem ucs2Enc_loop {n : Nat} (hn : n ≤ 512) (txt : Buffer 32) :
    (∃ out, out.length ≤ 512 ∧ forFrom (ucs2EncBody defaultParams txt) 0 n [] = .ok out)
      ∨ ∃ e, HaltAt .txt txt n e ∧ forFrom (ucs2EncBody defaultParams txt) 0 n [] = .error e := by
  refine forFrom_outcome (fun k _ a b ha h => ?_) (fun k hk a e ha h => ?_) <;> rw [ucs2EncBody] at h <;> split at h
  · cases h
  · rename_i c _
    split at h
    · cases h
    · rcases pushUnits_cases defaultParams.nOct k (codeUnits c.toNat) a ha with ⟨hl, hp⟩ | hp
      · rw [hp] at h; cases h; rw [List.length_append]; exact hl
      · rw [hp] at h; cases h
  · rename_i hf; cases h; exact .fetch hk hf
  · rename_i c _
    split at h
    · cases h; exact .raised (by decide) (by omega)
    · rcases pushUnits_cases defaultParams.nOct k (codeUnits c.toNat) a ha with ⟨hl, hp⟩ | hp
      · rw [hp] at h; cases h
      · rw [hp] at h; cases h; exact .raised (by decide) (by omega)

/-! ## Each command -/

/-- What a command's pseudocode can answer. -/
def KernelOutcome (i : Instr) (s : State) (r : Except Halt Commit) : Prop :=
  (∃ c, r = .ok c ∧ Fits i c) ∨ ∃ h, r = .error h ∧ HaltFits i s h

theorem KernelOutcome.ok {i : Instr} {s : State} {c : Commit} (h : Fits i c) : KernelOutcome i s (.ok c) :=
  .inl ⟨c, rfl, h⟩

theorem KernelOutcome.raised {i : Instr} {s : State} {e : ErrKind} {pos : Nat} (h : e ≠ .illegalCommand)
    (hp : pos ≤ 512) : KernelOutcome i s (raise e pos) := .inr ⟨_, rfl, h, hp⟩

theorem KernelOutcome.txt {i : Instr} {s : State} {h : Halt} (hs : sourceOf i = some .txt)
    (hh : HaltAt .txt s.mem.txt (srcLenOf s) h) : KernelOutcome i s (.error h) := by
  refine .inr ⟨h, rfl, ?_⟩
  cases h with
  | raised e pos => exact hh
  | unwritten b k => obtain ⟨rfl, hk, hn⟩ := hh; exact ⟨hs, hk, hn⟩

theorem KernelOutcome.sep {i : Instr} {s : State} {h : Halt} (hs : sourceOf i = some .sep)
    (hh : HaltAt .sep s.mem.sep (srcLenOf s) h) : KernelOutcome i s (.error h) := by
  refine .inr ⟨h, rfl, ?_⟩
  cases h with
  | raised e pos => exact hh
  | unwritten b k => obtain ⟨rfl, hk, hn⟩ := hh; exact ⟨hs, hk, by simp [readBuffer, hn]⟩

theorem KernelOutcome.oct {i : Instr} {s : State} {h : Halt} (hs : sourceOf i = some .oct)
    (hh : HaltAt .oct s.mem.oct (srcLenOf s) h) : KernelOutcome i s (.error h) := by
  refine .inr ⟨h, rfl, ?_⟩
  cases h with
  | raised e pos => exact hh
  | unwritten b k => obtain ⟨rfl, hk, hn⟩ := hh; exact ⟨hs, hk, by simp [readBuffer, hn]⟩

theorem defaultParams_nTxt : defaultParams.nTxt = 512 := rfl
theorem defaultParams_nSep : defaultParams.nSep = 512 := rfl
theorem defaultParams_nOct : defaultParams.nOct = 512 := rfl

theorem g7Encode_outcome {i : Instr} (hi : i = .g7Encode ∨ i = .ussdPack) (s : State) :
    KernelOutcome i s (g7Encode defaultParams (srcLenOf s) s.mem.txt) := by
  have hs : sourceOf i = some .txt := by rcases hi with rfl | rfl <;> rfl
  rw [g7Encode, defaultParams_nTxt]
  split_ifs with h
  · exact .raised (by decide) (by omega)
  · rcases map7_loop (n := srcLenOf s) (by omega) s.mem.txt with ⟨out, hl, he⟩ | ⟨e, hh, he⟩ <;> rw [he] <;> simp only
    · split_ifs with h2
      · exact .raised (by decide) (by omega)
      · refine .ok ?_
        rw [defaultParams_nOct, ceilDiv_eight] at h2
        rcases hi with rfl | rfl <;>
          exact ⟨rfl, rfl, rfl, by simp [ceilDiv_eight]; omega, hl, by simp; omega, fun _ _ => rfl⟩
    · exact .txt hs hh

/-- Everything a command's pseudocode can answer in the default build. -/
theorem kernel_outcome (i : Instr) (s : State) : KernelOutcome i s (kernel defaultParams i s) := by
  cases i with
  | nop => exact .ok ⟨rfl, rfl, rfl, by simp, by simp, by simp, fun _ _ => rfl⟩
  | semiEncNum =>
    rw [kernel, semiEncNum, defaultParams_nTxt]
    split_ifs with h
    · exact .raised (by decide) (by omega)
    · rcases semiEncNum_loop (n := srcLenOf s) (by omega) s.mem.txt with ⟨out, hl, he⟩ | ⟨e, hh, he⟩ <;> rw [he]
      · exact .ok ⟨rfl, rfl, rfl, hl, by simp; omega, by simp; omega, fun _ _ => rfl⟩
      · exact .txt rfl hh
  | semiDecNum =>
    rw [kernel, semiDecNum, defaultParams_nOct]
    split_ifs with h
    · exact .raised (by decide) (by omega)
    · rcases semiDecNum_loop (n := srcLenOf s) (by omega) s.mem.oct with ⟨out, hl, he⟩ | ⟨e, hh, he⟩ <;> rw [he]
      · exact .ok ⟨rfl, rfl, rfl, hl, by simp; omega, by simp; omega, fun _ _ => rfl⟩
      · exact .oct rfl hh
  | semiEncDig =>
    rw [kernel, semiEncDig, defaultParams_nTxt]
    split_ifs with h
    · exact .raised (by decide) (by omega)
    · rcases semiEncDig_loop (d := srcLenOf s) (by omega) s.mem.txt with ⟨out, hl, he⟩ | ⟨e, hh, he⟩ <;> rw [he]
      · exact .ok ⟨rfl, rfl, rfl, hl, by simp; omega, by simp; omega, fun _ _ => rfl⟩
      · exact .txt rfl hh
  | semiDecDig =>
    rw [kernel, semiDecDig, defaultParams_nOct, defaultParams_nTxt]
    split_ifs with h1 h2 h3
    · exact .raised (by decide) (by omega)
    · exact .raised (by decide) (by omega)
    · exact .raised (by decide) (by omega)
    · rw [ceilDiv_two] at h3
      rcases digitsFrom_cases s.mem.oct (m := srcLenOf s) (d := auxOf s) (by omega) (by omega) (auxOf s) 0 (by omega) []
        (by simp) with ⟨out, hl, he⟩ | ⟨e, hh, he⟩ <;> rw [he]
      · exact .ok ⟨rfl, rfl, rfl, hl, hl, by simp [ceilDiv_two]; omega, fun _ _ => rfl⟩
      · exact .oct rfl hh
  | semiEncTz =>
    rw [kernel, semiEncTz]
    split_ifs
    · exact .raised (by decide) (by omega)
    · exact .ok ⟨rfl, rfl, rfl, by simp, by simp, by simp, fun h => absurd rfl h⟩
  | semiDecTz =>
    rw [kernel, semiDecTz]
    split_ifs
    · exact .raised (by decide) (by omega)
    · exact .ok ⟨rfl, rfl, rfl, by simp, by simp, by simp, fun _ h => absurd rfl h⟩
    · exact .ok ⟨rfl, rfl, rfl, by simp, by simp, by simp, fun _ h => absurd rfl h⟩
  | g7Map =>
    rw [kernel, g7Map, defaultParams_nTxt]
    split_ifs with h
    · exact .raised (by decide) (by omega)
    · rcases map7_loop (n := srcLenOf s) (by omega) s.mem.txt with ⟨out, hl, he⟩ | ⟨e, hh, he⟩ <;> rw [he]
      · exact .ok ⟨rfl, rfl, rfl, hl, hl, by simp; omega, fun _ _ => rfl⟩
      · exact .txt rfl hh
  | g7Unmap =>
    rw [kernel, g7Unmap, defaultParams_nSep]
    split_ifs with h
    · exact .raised (by decide) (by omega)
    · rcases unmapFrom_cases defaultParams (fetchElem .sep s.mem.sep) id (srcLenOf s) 0 [] (by simp) with
        ⟨out, hl, he⟩ | ⟨e, k, hk, hlt, he⟩ | ⟨k, e, hlt, hf, he⟩ <;> rw [he]
      · exact .ok ⟨rfl, rfl, rfl, hl, by simp; omega, by simp; omega, fun _ _ => rfl⟩
      · exact .raised hk (by simp only [id_eq]; omega)
      · exact .sep rfl (.fetch (by omega) hf)
  | septPack =>
    rw [kernel, septPack, defaultParams_nSep, defaultParams_nOct]
    split_ifs with h1 h2
    · exact .raised (by decide) (by omega)
    · exact .raised (by decide) (by omega)
    · rcases fetchAll_cases .sep s.mem.sep (srcLenOf s) with ⟨xs, hl, -, he⟩ | ⟨k, hk, hn, he⟩ <;> rw [he]
      · rw [ceilDiv_eight] at h2
        exact .ok ⟨rfl, rfl, rfl, by simp [ceilDiv_eight, hl]; omega, by simp; omega, by simp; omega, fun _ _ => rfl⟩
      · exact .sep rfl ⟨rfl, hk, hn⟩
  | septUnpack =>
    rw [kernel, septUnpack, defaultParams_nSep, defaultParams_nOct]
    split_ifs with h1 h2 h3
    · exact .raised (by decide) (by omega)
    · exact .raised (by decide) (by omega)
    · exact .raised (by decide) (by omega)
    · rw [ceilDiv_eight] at *
      rcases fetchAll_cases .oct s.mem.oct ((7 * auxOf s + 7) / 8) with ⟨xs, hl, -, he⟩ | ⟨k, hk, hn, he⟩ <;> rw [he]
      · exact .ok ⟨rfl, by simp [writesBuffer], rfl, by simp; omega, by simp; omega, by simp; omega, fun _ _ => rfl⟩
      · exact .oct rfl ⟨rfl, by omega, hn⟩
  | g7Encode => exact g7Encode_outcome (.inl rfl) s
  | g7Decode =>
    rw [kernel, g7Decode, defaultParams_nSep, defaultParams_nOct]
    split_ifs with h1 h2 h3
    · exact .raised (by decide) (by omega)
    · exact .raised (by decide) (by omega)
    · exact .raised (by decide) (by omega)
    · rw [ceilDiv_eight] at *
      rcases fetchAll_cases .oct s.mem.oct ((7 * auxOf s + 7) / 8) with ⟨xs, hl, -, he⟩ | ⟨k, hk, hn, he⟩ <;> rw [he] <;>
        simp only
      · rcases unmapFrom_cases defaultParams (readList (unpack7 xs (auxOf s))) septetOctet (auxOf s) 0 [] (by simp) with
          ⟨out, hl', he'⟩ | ⟨e, k, hk, hlt, he'⟩ | ⟨k, e, hlt, hf, he'⟩
        · rw [he']
          exact .ok ⟨rfl, by simp [writesBuffer], rfl, hl', by simp; omega, by simp; omega, fun _ _ => rfl⟩
        · rw [he']; exact .raised hk (by simp only [septetOctet]; omega)
        · cases hf
      · exact .oct rfl ⟨rfl, by omega, hn⟩
  | ussdPack => exact g7Encode_outcome (.inr rfl) s
  | ucs2Enc =>
    rw [kernel, ucs2Enc, defaultParams_nTxt]
    split_ifs with h
    · exact .raised (by decide) (by omega)
    · rcases ucs2Enc_loop (n := srcLenOf s) (by omega) s.mem.txt with ⟨out, hl, he⟩ | ⟨e, hh, he⟩ <;> rw [he]
      · exact .ok ⟨rfl, rfl, rfl, hl, hl, by simp; omega, fun _ _ => rfl⟩
      · exact .txt rfl hh
  | ucs2Dec =>
    rw [kernel, ucs2Dec, defaultParams_nOct]
    split_ifs with h1 h2
    · exact .raised (by decide) (by omega)
    · exact .raised (by decide) (by omega)
    · rcases ucs2DecFrom_cases defaultParams s.mem.oct (srcLenOf s / 2) 0 [] (by simp) with
        ⟨out, hl, he⟩ | ⟨e, k, hk, hlt, he⟩ | ⟨k, hlt, hn, he⟩ <;> rw [he]
      · exact .ok ⟨rfl, rfl, rfl, hl, by simp; omega, by simp; omega, fun _ _ => rfl⟩
      · exact .raised hk (by omega)
      · exact .oct rfl ⟨rfl, by omega, hn⟩

/-- Everything exec can answer: a commit that fits, the error state of an error other than IllegalCommand, or the model
fault on an unwritten source element. -/
theorem exec_outcome (i : Instr) (s : State) :
    (∃ c, Fits i c ∧ exec i s = .next (commitState c s))
      ∨ (∃ e pos, e ≠ .illegalCommand ∧ pos ≤ 512 ∧ exec i s = .next (errorState e pos s))
      ∨ ∃ b k, sourceOf i = some b ∧ k < s.srcLen.toNat ∧ readBuffer b k s.mem = none
          ∧ exec i s = .fault (.unwrittenElement b k) := by
  rw [exec_eq]
  rcases kernel_outcome i s with ⟨c, he, hf⟩ | ⟨h, he, hh⟩ <;> rw [he]
  · exact .inl ⟨c, hf, rfl⟩
  · cases h with
    | raised e pos => exact .inr (.inl ⟨e, pos, hh.1, hh.2, rfl⟩)
    | unwritten b k => exact .inr (.inr ⟨b, k, hh.1, hh.2.1, hh.2.2, rfl⟩)

/-! ## A command reads its source only through its elements -/

theorem fetchElem_congr {w : Nat} {b b' : Buffer w} (h : ∀ k, readElem b' k = readElem b k) (name : Buf) :
    fetchElem name b' = fetchElem name b := by
  funext i; rw [fetchElem, h]; rfl

theorem fetchFrom_congr {w : Nat} {b b' : Buffer w} (h : ∀ k, readElem b' k = readElem b k) (name : Buf) (i n : Nat) :
    fetchFrom name b' i n = fetchFrom name b i n := by
  induction n generalizing i with
  | zero => rfl
  | succ n ih => simp only [fetchFrom, fetchElem_congr h, ih]

theorem digitsFrom_congr (p : Params) {oct oct' : Buffer 8} (h : ∀ k, readElem oct' k = readElem oct k) (k n : Nat)
    (out : List Word) : digitsFrom p oct' k n out = digitsFrom p oct k n out := by
  induction n generalizing k out with
  | zero => rfl
  | succ n ih => simp only [digitsFrom, fetchElem_congr h, ih]

theorem ucs2DecFrom_congr (p : Params) {oct oct' : Buffer 8} (h : ∀ k, readElem oct' k = readElem oct k) :
    ∀ n k out, ucs2DecFrom p oct' n k out = ucs2DecFrom p oct n k out := by
  have hu : fetchUnit oct' = fetchUnit oct := by funext k; simp only [fetchUnit, fetchElem_congr h]
  intro n
  induction n using Nat.strong_induction_on with
  | _ n ih =>
    intro k out
    cases n with
    | zero => rfl
    | succ n =>
      rw [ucs2DecFrom.eq_def, ucs2DecFrom.eq_def p oct, hu]
      simp only [ih n (by omega)]
      cases n with
      | zero => rfl
      | succ n => simp only [ih n (by omega)]

theorem setWidth_word_injective {w : Nat} (hw : w ≤ 32) :
    Function.Injective (BitVec.setWidth 32 : BitVec w → Word) := by
  intro a b h
  have hlt : 2 ^ w ≤ 2 ^ 32 := Nat.pow_le_pow_right (by decide) hw
  have h' := congrArg BitVec.toNat h
  rw [BitVec.toNat_setWidth, BitVec.toNat_setWidth, Nat.mod_eq_of_lt (by omega), Nat.mod_eq_of_lt (by omega)] at h'
  exact BitVec.eq_of_toNat_eq h'

/-- Two states that agree on the operand registers and on what the source's elements read as have the same outcome. -/
theorem kernel_congr (p : Params) (i : Instr) {s s' : State} (h1 : s'.srcLen = s.srcLen) (h2 : s'.aux = s.aux)
    (h3 : s'.arg = s.arg) (h : ∀ b, sourceOf i = some b → ∀ k, readBuffer b k s'.mem = readBuffer b k s.mem) :
    kernel p i s' = kernel p i s := by
  have hn : srcLenOf s' = srcLenOf s := by rw [srcLenOf, h1]; rfl
  have ha : auxOf s' = auxOf s := by rw [auxOf, h2]; rfl
  have ht (hs : sourceOf i = some .txt) : ∀ k, readElem s'.mem.txt k = readElem s.mem.txt k := h .txt hs
  have hp (hs : sourceOf i = some .sep) (k : Nat) : readElem s'.mem.sep k = readElem s.mem.sep k :=
    Option.map_injective (setWidth_word_injective (by decide)) (h .sep hs k)
  have ho (hs : sourceOf i = some .oct) (k : Nat) : readElem s'.mem.oct k = readElem s.mem.oct k :=
    Option.map_injective (setWidth_word_injective (by decide)) (h .oct hs k)
  cases i with
  | nop => rfl
  | semiEncTz => simp only [kernel, h3]
  | semiDecTz => simp only [kernel, h3]
  | semiEncNum =>
    have hb : semiEncNumBody p s'.mem.txt = semiEncNumBody p s.mem.txt := by
      funext i o; simp only [semiEncNumBody, fetchElem_congr (ht rfl)]
    simp only [kernel, semiEncNum, hn, hb]
  | semiDecNum =>
    have hb : semiDecNumBody p s'.mem.oct = semiDecNumBody p s.mem.oct := by
      funext i o; simp only [semiDecNumBody, fetchElem_congr (ho rfl)]
    simp only [kernel, semiDecNum, hn, hb]
  | semiEncDig =>
    have hb : semiEncDigBody p (srcLenOf s) s'.mem.txt = semiEncDigBody p (srcLenOf s) s.mem.txt := by
      funext i o; simp only [semiEncDigBody, secondDigit, fetchElem_congr (ht rfl)]
    simp only [kernel, semiEncDig, hn, hb]
  | semiDecDig => simp only [kernel, semiDecDig, hn, ha, digitsFrom_congr p (ho rfl)]
  | g7Map =>
    have hb : map7Body p s'.mem.txt = map7Body p s.mem.txt := by
      funext i o; simp only [map7Body, fetchElem_congr (ht rfl)]
    simp only [kernel, g7Map, map7, hn, hb]
  | g7Unmap => simp only [kernel, g7Unmap, hn, fetchElem_congr (hp rfl)]
  | septPack => simp only [kernel, septPack, hn, fetchAll, fetchFrom_congr (hp rfl)]
  | septUnpack => simp only [kernel, septUnpack, hn, ha, fetchAll, fetchFrom_congr (ho rfl)]
  | g7Encode =>
    have hb : map7Body p s'.mem.txt = map7Body p s.mem.txt := by
      funext i o; simp only [map7Body, fetchElem_congr (ht rfl)]
    simp only [kernel, g7Encode, map7, hn, hb]
  | g7Decode => simp only [kernel, g7Decode, hn, ha, fetchAll, fetchFrom_congr (ho rfl)]
  | ussdPack =>
    have hb : map7Body p s'.mem.txt = map7Body p s.mem.txt := by
      funext i o; simp only [map7Body, fetchElem_congr (ht rfl)]
    simp only [kernel, ussdPack, g7Encode, map7, hn, hb]
  | ucs2Enc =>
    have hb : ucs2EncBody p s'.mem.txt = ucs2EncBody p s.mem.txt := by
      funext i o; simp only [ucs2EncBody, fetchElem_congr (ht rfl)]
    simp only [kernel, ucs2Enc, hn, hb]
  | ucs2Dec => simp only [kernel, ucs2Dec, hn, ucs2DecFrom_congr p (ho rfl)]

end Sys2Proof.Machine
end

