-- ==== Sys2Proof/Laws/HostPort.lean ====
section
/-! SUPPORT. The laws of the host port: which accesses are admitted, the address map in both directions, and everything
a host write can do. -/

namespace Sys2Proof.Machine

/-! ## The window -/

theorem admission_word {s : State} {off : Nat} (hr : s.rst = false) (h : off < 0x4000) (ha : off % 4 = 0) :
    admission (Config.base + off) .word s = .ok off := by
  have hb : (Config.base + off) % 4 = 0 := by rw [Config.base]; omega
  simp only [admission, hr]
  rw [if_neg (by simp), if_neg (by omega), if_neg (by simp), if_neg (by omega), Nat.add_sub_cancel_left]

theorem admission_narrow {s : State} {off : Nat} {size : AccessSize} (hr : s.rst = false) (h : off < 0x4000)
    (hs : size ≠ .word) : admission (Config.base + off) size s = .error .narrowAccess := by
  simp only [admission, hr]
  rw [if_neg (by simp), if_neg (by omega), if_pos hs]

theorem admission_misaligned {s : State} {off : Nat} (hr : s.rst = false) (h : off < 0x4000) (ha : off % 4 ≠ 0) :
    admission (Config.base + off) .word s = .error .misalignedAccess := by
  have hb : (Config.base + off) % 4 ≠ 0 := by rw [Config.base]; omega
  simp only [admission, hr]
  rw [if_neg (by simp), if_neg (by omega), if_neg (by simp), if_pos hb]

theorem admission_inReset {s : State} (hr : s.rst = true) (addr : Nat) (size : AccessSize) :
    admission addr size s = .error .accessDuringReset := by
  simp [admission, hr]

/-- What admission says: a word access, aligned, in the window, `rst` not asserted. -/
theorem admission_eq_ok {s : State} {addr off : Nat} {size : AccessSize} (h : admission addr size s = .ok off) :
    s.rst = false ∧ size = .word ∧ addr = Config.base + off ∧ off < 0x4000 ∧ off % 4 = 0 := by
  rw [admission] at h
  split_ifs at h with h1 h2 h3 h4
  cases h
  have hb : Config.base % 4 = 0 := by rw [Config.base]; omega
  exact ⟨by simpa using h1, by simpa using h3, by omega, by omega, by omega⟩

/-! ## The address map -/

theorem regAt_regOffset (r : Reg) : regAt (regOffset r) = some r := by cases r <;> rfl

theorem targetOf_regOffset (r : Reg) : targetOf (regOffset r) = .reg r := by cases r <;> rfl

theorem regAt_eq_some {off : Nat} {r : Reg} (h : regAt off = some r) : off = regOffset r := by
  unfold regAt at h
  split at h <;> cases h <;> rfl

theorem regAt_reserved {off : Nat} (h : 0x02C ≤ off) : regAt off = none := by
  cases hr : regAt off with
  | none => rfl
  | some r => have := regAt_eq_some hr; cases r <;> simp only [regOffset] at this <;> omega

theorem targetOf_reserved {off : Nat} (h1 : 0x02C ≤ off) (h2 : off < 0x1000) : targetOf off = .reserved := by
  rw [targetOf, if_pos h2, regAt_reserved h1]

theorem targetOf_txt {i : Nat} (h : i < 1024) : targetOf (0x1000 + 4 * i) = .elem .txt i := by
  rw [targetOf, if_neg (by omega), if_pos (by omega), show (0x1000 + 4 * i - 0x1000) / 4 = i by omega]

theorem targetOf_sep {i : Nat} (h : i < 1024) : targetOf (0x2000 + 4 * i) = .elem .sep i := by
  rw [targetOf, if_neg (by omega), if_neg (by omega), if_pos (by omega),
    show (0x2000 + 4 * i - 0x2000) / 4 = i by omega]

theorem targetOf_oct {i : Nat} (h : i < 1024) : targetOf (0x3000 + 4 * i) = .elem .oct i := by
  rw [targetOf, if_neg (by omega), if_neg (by omega), if_neg (by omega),
    show (0x3000 + 4 * i - 0x3000) / 4 = i by omega]

theorem targetOf_element (b : Buf) {i : Nat} (h : i < 1024) : targetOf (bufferOffset b + 4 * i) = .elem b i := by
  cases b
  · exact targetOf_txt h
  · exact targetOf_sep h
  · exact targetOf_oct h

theorem targetOf_eq_reg {off : Nat} {r : Reg} (h : targetOf off = .reg r) : off = regOffset r := by
  rw [targetOf] at h
  split_ifs at h
  split at h
  · rename_i hr; cases h; exact regAt_eq_some hr
  · cases h

theorem targetOf_eq_element {off i : Nat} {b : Buf} (ho : off < 0x4000) (ha : off % 4 = 0)
    (h : targetOf off = .elem b i) : off = bufferOffset b + 4 * i ∧ i < 1024 := by
  rw [targetOf] at h
  split_ifs at h
  · split at h <;> cases h
  · cases h; exact ⟨by simp only [bufferOffset]; omega, by omega⟩
  · cases h; exact ⟨by simp only [bufferOffset]; omega, by omega⟩
  · cases h; exact ⟨by simp only [bufferOffset]; omega, by omega⟩

/-! ## Writes -/

/-- The targets whose writes are dropped while BUSY = 1 (70_reset_and_hazards.md R270). -/
def droppable : Target → Bool
  | .reg .cmd => true
  | .reg .srcLen => true
  | .reg .aux => true
  | .reg .arg => true
  | .elem b i => i < capacityOf b
  | _ => false

/-- Everything a host write can do. -/
theorem hostWrite_cases (tg : Target) (v : Word) (s : State) :
    hostWrite tg v s = s
      ∨ (tg = .reg .ctrl ∧ hostWrite tg v s = writeCtrl v s)
      ∨ (tg = .reg .status ∧ hostWrite tg v s = writeStatus v s)
      ∨ (s.busy = true ∧ droppable tg = true ∧ hostWrite tg v s = dropWrite s)
      ∨ (s.busy = false ∧ tg = .reg .cmd ∧ hostWrite tg v s = startStep v s)
      ∨ (s.busy = false ∧ ∃ a b c, hostWrite tg v s = { s with srcLen := a, aux := b, arg := c })
      ∨ (s.busy = false ∧ ∃ b i, tg = .elem b i ∧ i < capacityOf b
          ∧ hostWrite tg v s = { s with mem := writeBuffer b i v s.mem }) := by
  have op (written : State) (hd : droppable tg = true) (hw : hostWrite tg v s = writeOperand s written) :
      (s.busy = true ∧ droppable tg = true ∧ hostWrite tg v s = dropWrite s)
        ∨ (s.busy = false ∧ hostWrite tg v s = written) := by
    cases hb : s.busy with
    | true => exact .inl ⟨rfl, hd, by rw [hw, writeOperand, hb]; rfl⟩
    | false => exact .inr ⟨rfl, by rw [hw, writeOperand, hb]; rfl⟩
  cases tg with
  | reserved => exact .inl rfl
  | elem b i =>
    by_cases hc : capacityOf b ≤ i
    · exact .inl (by simp [hostWrite, hc])
    · have hw : hostWrite (.elem b i) v s = writeOperand s { s with mem := writeBuffer b i v s.mem } := by
        simp [hostWrite, hc]
      rcases op _ (by simp only [droppable]; simpa using hc) hw with h | ⟨hb, h⟩
      · exact .inr (.inr (.inr (.inl h)))
      · exact .inr (.inr (.inr (.inr (.inr (.inr ⟨hb, b, i, rfl, by omega, h⟩)))))
  | reg r =>
    cases r with
    | id | dstLen | lenf | consumed | result => exact .inl rfl
    | ctrl => exact .inr (.inl ⟨rfl, rfl⟩)
    | status => exact .inr (.inr (.inl ⟨rfl, rfl⟩))
    | cmd =>
      rcases op _ rfl rfl with h | ⟨hb, h⟩
      · exact .inr (.inr (.inr (.inl h)))
      · exact .inr (.inr (.inr (.inr (.inl ⟨hb, rfl, h⟩))))
    | srcLen =>
      rcases op _ rfl rfl with h | ⟨hb, h⟩
      · exact .inr (.inr (.inr (.inl h)))
      · exact .inr (.inr (.inr (.inr (.inr (.inl ⟨hb, _, _, _, h⟩)))))
    | aux =>
      rcases op _ rfl rfl with h | ⟨hb, h⟩
      · exact .inr (.inr (.inr (.inl h)))
      · exact .inr (.inr (.inr (.inr (.inr (.inl ⟨hb, _, _, _, h⟩)))))
    | arg =>
      rcases op _ rfl rfl with h | ⟨hb, h⟩
      · exact .inr (.inr (.inr (.inl h)))
      · exact .inr (.inr (.inr (.inr (.inr (.inl ⟨hb, _, _, _, h⟩)))))

/-! ## Reads -/

/-- A read moves on at most the model's draw counter (20_memory.md R67). -/
theorem hostRead_after (tg : Target) (s : State) : ∃ n, (hostRead tg s).after = { s with draws := n } := by
  have id' : ∃ n, s = { s with draws := n } := ⟨s.draws, rfl⟩
  have res {w : Nat} (x : BitVec w) : ∃ n, (readResultReg x s).after = { s with draws := n } := by
    rw [readResultReg]; split
    · exact ⟨_, rfl⟩
    · exact id'
  cases tg with
  | reserved => exact id'
  | elem b i =>
    show ∃ n, (readElement b i s).after = _
    rw [readElement]; split
    · exact id'
    · split
      · exact ⟨_, rfl⟩
      · split
        · exact id'
        · exact ⟨_, rfl⟩
  | reg r =>
    cases r with
    | id | ctrl | status | cmd | srcLen | aux | arg => exact id'
    | dstLen => exact res _
    | lenf => exact res _
    | consumed => exact res _
    | result => exact res _

/-- STATUS as a number (44_control.md R212). -/
theorem statusWord_toNat (s : State) :
    (statusWord s).toNat = s.busy.toNat + 2 * s.done.toNat + 4 * s.ovr.toNat
      + 8 * (if s.errCode = 0 then 0 else 1) + 256 * s.errCode.toNat := by
  have key : ∀ (b d o : Bool) (e : BitVec 4),
      ((0 : BitVec 20) ++ e ++ (0 : BitVec 4) ++ bit (e != 0) ++ bit o ++ bit d ++ bit b : BitVec 32).toNat
        = b.toNat + 2 * d.toNat + 4 * o.toNat + 8 * (if e = 0 then 0 else 1) + 256 * e.toNat := by
    decide +kernel
  exact key s.busy s.done s.ovr s.errCode

theorem statusWord_busy (s : State) : (statusWord s).getLsbD 0 = s.busy := by
  have key : ∀ (b d o : Bool) (e : BitVec 4),
      ((0 : BitVec 20) ++ e ++ (0 : BitVec 4) ++ bit (e != 0) ++ bit o ++ bit d ++ bit b : BitVec 32).getLsbD 0 = b := by
    decide +kernel
  exact key s.busy s.done s.ovr s.errCode

end Sys2Proof.Machine
end

