-- ==== Sys2Proof/Laws/PerInstr.lean ====
section
/-! SUPPORT. One lemma per constructor of Instr: its command word is well-formed and selects it. -/

namespace Sys2Proof.Laws

/-- The command is well-formed, its word has RES = 0, FAM and FN are the word's fields, and only that word selects it
(30_encoding.md R90 to R93). -/
def CommandWord.Statement (i : Instr) : Prop :=
  i.wf = true ∧ resOf (encode i) = 0 ∧ opcOf (encode i) = famOf i ++ fnOf i
    ∧ ∀ w : Word, decode w = .command i ↔ w = encode i

theorem CommandWord.decode_iff (i : Instr) (w : Word) : decode w = .command i ↔ w = encode i :=
  ⟨encode_of_decode, fun h => h ▸ decode_encode i⟩

theorem CommandWord.nop : CommandWord.Statement .nop := ⟨rfl, rfl, rfl, CommandWord.decode_iff .nop⟩
theorem CommandWord.semiEncNum : CommandWord.Statement .semiEncNum := ⟨rfl, rfl, rfl, CommandWord.decode_iff .semiEncNum⟩
theorem CommandWord.semiDecNum : CommandWord.Statement .semiDecNum := ⟨rfl, rfl, rfl, CommandWord.decode_iff .semiDecNum⟩
theorem CommandWord.semiEncDig : CommandWord.Statement .semiEncDig := ⟨rfl, rfl, rfl, CommandWord.decode_iff .semiEncDig⟩
theorem CommandWord.semiDecDig : CommandWord.Statement .semiDecDig := ⟨rfl, rfl, rfl, CommandWord.decode_iff .semiDecDig⟩
theorem CommandWord.semiEncTz : CommandWord.Statement .semiEncTz := ⟨rfl, rfl, rfl, CommandWord.decode_iff .semiEncTz⟩
theorem CommandWord.semiDecTz : CommandWord.Statement .semiDecTz := ⟨rfl, rfl, rfl, CommandWord.decode_iff .semiDecTz⟩
theorem CommandWord.g7Map : CommandWord.Statement .g7Map := ⟨rfl, rfl, rfl, CommandWord.decode_iff .g7Map⟩
theorem CommandWord.g7Unmap : CommandWord.Statement .g7Unmap := ⟨rfl, rfl, rfl, CommandWord.decode_iff .g7Unmap⟩
theorem CommandWord.septPack : CommandWord.Statement .septPack := ⟨rfl, rfl, rfl, CommandWord.decode_iff .septPack⟩
theorem CommandWord.septUnpack : CommandWord.Statement .septUnpack := ⟨rfl, rfl, rfl, CommandWord.decode_iff .septUnpack⟩
theorem CommandWord.g7Encode : CommandWord.Statement .g7Encode := ⟨rfl, rfl, rfl, CommandWord.decode_iff .g7Encode⟩
theorem CommandWord.g7Decode : CommandWord.Statement .g7Decode := ⟨rfl, rfl, rfl, CommandWord.decode_iff .g7Decode⟩
theorem CommandWord.ussdPack : CommandWord.Statement .ussdPack := ⟨rfl, rfl, rfl, CommandWord.decode_iff .ussdPack⟩
theorem CommandWord.ucs2Enc : CommandWord.Statement .ucs2Enc := ⟨rfl, rfl, rfl, CommandWord.decode_iff .ucs2Enc⟩
theorem CommandWord.ucs2Dec : CommandWord.Statement .ucs2Dec := ⟨rfl, rfl, rfl, CommandWord.decode_iff .ucs2Dec⟩

end Sys2Proof.Laws
end

