-- ==== Sys2Proof/Laws/Step.lean ====
section
/-! SUPPORT. What a step can do, said once: the turn taken, and what its agent can do in it. -/

namespace Sys2Proof.Machine

/-! ## Turns -/

theorem step_nil {s : State} (h : s.sched = []) : step s = engineTurn s := by rw [step, nextTurn, h]; rfl

theorem step_cons {s : State} {t : Turn} {ts : List Turn} (h : s.sched = t :: ts) :
    step s = takeTurn t { s with sched := ts } := by rw [step, nextTurn, h]

/-- An engine step, by an engine turn or with no turn left. -/
theorem step_engine {s : State} (h : s.sched = [] ∨ ∃ ts, s.sched = .engine :: ts) :
    step s = engineTurn { s with sched := s.sched.tail } := by
  rcases h with h | ⟨ts, h⟩
  · rw [step_nil h]; congr 1; rw [h]; cases s; simp only at h; subst h; rfl
  · rw [step_cons h]; simp only [h, List.tail_cons]; rfl

/-! ## The engine -/

theorem engineTurn_idle {s : State} (h : s.rst = true ∨ s.busy = false) : engineTurn s = .next s := by
  rw [engineTurn, if_pos (by simpa using h)]

theorem engineTurn_count {s : State} {n : Nat} (hr : s.rst = false) (hb : s.busy = true) (hn : s.remaining = n + 2) :
    engineTurn s = .next { s with remaining := n + 1 } := by
  rw [engineTurn, if_neg (by simp [hr, hb]), if_neg (by omega), hn]; rfl

theorem engineTurn_complete {s : State} (hr : s.rst = false) (hb : s.busy = true) (hn : s.remaining ≤ 1) :
    engineTurn s = completionStep { s with remaining := 0 } := by
  rw [engineTurn, if_neg (by simp [hr, hb]), if_pos (by omega)]

theorem completionStep_command {s : State} {i : Instr} (h : decode s.cmd = .command i) :
    completionStep s = exec i s := by rw [completionStep, h]

theorem completionStep_illegal {s : State} {why : IllegalWord} (h : decode s.cmd = .illegal why) :
    completionStep s = .next (errorState .illegalCommand 0 s) := by rw [completionStep, h]; rfl

/-- Everything a completion step that answers a next state can do. -/
theorem completionStep_cases {s t : State} (h : completionStep s = .next t) :
    (∃ i c, decode s.cmd = .command i ∧ Fits i c ∧ t = commitState c s)
      ∨ ∃ e pos, pos ≤ 512 ∧ t = errorState e pos s := by
  cases hd : decode s.cmd with
  | illegal why =>
    rw [completionStep_illegal hd] at h; cases h
    exact .inr ⟨_, 0, by omega, rfl⟩
  | command i =>
    rw [completionStep_command hd] at h
    rcases exec_outcome i s with ⟨c, hf, he⟩ | ⟨e, pos, -, hp, he⟩ | ⟨b, k, -, -, -, he⟩ <;> rw [he] at h <;> cases h
    · exact .inl ⟨i, c, rfl, hf, rfl⟩
    · exact .inr ⟨e, pos, hp, rfl⟩

/-- The step that completes the pending command. -/
theorem step_complete {s : State} (h : s.sched = [] ∨ ∃ ts, s.sched = .engine :: ts) (hr : s.rst = false)
    (hb : s.busy = true) (hn : s.remaining ≤ 1) :
    step s = completionStep { s with sched := s.sched.tail, remaining := 0 } := by
  rw [step_engine h]
  exact engineTurn_complete (s := { s with sched := s.sched.tail }) hr hb hn

/-- A step that counts down. -/
theorem step_count {s : State} {n : Nat} (h : s.sched = [] ∨ ∃ ts, s.sched = .engine :: ts) (hr : s.rst = false)
    (hb : s.busy = true) (hn : s.remaining = n + 2) :
    step s = .next { s with sched := s.sched.tail, remaining := n + 1 } := by
  rw [step_engine h]
  exact engineTurn_count (s := { s with sched := s.sched.tail }) hr hb hn

/-- An engine step that does nothing. -/
theorem step_idle {s : State} (h : s.sched = [] ∨ ∃ ts, s.sched = .engine :: ts) (hi : s.rst = true ∨ s.busy = false) :
    step s = .next { s with sched := s.sched.tail } := by
  rw [step_engine h]
  exact engineTurn_idle (s := { s with sched := s.sched.tail }) hi

/-- Everything an engine turn that answers a next state can do. -/
theorem engineTurn_cases {s t : State} (h : engineTurn s = .next t) :
    ((s.rst = true ∨ s.busy = false) ∧ t = s)
      ∨ (s.rst = false ∧ s.busy = true ∧ ∃ n, s.remaining = n + 2 ∧ t = { s with remaining := n + 1 })
      ∨ (s.rst = false ∧ s.busy = true ∧ s.remaining ≤ 1 ∧ completionStep { s with remaining := 0 } = .next t) := by
  by_cases hi : s.rst = true ∨ s.busy = false
  · rw [engineTurn_idle hi] at h; cases h; exact .inl ⟨hi, rfl⟩
  · have hr : s.rst = false := by simpa using fun hc => hi (.inl hc)
    have hb : s.busy = true := by simpa using fun hc => hi (.inr hc)
    rcases Nat.lt_or_ge 1 s.remaining with hn | hn
    · obtain ⟨n, hn⟩ : ∃ n, s.remaining = n + 2 := ⟨s.remaining - 2, by omega⟩
      rw [engineTurn_count hr hb hn] at h; cases h
      exact .inr (.inl ⟨hr, hb, n, hn, rfl⟩)
    · rw [engineTurn_complete hr hb hn] at h
      exact .inr (.inr ⟨hr, hb, hn, h⟩)

/-! ## The host -/

theorem hostTurn_write {s : State} {off : Nat} {v : Word} {rest : List HostOp}
    (hp : s.program = .write (Config.base + off) .word v :: rest) (hr : s.rst = false) (ho : off < 0x4000)
    (ha : off % 4 = 0) : hostTurn s = .next (hostWrite (targetOf off) v { s with program := rest }) := by
  rw [hostTurn, hp]; simp only; rw [admission_word hr ho ha]

theorem hostTurn_read {s : State} {off : Nat} {rest : List HostOp}
    (hp : s.program = .read (Config.base + off) .word :: rest) (hr : s.rst = false) (ho : off < 0x4000)
    (ha : off % 4 = 0) : hostTurn s = .next (deliver (hostRead (targetOf off) { s with program := rest })) := by
  rw [hostTurn, hp]; simp only; rw [admission_word hr ho ha]

/-- An access that is not admitted is refused, write or read. -/
theorem hostTurn_refused {s : State} {addr : Nat} {size : AccessSize} {v : Word} {rest : List HostOp} {why : Refusal}
    (hp : s.program = .write addr size v :: rest ∨ s.program = .read addr size :: rest)
    (ha : admission addr size s = .error why) : hostTurn s = .refused why := by
  rcases hp with hp | hp <;> rw [hostTurn, hp] <;> simp only <;> rw [ha]

theorem hostTurn_wait {s : State} {rest : List HostOp} (hp : s.program = .wait :: rest) (hr : s.rst = false) :
    hostTurn s = .next (pollStatus rest s) := by
  rw [hostTurn, hp]; simp [hr]

theorem hostTurn_nothing {s : State} (hp : s.program = []) : hostTurn s = .next s := by rw [hostTurn, hp]

/-- Everything a host turn that answers a next state can do. -/
theorem hostTurn_cases {s t : State} (h : hostTurn s = .next t) :
    (s.program = [] ∧ t = s)
      ∨ (∃ off v rest, s.program = .write (Config.base + off) .word v :: rest ∧ s.rst = false ∧ off < 0x4000
          ∧ off % 4 = 0 ∧ t = hostWrite (targetOf off) v { s with program := rest })
      ∨ (∃ off rest, s.program = .read (Config.base + off) .word :: rest ∧ s.rst = false ∧ off < 0x4000
          ∧ off % 4 = 0 ∧ t = deliver (hostRead (targetOf off) { s with program := rest }))
      ∨ (∃ rest, s.program = .wait :: rest ∧ s.rst = false ∧ t = pollStatus rest s) := by
  cases hp : s.program with
  | nil => rw [hostTurn_nothing hp] at h; cases h; exact .inl ⟨rfl, rfl⟩
  | cons op rest =>
    rw [hostTurn, hp] at h
    cases op with
    | write addr size v =>
      simp only at h
      cases ha : admission addr size s with
      | error why => rw [ha] at h; cases h
      | ok off =>
        rw [ha] at h; cases h
        obtain ⟨hr, rfl, rfl, ho, hm⟩ := admission_eq_ok ha
        exact .inr (.inl ⟨off, v, rest, rfl, hr, ho, hm, rfl⟩)
    | read addr size =>
      simp only at h
      cases ha : admission addr size s with
      | error why => rw [ha] at h; cases h
      | ok off =>
        rw [ha] at h; cases h
        obtain ⟨hr, rfl, rfl, ho, hm⟩ := admission_eq_ok ha
        exact .inr (.inr (.inl ⟨off, rest, rfl, hr, ho, hm, rfl⟩))
    | wait =>
      cases hr : s.rst with
      | true => simp [hr] at h
      | false => simp [hr] at h; exact .inr (.inr (.inr ⟨rest, rfl, rfl, h.symm⟩))

/-- What a read or a poll leaves of the block: every field but the model's own record of the outside. -/
theorem deliver_hostRead (tg : Target) (s : State) :
    ∃ d n, deliver (hostRead tg s) = { s with readData := some d, draws := n } := by
  obtain ⟨n, h⟩ := hostRead_after tg s
  exact ⟨_, n, by rw [deliver, h]⟩

theorem pollStatus_eq (rest : List HostOp) (s : State) :
    pollStatus rest s
      = { s with program := if s.busy then s.program else rest, readData := some (statusWord s) } := by
  have h : pollStatus rest s = if (statusWord s).getLsbD 0 then { s with readData := some (statusWord s) }
      else { s with readData := some (statusWord s), program := rest } := rfl
  rw [h, statusWord_busy]
  cases hb : s.busy
  · simp
  · simp

/-! ## Steps -/

/-- Everything a step that answers a next state can do. -/
theorem step_cases {s t : State} (h : step s = .next t) :
    ((s.sched = [] ∨ ∃ ts, s.sched = .engine :: ts) ∧ engineTurn { s with sched := s.sched.tail } = .next t)
      ∨ (∃ ts, s.sched = .host :: ts ∧ hostTurn { s with sched := ts } = .next t)
      ∨ (∃ ts, s.sched = .powerOnReset :: ts ∧ t = forgetBuffers (assertReset { s with sched := ts }))
      ∨ (∃ ts, s.sched = .rstAssert :: ts ∧ t = assertReset { s with sched := ts })
      ∨ ∃ ts, s.sched = .rstDeassert :: ts ∧ t = { s with sched := ts, rst := false } := by
  cases hs : s.sched with
  | nil => rw [step_engine (.inl hs)] at h; rw [hs] at h; exact .inl ⟨.inl rfl, h⟩
  | cons tn ts =>
    cases tn with
    | engine => rw [step_engine (.inr ⟨ts, hs⟩)] at h; rw [hs] at h; exact .inl ⟨.inr ⟨ts, rfl⟩, h⟩
    | host => rw [step_cons hs] at h; exact .inr (.inl ⟨ts, rfl, h⟩)
    | powerOnReset => rw [step_cons hs] at h; cases h; exact .inr (.inr (.inl ⟨ts, rfl, rfl⟩))
    | rstAssert => rw [step_cons hs] at h; cases h; exact .inr (.inr (.inr (.inl ⟨ts, rfl, rfl⟩)))
    | rstDeassert => rw [step_cons hs] at h; cases h; exact .inr (.inr (.inr (.inr ⟨ts, rfl, rfl⟩)))

end Sys2Proof.Machine
end

