-- ==== Sys2Proof/Tests/Slice0.lean ====
section
/-! SUPPORT. The model's own tests: decoding, the well-formedness checks, one or two vectors of 95_test_vectors.md per
command, host accesses, and for each obligation with hypotheses a concrete state and operands that meet them. -/

namespace Sys2Proof.Tests

open Sys2Proof.Machine Sys2Proof.Claims

/-! ## Decoding: words written out from 30_encoding.md R90 and R92 (RES, FAM, FN) -/

theorem test_decode_control : decode 0b000000000000000000000000_0000_0000 = .command .nop := by decide

theorem test_decode_semi_octet :
    decode 0b000000000000000000000000_0001_0000 = .command .semiEncNum
      ∧ decode 0b000000000000000000000000_0001_0001 = .command .semiDecNum
      ∧ decode 0b000000000000000000000000_0001_0010 = .command .semiEncDig
      ∧ decode 0b000000000000000000000000_0001_0011 = .command .semiDecDig
      ∧ decode 0b000000000000000000000000_0001_0100 = .command .semiEncTz
      ∧ decode 0b000000000000000000000000_0001_0101 = .command .semiDecTz := by decide

theorem test_decode_gsm7 :
    decode 0b000000000000000000000000_0010_0000 = .command .g7Map
      ∧ decode 0b000000000000000000000000_0010_0001 = .command .g7Unmap
      ∧ decode 0b000000000000000000000000_0010_0010 = .command .septPack
      ∧ decode 0b000000000000000000000000_0010_0011 = .command .septUnpack
      ∧ decode 0b000000000000000000000000_0010_0100 = .command .g7Encode
      ∧ decode 0b000000000000000000000000_0010_0101 = .command .g7Decode
      ∧ decode 0b000000000000000000000000_0010_0110 = .command .ussdPack := by decide

theorem test_decode_ucs2 :
    decode 0b000000000000000000000000_0011_0000 = .command .ucs2Enc
      ∧ decode 0b000000000000000000000000_0011_0001 = .command .ucs2Dec := by decide

/-- V131 to V133, and the ends of the four illegal ranges (R93). -/
theorem test_decode_illegal :
    decode 0x00000016 = .illegal .unknownOpcode ∧ decode 0x00000124 = .illegal .reservedBits
      ∧ decode 0x000000FF = .illegal .unknownOpcode ∧ decode 0x00000001 = .illegal .unknownOpcode
      ∧ decode 0x0000000F = .illegal .unknownOpcode ∧ decode 0x00000027 = .illegal .unknownOpcode
      ∧ decode 0x00000032 = .illegal .unknownOpcode ∧ decode 0x80000000 = .illegal .reservedBits := by decide

theorem test_decodeTableWord : decodeTableWord 8 0x24 = some .g7Encode ∧ decodeTableWord 32 0x124 = none := by decide

/-! ## Well-formedness: for each check an ill-formed term that it refuses -/

theorem smoke_command_wf : ∀ i : Instr, i.wf = true := by intro i; cases i <;> rfl

theorem smoke_line_beyond_window : (HostLine.wb .oct 1024 0).wf = false ∧ (HostLine.rb .txt 1024).wf = false
    ∧ (HostLine.wb .oct 1023 0).wf = true := by decide

theorem smoke_access_narrow : (HostOp.read Config.base .byte).wf = false
    ∧ (HostOp.write Config.base .halfword 0).wf = false := by simp [HostOp.wf]

theorem smoke_access_misaligned : (HostOp.read (Config.base + 2) .word).wf = false := by
  have : (Config.base + 2) % 4 = 2 := by rw [Config.base]; omega
  simp [HostOp.wf, this]

theorem smoke_access_outside : (HostOp.write (Config.base + 0x4000) .word 0).wf = false := by
  simp [HostOp.wf, inWindow]

theorem smoke_access_wf : (HostOp.write (Config.base + 0x3FFC) .word 0).wf = true := by
  have : (Config.base + 0x3FFC) % 4 = 0 := by rw [Config.base]; omega
  simp [HostOp.wf, inWindow, this]

theorem smoke_capacity : ({ defaultParams with nTxt := 0 }).wf = false ∧ ({ defaultParams with nOct := 1025 }).wf = false
    ∧ ({ defaultParams with nSep := 1025 }).wf = false := by decide +kernel

theorem smoke_table_septet_twice : tableWf [(0x00, 0x40), (0x00, 0x41)] = false := by decide

theorem smoke_table_code_point_twice : tableWf [(0x00, 0x40), (0x01, 0x40)] = false := by decide

theorem smoke_table_at_escape : tableWf [(0x1B, 0x40)] = false := by decide

theorem smoke_table_not_a_code_point : tableWf [(0x00, 0x110000)] = false := by decide

theorem smoke_images_overlap : imagesDisjoint [(0x00, 0x40)] [(0x01, 0x40)] = false := by decide

theorem smoke_required_entry_missing :
    ({ defaultParams with ext := [] }).wf = false ∧ ({ defaultParams with basic := [] }).wf = false := by decide +kernel

theorem smoke_memory_wf : ({ txt := [(1, 0), (0, 0)], sep := [], oct := [] } : Memory).wf = false
    ∧ ({ txt := [], sep := [], oct := [(512, 0)] } : Memory).wf = false
    ∧ ({ txt := [], sep := [(0, 1), (511, 2)], oct := [] } : Memory).wf = true := by decide

/-! ## One completion step on a small state -/

/-- After reset, with the three buffers holding the lists from element 0 on. -/
def given (txt : List Word) (sep : List Septet) (oct : List Octet) (srcLen : Half) (aux : Half := 0) (arg : Word := 0) :
    State :=
  { State.reset with
    mem := { txt := stage [] txt, sep := stage [] sep, oct := stage [] oct }, srcLen := srcLen, aux := aux, arg := arg }

/-- The state after the completion step of a command word. -/
def ran (w : Nat) (s : State) : Option State :=
  match step (s.withFetchWord 32 w) with
  | .next t => some t
  | _ => none

/-- STATUS, DST_LEN, LENF and CONSUMED after it. -/
def report (w : Nat) (s : State) : Option (List Nat) :=
  (ran w s).map fun t => [(statusWord t).toNat, t.dstLen.toNat, t.lenf.toNat, t.consumed.toNat]

/-- The elements of a buffer after it, in order. -/
def outTxt (w : Nat) (s : State) : Option (List Nat) := (ran w s).map fun t => t.mem.txt.map fun e => e.2.toNat
def outSep (w : Nat) (s : State) : Option (List Nat) := (ran w s).map fun t => t.mem.sep.map fun e => e.2.toNat
def outOct (w : Nat) (s : State) : Option (List Nat) := (ran w s).map fun t => t.mem.oct.map fun e => e.2.toNat

/-- RESULT after it. -/
def outResult (w : Nat) (s : State) : Option Nat := (ran w s).map fun t => t.result.toNat

/-- The model fault of the step, if it is one. -/
def faultOf (w : Nat) (s : State) : Option Fault :=
  match step (s.withFetchWord 32 w) with
  | .fault f => some f
  | _ => none

/-- V130. -/
theorem test_nop : report 0x00 { State.reset with dstLen := 5, consumed := 7 } = some [0x002, 0, 0, 0] := by decide

/-- V132. -/
theorem test_illegal_word : report 0x124 (given [] [] [] 0) = some [0x10A, 0, 0, 0]
    ∧ outOct 0x124 (given [] [] [1] 0) = some [1] := by decide

/-- V40. -/
theorem test_semiEncNum : outOct 0x10 (given [26, 11, 11, 10, 30, 0] [] [] 6) = some [0x62, 0x11, 0x11, 0x01, 0x03, 0x00]
    ∧ report 0x10 (given [26, 11, 11, 10, 30, 0] [] [] 6) = some [0x002, 6, 6, 6] := by decide

/-- V42, V50. -/
theorem test_semiEncNum_errors : report 0x10 (given [5, 100] [] [] 2) = some [0x60A, 0, 0, 1]
    ∧ report 0x10 (given [] [] [] 513) = some [0x20A, 0, 0, 0] := by decide

/-- V46. -/
theorem test_semiDecNum : outTxt 0x11 (given [] [] [0x99, 0x90, 0x09] 3) = some [99, 9, 90]
    ∧ report 0x11 (given [] [] [0x99, 0x90, 0x09] 3) = some [0x002, 3, 3, 3] := by decide

/-- V47, V48. -/
theorem test_semiDecNum_errors : report 0x11 (given [] [] [0x62, 0xA0] 2) = some [0x60A, 0, 0, 1]
    ∧ report 0x11 (given [] [] [0x0A] 1) = some [0x60A, 0, 0, 0] := by decide

/-- V51 (and V3, corrected). -/
theorem test_semiEncDig :
    outOct 0x12 (given [7, 9, 9, 9, 5, 5, 5, 4, 4, 3, 3] [] [] 11) = some [0x97, 0x99, 0x55, 0x45, 0x34, 0xF3]
      ∧ report 0x12 (given [7, 9, 9, 9, 5, 5, 5, 4, 4, 3, 3] [] [] 11) = some [0x002, 6, 11, 11] := by decide

/-- V55, V56. -/
theorem test_semiEncDig_errors : report 0x12 (given [1, 10] [] [] 2) = some [0x60A, 0, 0, 1]
    ∧ report 0x12 (given [12, 1] [] [] 2) = some [0x60A, 0, 0, 0] := by decide

/-- V58 (the padding ends the stream) and V66 (the padding position is not read). -/
theorem test_semiDecDig :
    outTxt 0x13 (given [] [] [0x97, 0x99, 0x55, 0x45, 0x34, 0xF3] 6 12) = some [7, 9, 9, 9, 5, 5, 5, 4, 4, 3, 3]
      ∧ report 0x13 (given [] [] [0x97, 0x99, 0x55, 0x45, 0x34, 0xF3] 6 12) = some [0x002, 11, 11, 6]
      ∧ outTxt 0x13 (given [] [] [0x21, 0x43] 2 3) = some [1, 2, 3] := by decide

/-- V63, V65. -/
theorem test_semiDecDig_errors : report 0x13 (given [] [] [0xB1] 1 2) = some [0x60A, 0, 0, 0]
    ∧ report 0x13 (given [] [] [0x21, 0x43] 2 5) = some [0x30A, 0, 0, 2] := by decide

/-- V72, V74. -/
theorem test_semiEncTz : outResult 0x14 (given [] [] [] 0 0 0xFFFFFFF8) = some 0x88
    ∧ outResult 0x14 (given [] [] [] 0 0 0xFFFFFFB1) = some 0x9F := by decide

/-- V75, V81. -/
theorem test_semiEncTz_errors : report 0x14 (given [] [] [] 0 0 80) = some [0x60A, 0, 0, 0]
    ∧ report 0x14 (given [] [] [] 0 0 0x80000000) = some [0x60A, 0, 0, 0] := by decide

/-- V84, V88, V92. -/
theorem test_semiDecTz : outResult 0x15 (given [] [] [] 0 0 0x88) = some 0xFFFFFFF8
    ∧ outResult 0x15 (given [] [] [] 0 0 0x8F) = some 0xFFFFFFB2
    ∧ outResult 0x15 (given [] [] [] 0 0 0x1221) = some 0x0C := by decide

/-- V89. -/
theorem test_semiDecTz_error : report 0x15 (given [] [] [] 0 0 0xA0) = some [0x60A, 0, 0, 0] := by decide

/-- V11. -/
theorem test_g7Map : outSep 0x20 (given [0x7B, 0x78, 0x7D] [] [] 3) = some [0x1B, 0x28, 0x78, 0x1B, 0x29]
    ∧ report 0x20 (given [0x7B, 0x78, 0x7D] [] [] 3) = some [0x002, 5, 5, 3] := by decide +kernel

/-- V13, and the capacity case below V19 (N_SEP = 2). -/
theorem test_g7Map_errors : report 0x20 (given [0x61, 0x4E2D, 0x62] [] [] 3) = some [0x50A, 0, 0, 1]
    ∧ g7Map { defaultParams with nSep := 2 } 2 (stage [] [0x61, 0x20AC]) = .error (.raised .incorrectSize 1) := by
  decide +kernel

/-- V16. -/
theorem test_g7Unmap : outTxt 0x21 (given [] [0x68, 0x1B, 0x65, 0x21] [] 4) = some [0x68, 0x20AC, 0x21]
    ∧ report 0x21 (given [] [0x68, 0x1B, 0x65, 0x21] [] 4) = some [0x002, 3, 4, 4] := by decide +kernel

/-- V17, V18, V19. -/
theorem test_g7Unmap_errors : report 0x21 (given [] [0x61, 0x1B, 0x41] [] 3) = some [0x50A, 0, 0, 1]
    ∧ report 0x21 (given [] [0x1B, 0x1B, 0x65] [] 3) = some [0x50A, 0, 0, 0]
    ∧ report 0x21 (given [] [0x61, 0x1B] [] 2) = some [0x40A, 0, 0, 1] := by decide +kernel

/-- V22. -/
theorem test_septPack : outOct 0x22 (given [] [0x31, 0x32, 0x33, 0x34, 0x35, 0x36, 0x37, 0x38, 0x39] [] 9)
      = some [0x31, 0xD9, 0x8C, 0x56, 0xB3, 0xDD, 0x70, 0x39]
    ∧ report 0x22 (given [] [0x31, 0x32, 0x33, 0x34, 0x35, 0x36, 0x37, 0x38, 0x39] [] 9) = some [0x002, 8, 9, 9] := by
  decide +kernel

/-- V27, and the capacity case below V30 (N_OCT = 6). -/
theorem test_septPack_corners : outOct 0x22 (given [] [0, 0, 0, 0, 0, 0, 0, 0] [] 8) = some [0, 0, 0, 0, 0, 0, 0]
    ∧ septPack { defaultParams with nOct := 6 } 7 (stage [] [0, 0, 0, 0, 0, 0, 0])
      = .error (.raised .incorrectSize 0) := by decide +kernel

/-- V31, V34. -/
theorem test_septUnpack : outSep 0x23 (given [] [] [0x31, 0xD9, 0x8C, 0x56, 0xB3, 0xDD, 0x00] 7 8)
      = some [0x31, 0x32, 0x33, 0x34, 0x35, 0x36, 0x37, 0x00]
    ∧ outSep 0x23 (given [] [] [0xE8, 0x32, 0x9B, 0xFD, 0xFE] 5 5) = some [0x68, 0x65, 0x6C, 0x6C, 0x6F] := by
  decide +kernel

/-- V35. -/
theorem test_septUnpack_error : report 0x23 (given [] [] [0xE8, 0x32, 0x9B, 0xFD, 0x06] 5 6) = some [0x30A, 0, 0, 5] := by
  decide +kernel

/-- V1, V95; V99. -/
theorem test_g7Encode : outOct 0x24 (given [0x68, 0x65, 0x6C, 0x6C, 0x6F] [] [] 5) = some [0xE8, 0x32, 0x9B, 0xFD, 0x06]
    ∧ report 0x24 (given [0x68, 0x65, 0x6C, 0x6C, 0x6F] [] [] 5) = some [0x002, 5, 5, 5]
    ∧ outSep 0x24 (given [0x61, 0x62, 0x0C] [] [] 3) = some [0x61, 0x62, 0x1B, 0x0A] := by decide +kernel

/-- V97. -/
theorem test_g7Encode_escape : outOct 0x24 (given [0x20AC] [] [] 1) = some [0x9B, 0x32]
    ∧ report 0x24 (given [0x20AC] [] [] 1) = some [0x002, 2, 2, 1] := by decide +kernel

/-- V37. -/
theorem test_g7Decode : outTxt 0x25 (given [] [] [0xE1, 0x4D, 0x19] 3 3) = some [0x61, 0x20AC]
    ∧ outSep 0x25 (given [] [] [0xE1, 0x4D, 0x19] 3 3) = some [0x61, 0x1B, 0x65]
    ∧ report 0x25 (given [] [] [0xE1, 0x4D, 0x19] 3 3) = some [0x002, 2, 3, 3] := by decide +kernel

/-- V38, V39, V93. -/
theorem test_g7Decode_errors : report 0x25 (given [] [] [0xE1, 0x4D, 0x19] 3 2) = some [0x40A, 0, 0, 0]
    ∧ report 0x25 (given [] [] [0xE1, 0x70, 0x38, 0x1C, 0x0E, 0x87, 0xC3, 0xE1, 0x0D] 9 10) = some [0x40A, 0, 0, 7]
    ∧ report 0x25 (given [] [] [0xE1, 0x70, 0x38, 0x1C, 0x0E, 0x87, 0xC3, 0xE1, 0x4D, 0x10] 10 11)
      = some [0x50A, 0, 0, 7] := by decide +kernel

/-- V102. -/
theorem test_ussdPack : outOct 0x26 (given [0x68, 0x69] [] [] 2) = some [0xE8, 0x34]
    ∧ report 0x26 (given [0x68, 0x69] [] [] 2) = some [0x002, 2, 2, 2] := by decide +kernel

/-- V118. -/
theorem test_ucs2Enc : outOct 0x30 (given [0x41, 0x1F600, 0x42] [] [] 3)
      = some [0x00, 0x41, 0xD8, 0x3D, 0xDE, 0x00, 0x00, 0x42]
    ∧ report 0x30 (given [0x41, 0x1F600, 0x42] [] [] 3) = some [0x002, 8, 8, 3] := by decide

/-- V113, V119, V120. -/
theorem test_ucs2Enc_corners : outOct 0x30 (given [0x10FFFF] [] [] 1) = some [0xDB, 0xFF, 0xDF, 0xFF]
    ∧ report 0x30 (given [0x68, 0xD800] [] [] 2) = some [0x50A, 0, 0, 1]
    ∧ report 0x30 (given [0x110000] [] [] 1) = some [0x50A, 0, 0, 0] := by decide

/-- V122, V123. -/
theorem test_ucs2Dec : outTxt 0x31 (given [] [] [0xD8, 0x3D, 0xDE, 0x00] 4) = some [0x1F600]
    ∧ report 0x31 (given [] [] [0xDB, 0xFF, 0xDF, 0xFF] 4) = some [0x002, 1, 4, 4] := by decide

/-- V124, V125, V126, V127. -/
theorem test_ucs2Dec_errors : report 0x31 (given [] [] [0x00, 0x68, 0x00] 3) = some [0x20A, 0, 0, 0]
    ∧ report 0x31 (given [] [] [0xD8, 0x3D, 0x00, 0x41] 4) = some [0x50A, 0, 0, 0]
    ∧ report 0x31 (given [] [] [0xDC, 0x00] 2) = some [0x50A, 0, 0, 0]
    ∧ report 0x31 (given [] [] [0x00, 0x41, 0xD8, 0x00] 4) = some [0x50A, 0, 0, 2] := by decide

/-- A source element never written (10_state.md R43). -/
theorem test_unwritten_source : faultOf 0x30 (given [0x41] [] [] 2) = some (.unwrittenElement .txt 1) := by decide

/-! ## Host accesses -/

/-- V134 and V135: the W1C write of STATUS clears DONE and leaves ERRCODE. -/
theorem test_status_write :
    (statusWord (hostWrite (targetOf 0x008) 2 { State.reset with done := true, errCode := 1 })).toNat = 0x108 := by decide

/-- V137: IE is written, then the soft reset clears it. -/
theorem test_soft_reset : ctrlWord (hostWrite (targetOf 0x004) 3 { State.reset with srcLen := 9 }) = 0
    ∧ (hostWrite (targetOf 0x004) 3 { State.reset with srcLen := 9 }).srcLen = 0 := by decide

/-- V138 and V139. -/
theorem test_id_and_reserved : (hostRead (targetOf 0x000) State.reset).data = 0x47534D01
    ∧ hostWrite (targetOf 0x000) 0x12345678 State.reset = State.reset
    ∧ (hostRead (targetOf 0x02C) State.reset).data = 0 ∧ hostWrite (targetOf 0x02C) 1 State.reset = State.reset := by decide

/-- 20_memory.md R61, R62: the last element within capacity and the first beyond. -/
theorem test_address_map : targetOf 0x17FC = .elem .txt 511 ∧ targetOf 0x1800 = .elem .txt 512
    ∧ targetOf 0x2000 = .elem .sep 0 ∧ targetOf 0x3FFC = .elem .oct 1023 ∧ targetOf 0x028 = .reg .result
    ∧ targetOf 0x02C = .reserved ∧ hostWrite (.elem .txt 512) 1 State.reset = State.reset := by decide

/-- 10_state.md R41, R42: the low bits of a host write. -/
theorem test_element_width : (hostWrite (targetOf 0x2000) 0x1FF State.reset).mem.sep = [(0, 0x7F)]
    ∧ (hostWrite (targetOf 0x3004) 0x1FE State.reset).mem.oct = [(1, 0xFE)] := by decide

/-- P6 (a): a CMD write while BUSY = 1 is dropped and sets OVR. -/
theorem test_dropped_write : (hostWrite (targetOf 0x00C) 0x16 { State.reset with busy := true }).ovr = true
    ∧ (hostWrite (targetOf 0x00C) 0x16 { State.reset with busy := true }).cmd = 0 := by decide

/-- V136: irq. -/
theorem test_irq : irq { State.reset with ie := true, done := true } = true
    ∧ irq (hostWrite (targetOf 0x008) 2 { State.reset with ie := true, done := true }) = false
    ∧ irq (hostWrite (targetOf 0x004) 0 { State.reset with ie := true, done := true }) = false := by decide

/-- R100: EXEC and WTXT. -/
theorem test_notation : execLines .ussdPack = [.w .cmd 0x26, .wait]
    ∧ wtxtLines [0x68, 0x69] = [.wb .txt 0 0x68, .wb .txt 1 0x69, .w .srcLen 2] := by decide

/-! ## Witnesses: for each obligation with hypotheses, a state and operands that meet them all -/

/-- After reset, the host about to make one move. -/
def moving (op : HostOp) : State := { State.reset with sched := [.host], program := [op] }

/-- The same while a command is pending. -/
def movingBusy (op : HostOp) (cmd : Word := 0) : State := { moving op with busy := true, remaining := 1, cmd := cmd }

/-- After reset, a command pending that completes at the next step. -/
def due (cmd : Word) : State := { State.reset with busy := true, remaining := 1, cmd := cmd }

theorem moving_host (op : HostOp) : HostMove (moving op) op [] [] := ⟨rfl, rfl, rfl⟩

theorem movingBusy_host (op : HostOp) (cmd : Word) : HostMove (movingBusy op cmd) op [] [] := ⟨rfl, rfl, rfl⟩

theorem due_completion (cmd : Word) : CompletionDue (due cmd) := ⟨⟨rfl, .inl rfl⟩, rfl, Nat.le_refl 1⟩

/-- A host move that writes has a next state. -/
theorem step_write {s : State} {off : Nat} {v : Word} {rest : List HostOp} {ts : List Turn}
    (h : HostMove s (wr off v) rest ts) (ho : off < 0x4000) (ha : off % 4 = 0) :
    step s = .next (hostWrite (targetOf off) v (moved s rest ts)) := by
  rw [step_cons h.1]
  exact hostTurn_write (s := { s with sched := ts }) h.2.1 h.2.2 ho ha

/-- A host move that reads has a next state. -/
theorem step_read {s : State} {off : Nat} {rest : List HostOp} {ts : List Turn}
    (h : HostMove s (rd off) rest ts) (ho : off < 0x4000) (ha : off % 4 = 0) :
    step s = .next (deliver (hostRead (targetOf off) (moved s rest ts))) := by
  rw [step_cons h.1]
  exact hostTurn_read (s := { s with sched := ts }) h.2.1 h.2.2 ho ha

theorem holds_stage {w : Nat} (xs : List (BitVec w)) : Holds (stage [] xs) xs := fun k hk => by
  rw [readElem_stage, if_pos hk]

/-! ### Words and steps -/

theorem witness_IllegalWordsCompleteWithIllegalCommand :
    (∃ why, decode 0x16 = .illegal why)
      ∧ (IllegalWordValue 0x01 ∧ IllegalWordValue 0x0F ∧ IllegalWordValue 0x16 ∧ IllegalWordValue 0x1F
        ∧ IllegalWordValue 0x27 ∧ IllegalWordValue 0x2F ∧ IllegalWordValue 0x32 ∧ IllegalWordValue 0xFF
        ∧ IllegalWordValue 0x100 ∧ IllegalWordValue 0xFFFFFFFF)
      ∧ (IllegalWordValue (0x16 : Word).toNat ∧ HostMove (moving (wr 0x00C 0x16)) (wr 0x00C 0x16) [] []
        ∧ (moving (wr 0x00C 0x16)).busy = false)
      ∧ (CompletionDue (due 0xFF) ∧ IllegalWordValue (due 0xFF).cmd.toNat) :=
  ⟨⟨_, rfl⟩, by refine ⟨?_, ?_, ?_, ?_, ?_, ?_, ?_, ?_, ?_, ?_⟩ <;> (unfold IllegalWordValue; decide),
    ⟨by unfold IllegalWordValue; decide, moving_host _, rfl⟩,
    due_completion _, by unfold IllegalWordValue; decide⟩

theorem witness_EngineStepDecrementsOrRunsTheDecodedCommand :
    (EngineNext { due 0 with remaining := 2 } ∧ { due 0 with remaining := 2 }.busy = true
        ∧ { due 0 with remaining := 2 }.remaining = 0 + 2)
      ∧ (EngineNext (due 0x31) ∧ (due 0x31).busy = true ∧ (due 0x31).remaining = 1
        ∧ decode (due 0x31).cmd = .command .ucs2Dec ∧ ∃ t, step (due 0x31) = .next t)
      ∧ (EngineNext (due 0x16) ∧ (due 0x16).remaining = 1 ∧ decode (due 0x16).cmd = .illegal .unknownOpcode) :=
  ⟨⟨⟨rfl, .inl rfl⟩, rfl, rfl⟩, ⟨⟨rfl, .inl rfl⟩, rfl, rfl, rfl, _, rfl⟩, ⟨rfl, .inl rfl⟩, rfl, rfl⟩

theorem witness_PlacedCommandWordRunsNext : decode 0x26 = .command .ussdPack := by decide

theorem witness_CmdWriteStartsACommandOnlyWhileIdle :
    (HostMove (moving (wr 0x00C 0x24)) (wr 0x00C 0x24) [] [] ∧ (moving (wr 0x00C 0x24)).busy = false)
      ∧ HostMove (movingBusy (wr 0x00C 0x24)) (wr 0x00C 0x24) [] [] ∧ (movingBusy (wr 0x00C 0x24)).busy = true :=
  ⟨⟨moving_host _, rfl⟩, movingBusy_host _ _, rfl⟩

theorem witness_PendingCommandCompletesAfterRemainingSteps :
    (due 0).busy = true ∧ (due 0).rst = false ∧ (due 0).sched = [] ∧ (due 0).remaining = 0 + 1
      ∧ ∀ i, decode (due 0).cmd = .command i → SourcesWritten i (due 0) :=
  ⟨rfl, rfl, rfl, rfl, fun i h b hb => by cases h; cases hb⟩

theorem witness_IdleEngineDoesNothing : EngineNext State.reset ∧ State.reset.busy = false := ⟨⟨rfl, .inl rfl⟩, rfl⟩

theorem witness_WaitPollsStatusUntilIdle :
    HostMove (moving .wait) .wait [] [] ∧ HostMove (movingBusy .wait) .wait [] [] := ⟨moving_host _, movingBusy_host _ _⟩

/-! ### Host accesses -/

theorem witness_WritesWhileBusyAreDroppedAndSetOvr :
    (∀ off v, HostMove (movingBusy (wr off v)) (wr off v) [] [] ∧ (movingBusy (wr off v)).busy = true)
      ∧ (DroppedWhileBusy 0x00C ∧ DroppedWhileBusy 0x018 ∧ DroppedWhileBusy 0x1000 ∧ DroppedWhileBusy 0x37FC)
      ∧ ((1 : Word).getLsbD 1 = false ∧ (2 : Word).getLsbD 1 = true)
      ∧ (IgnoredWrite 0x000 ∧ IgnoredWrite 0x02C ∧ IgnoredWrite 0xFFC ∧ IgnoredWrite 0x1800 ∧ IgnoredWrite 0x3FFC) :=
  ⟨fun _ _ => ⟨movingBusy_host _ _, rfl⟩,
    ⟨.inl rfl, .inr (.inr (.inr (.inl rfl))), .inr (.inr (.inr (.inr ⟨0, by decide, .inl rfl⟩))),
      .inr (.inr (.inr (.inr ⟨511, by decide, .inr (.inr rfl)⟩)))⟩,
    by decide,
    .inl rfl, .inr (.inr (.inr (.inr (.inr (.inl (by decide)))))), .inr (.inr (.inr (.inr (.inr (.inl (by decide)))))),
    .inr (.inr (.inr (.inr (.inr (.inr ⟨512, by decide, by decide, .inl rfl⟩))))),
    .inr (.inr (.inr (.inr (.inr (.inr ⟨1023, by decide, by decide, .inr (.inr rfl)⟩)))))⟩

theorem witness_WritesWhileIdleStoreTheLowBits :
    (∀ off v, HostMove (moving (wr off v)) (wr off v) [] [] ∧ (moving (wr off v)).busy = false)
      ∧ (0 < 512 ∧ 0x1000 = 0x1000 + 4 * 0) ∧ (511 < 512 ∧ 0x27FC = 0x2000 + 4 * 511 ∧ 0x37FC = 0x3000 + 4 * 511) :=
  ⟨fun _ _ => ⟨moving_host _, rfl⟩, by decide, by decide⟩

theorem witness_ReadOnlyAndReservedWritesAreIgnored :
    HostMove (moving (wr 0x028 1)) (wr 0x028 1) [] [] ∧ IgnoredWrite 0x028 :=
  ⟨moving_host _, .inr (.inr (.inr (.inr (.inl rfl))))⟩

theorem witness_CtrlWriteSetsIeThenSoftResets :
    (HostMove (moving (wr 0x004 1)) (wr 0x004 1) [] [] ∧ (1 : Word).getLsbD 1 = false)
      ∧ (HostMove (movingBusy (wr 0x004 3)) (wr 0x004 3) [] [] ∧ (3 : Word).getLsbD 1 = true)
      ∧ HostMove (moving (rd 0x004)) (rd 0x004) [] [] :=
  ⟨⟨moving_host _, rfl⟩, ⟨movingBusy_host _ _, rfl⟩, moving_host _⟩

theorem witness_StatusWriteClearsAndReadPacksTheFlags :
    HostMove (movingBusy (wr 0x008 6)) (wr 0x008 6) [] [] ∧ HostMove (moving (rd 0x008)) (rd 0x008) [] [] :=
  ⟨movingBusy_host _ _, moving_host _⟩

/-- A host move with one element of each buffer written. -/
def readingWith (op : HostOp) (i : Nat) : State :=
  { moving op with mem := { txt := [(i, 0xFFFFFFFF)], sep := [(i, 0x7F)], oct := [(i, 0xFF)] } }

theorem witness_ReadsWhileIdleReturnTheStoredValues :
    (∀ off i, HostMove (readingWith (rd off) i) (rd off) [] [] ∧ (readingWith (rd off) i).busy = false)
      ∧ (0x02C ≤ 0x02C ∧ 0x02C < 0x1000 ∧ 0x02C % 4 = 0 ∧ 0x02C ≤ 0xFFC ∧ 0xFFC < 0x1000 ∧ 0xFFC % 4 = 0)
      ∧ (0 < 512 ∧ readElem (readingWith (rd 0x1000) 0).mem.txt 0 = some 0xFFFFFFFF)
      ∧ (511 < 512 ∧ readElem (readingWith (rd 0x27FC) 511).mem.sep 511 = some 0x7F)
      ∧ (511 < 512 ∧ readElem (readingWith (rd 0x37FC) 511).mem.oct 511 = some 0xFF)
      ∧ (512 ≤ 512 ∧ 512 < 1024 ∧ 0x1800 = 0x1000 + 4 * 512 ∧ 512 ≤ 1023 ∧ 1023 < 1024 ∧ 0x3FFC = 0x3000 + 4 * 1023) :=
  ⟨fun _ _ => ⟨⟨rfl, rfl, rfl⟩, rfl⟩, by decide, by decide, by decide, by decide, by decide⟩

theorem witness_ReadsWhileBusyHideResultsAndDestinations :
    (∀ off cmd, HostMove (movingBusy (rd off) cmd) (rd off) [] [] ∧ (movingBusy (rd off) cmd).busy = true)
      ∧ (decode (movingBusy (rd 0x2000) 0x24).cmd = .command .g7Encode ∧ .sep ∈ destinations .g7Encode
        ∧ .oct ∈ destinations .g7Encode ∧ .txt ∈ destinations .ucs2Dec)
      ∧ (NotPendingDestination (movingBusy (rd 0x1000) 0x24) .txt
        ∧ readElem { movingBusy (rd 0x1000) 0x24 with mem := { txt := [(0, 7)], sep := [], oct := [] } }.mem.txt 0
          = some 7)
      ∧ NotPendingDestination (movingBusy (rd 0x2000) 0x30) .sep ∧ NotPendingDestination (movingBusy (rd 0x3000) 0x16) .oct :=
  ⟨fun _ _ => ⟨movingBusy_host _ _, rfl⟩, by decide, ⟨fun i h => by cases h; decide, rfl⟩, fun i h => by cases h; decide,
    fun i h => by cases h⟩

theorem witness_ReadOfUnwrittenElementCompletes :
    (∀ off, HostMove (moving (rd off)) (rd off) [] []) ∧ 511 < 512 ∧ readElem (moving (rd 0x17FC)).mem.txt 511 = none
      ∧ readElem (moving (rd 0x2000)).mem.sep 0 = none ∧ readElem (moving (rd 0x37FC)).mem.oct 511 = none :=
  ⟨fun _ => moving_host _, by decide, rfl, rfl, rfl⟩

theorem witness_ReadsChangeNoBlockState :
    HostMove (moving (rd 0x01C)) (.read (Config.base + 0x01C) .word) [] [] ∧ ∃ t, step (moving (rd 0x01C)) = .next t :=
  ⟨moving_host _, _, step_read (moving_host _) (by decide) (by decide)⟩

theorem witness_OnlyAlignedWordAccessesAreAdmitted :
    (∀ size off, HostMove (moving (.write (Config.base + off) size 0)) (.write (Config.base + off) size 0) [] [])
      ∧ (∀ size off, HostMove (moving (.read (Config.base + off) size)) (.read (Config.base + off) size) [] [])
      ∧ (0x3FFC < 0x4000 ∧ 0x3FFC % 4 = 0) ∧ AccessSize.byte ≠ .word ∧ AccessSize.halfword ≠ .word
      ∧ (0x3FFF < 0x4000 ∧ 0x3FFF % 4 ≠ 0) :=
  ⟨fun _ _ => moving_host _, fun _ _ => moving_host _, by decide, by decide, by decide, by decide⟩

/-! ### Reset and whole-machine rules -/

/-- After reset, with one turn scheduled. -/
def turning (t : Turn) : State := { State.reset with sched := [t] }

theorem witness_ResetSetsRegistersAndKeepsBuffers :
    (turning .rstAssert).sched = [.rstAssert] ∧ (turning .powerOnReset).sched = [.powerOnReset]
      ∧ HostMove (movingBusy (wr 0x004 2)) (wr 0x004 2) [] [] ∧ (2 : Word).getLsbD 1 = true :=
  ⟨rfl, rfl, movingBusy_host _ _, rfl⟩

theorem witness_AssertedResetAdmitsNoAccess :
    ({ moving .wait with rst := true }.rst = true ∧ { moving .wait with rst := true }.sched = [.host]
        ∧ { moving .wait with rst := true }.program = [.wait])
      ∧ ({ turning .engine with rst := true }.rst = true ∧ { turning .engine with rst := true }.sched = [.engine])
      ∧ { turning .rstDeassert with rst := true }.sched = [.rstDeassert] := by decide

theorem witness_BusyRisesAtStartAndFallsAtCompletionOrReset :
    (∃ t, step (moving (wr 0x00C 0)) = .next t ∧ (moving (wr 0x00C 0)).busy = false ∧ t.busy = true)
      ∧ (∃ t, step (due 0) = .next t ∧ (due 0).busy = true ∧ t.busy = false ∧ CompletionDue (due 0))
      ∧ ∃ t, step (turning .rstAssert) = .next t ∧ ResetNext (turning .rstAssert) :=
  ⟨⟨_, step_write (moving_host _) (by decide) (by decide), rfl, rfl⟩, ⟨_, rfl, rfl, rfl, due_completion _⟩,
    _, rfl, .inl ⟨[], .inl rfl⟩⟩

theorem witness_DoneRisesOnlyAtCompletion :
    (∃ t, step (due 0) = .next t ∧ CompletionDue (due 0) ∧ (due 0).done = false ∧ t.done = true)
      ∧ ∃ t, step { moving (wr 0x008 2) with done := true } = .next t
        ∧ ClearsDone { moving (wr 0x008 2) with done := true } ∧ t.done = false :=
  ⟨⟨_, rfl, due_completion _, rfl, rfl⟩, _,
    step_write (s := { moving (wr 0x008 2) with done := true }) ⟨rfl, rfl, rfl⟩ (by decide) (by decide),
    .inr (.inl ⟨2, ⟨[], [], rfl, rfl, rfl⟩, rfl⟩), rfl⟩

theorem witness_OvrIsStickyUntilClearedOrReset :
    (∃ t, step (movingBusy (wr 0x010 1)) = .next t ∧ DropsAWrite (movingBusy (wr 0x010 1))
        ∧ (movingBusy (wr 0x010 1)).ovr = false ∧ t.ovr = true)
      ∧ ∃ t, step { moving (wr 0x008 4) with ovr := true } = .next t
        ∧ ClearsOvr { moving (wr 0x008 4) with ovr := true } ∧ t.ovr = false :=
  ⟨⟨_, step_write (movingBusy_host _ _) (by decide) (by decide), ⟨rfl, 0x010, 1, ⟨[], [], movingBusy_host _ _⟩, .inr (.inl rfl)⟩,
      rfl, rfl⟩, _,
    step_write (s := { moving (wr 0x008 4) with ovr := true }) ⟨rfl, rfl, rfl⟩ (by decide) (by decide),
    .inl ⟨4, ⟨[], [], rfl, rfl, rfl⟩, rfl⟩, rfl⟩

theorem witness_ResultChangesOnlyByTimeZoneCommandsOrReset :
    ∃ t, step { due 0x14 with arg := 12 } = .next t ∧ t.result ≠ { due 0x14 with arg := 12 }.result :=
  ⟨_, rfl, by decide⟩

theorem witness_BuffersChangeOnlyByWritesCompletionsAndPowerOn :
    ∃ t, step (moving (wr 0x3004 5)) = .next t
      ∧ readBuffer .oct 1 t.mem ≠ readBuffer .oct 1 (moving (wr 0x3004 5)).mem :=
  ⟨_, step_write (moving_host _) (by decide) (by decide), by decide⟩

theorem witness_PendingOperandsStayConstant :
    ∃ t, step { due 0 with remaining := 2 } = .next t ∧ { due 0 with remaining := 2 }.busy = true ∧ t.busy = true :=
  ⟨_, rfl, rfl, rfl⟩

theorem witness_IrqRisesAndFallsOnlyByTheListedEvents :
    (∃ t, step { due 0 with ie := true } = .next t ∧ CompletionDue { due 0 with ie := true }
        ∧ irq { due 0 with ie := true } = false ∧ irq t = true)
      ∧ (∃ t, step { moving (wr 0x004 1) with done := true } = .next t
        ∧ HostMakes { moving (wr 0x004 1) with done := true } (wr 0x004 1) ∧ irq t = true)
      ∧ ∃ t, step { moving (wr 0x004 0) with ie := true, done := true } = .next t
        ∧ HostMakes { moving (wr 0x004 0) with ie := true, done := true } (wr 0x004 0)
        ∧ irq { moving (wr 0x004 0) with ie := true, done := true } = true ∧ irq t = false :=
  ⟨⟨_, rfl, ⟨⟨rfl, .inl rfl⟩, rfl, Nat.le_refl 1⟩, rfl, rfl⟩,
    ⟨_, step_write (s := { moving (wr 0x004 1) with done := true }) ⟨rfl, rfl, rfl⟩ (by decide) (by decide),
      ⟨[], [], rfl, rfl, rfl⟩, rfl⟩, _,
    step_write (s := { moving (wr 0x004 0) with ie := true, done := true }) ⟨rfl, rfl, rfl⟩ (by decide) (by decide),
    ⟨[], [], rfl, rfl, rfl⟩, rfl, rfl⟩

theorem witness_IrqRisesAndFallsOnlyByTheListedEvents_no_reset :
    ¬ResetNext { moving (wr 0x004 1) with done := true } := by
  rintro (⟨ts, h | h⟩ | ⟨v, ⟨rest, ts, _, h, _⟩, hv⟩)
  · cases h
  · cases h
  · cases h; cases hv

theorem reset_inv : State.reset.Inv :=
  ⟨rfl, by decide, (fun h => by cases h), fun h => absurd rfl h, by decide, (fun h => by cases h)⟩

theorem witness_EveryStepKeepsTheMachineInvariant : State.reset.Inv ∧ ∃ t, step State.reset = .next t :=
  ⟨reset_inv, _, rfl⟩

/-! ### All commands -/

theorem witness_WrittenSourcesMakeEveryCommandComplete : SourcesWritten .semiEncNum (given [5] [] [] 1)
    ∧ SourcesWritten .septPack (given [] [5] [] 1) ∧ SourcesWritten .ucs2Dec (given [] [] [5, 6] 2) := by
  refine ⟨fun b hb k hk => ?_, fun b hb k hk => ?_, fun b hb k hk => ?_⟩ <;> cases hb
  · have : k = 0 := by simp [given] at hk; omega
    subst this; rfl
  · have : k = 0 := by simp [given] at hk; omega
    subst this; rfl
  · have : k = 0 ∨ k = 1 := by simp [given] at hk; omega
    rcases this with rfl | rfl <;> rfl

theorem witness_CommandsFaultOnlyOnUnwrittenSources :
    exec .ucs2Enc (given [0x41] [] [] 2) = .fault (.unwrittenElement .txt 1) := rfl

theorem witness_ErrorsWriteNothingButStatusAndLengths :
    ∃ t, exec .semiEncNum (given [5, 100] [] [] 2) = .next t ∧ t.errCode ≠ 0 := ⟨_, rfl, by decide⟩

theorem witness_CommandFrame :
    ∃ t, exec .semiEncNum (given [5, 6] [] [] 2) = .next t ∧ storedCount .semiEncNum .oct t ≤ 2
      ∧ storedCount .semiEncNum .sep t ≤ 0 ∧ Instr.semiEncNum ≠ .semiEncTz ∧ Instr.semiEncNum ≠ .semiDecTz :=
  ⟨_, rfl, by decide, by decide, by decide, by decide⟩

theorem witness_CommandsDependOnlyOnOperandsAndSource :
    { given [5, 6] [] [] 2 with ovr := true, result := 9 }.srcLen = (given [5, 6] [] [] 2).srcLen
      ∧ (∃ t, exec .semiEncNum (given [5, 6] [] [] 2) = .next t ∧ 1 < storedCount .semiEncNum .oct t)
      ∧ (∀ b, sourceOf .semiEncNum = some b → ∀ k, readBuffer b k (given [5, 6] [] [7] 2).mem
          = readBuffer b k (given [5, 6] [] [] 2).mem)
      ∧ exec .semiEncNum (given [5] [] [] 2) = .fault (.unwrittenElement .txt 1) :=
  ⟨rfl, ⟨_, rfl, by decide⟩, fun b hb k => by cases hb; rfl, rfl⟩

/-! ### Command results -/

theorem witness_SemiEncNumStoresOneOctetPerNumber :
    512 < (given [] [] [] 513).srcLen.toNat
      ∧ (Holds (given [99, 0] [] [] 2).mem.txt [99, 0] ∧ (∀ x ∈ [(99 : Word), 0], x.toNat ≤ 99)
        ∧ [(99 : Word), 0].length = (given [99, 0] [] [] 2).srcLen.toNat)
      ∧ (Holds (given [99, 100] [] [] 2).mem.txt [99] ∧ readElem (given [99, 100] [] [] 2).mem.txt 1 = some 100)
      ∧ (Holds (given [99] [] [] 512).mem.txt [99] ∧ (given [99] [] [] 512).srcLen.toNat ≤ 512
        ∧ readElem (given [99] [] [] 512).mem.txt 1 = none) :=
  ⟨by decide +kernel, ⟨holds_stage _, by simp, by decide⟩, ⟨by unfold Holds; decide, rfl⟩, holds_stage _,
    by decide +kernel, rfl⟩

theorem witness_SemiDecNumStoresOneNumberPerOctet :
    512 < (given [] [] [] 513).srcLen.toNat
      ∧ (Holds (given [] [] [0x99] 1).mem.oct [0x99] ∧ (∀ b ∈ [(0x99 : Octet)], DigitOctet b)
        ∧ [(0x99 : Octet)].length = (given [] [] [0x99] 1).srcLen.toNat)
      ∧ (Holds (given [] [] [0x99, 0x9A] 2).mem.oct [0x99]
        ∧ readElem (given [] [] [0x99, 0x9A] 2).mem.oct 1 = some 0x9A ∧ ¬DigitOctet 0x9A ∧ ¬DigitOctet 0xA9)
      ∧ readElem (given [] [] [0x99] 2).mem.oct 1 = none := by
  unfold Holds DigitOctet; decide +kernel

theorem witness_SemiEncDigStoresPaddedDigitPairs :
    512 < (given [] [] [] 513).srcLen.toNat
      ∧ (Holds (given [9, 0, 9] [] [] 3).mem.txt [9, 0, 9] ∧ (∀ d ∈ [(9 : Word), 0, 9], d.toNat ≤ 9)
        ∧ [(9 : Word), 0, 9].length = (given [9, 0, 9] [] [] 3).srcLen.toNat)
      ∧ (Holds (given [9, 10] [] [] 2).mem.txt [9] ∧ readElem (given [9, 10] [] [] 2).mem.txt 1 = some 10)
      ∧ readElem (given [9] [] [] 2).mem.txt 1 = none :=
  ⟨by decide +kernel, ⟨holds_stage _, by simp, by decide⟩, ⟨by unfold Holds; decide, rfl⟩, rfl⟩

theorem witness_SemiDecDigReadsDigitsUpToCountOrTerminator :
    512 < (given [] [] [] 513).srcLen.toNat
      ∧ ((given [] [] [] 512 513).srcLen.toNat ≤ 512 ∧ 512 < (given [] [] [] 512 513).aux.toNat)
      ∧ (given [] [] [0x21] 1 3).srcLen.toNat < ((given [] [] [0x21] 1 3).aux.toNat + 1) / 2
      ∧ ((∀ k < [1, 2].length, nibbleAt (given [] [] [0x21] 1 2).mem.oct k = [1, 2][k]?) ∧ (∀ d ∈ [1, 2], d ≤ 9)
        ∧ ((given [] [] [0x21] 1 2).aux.toNat + 1) / 2 ≤ (given [] [] [0x21] 1 2).srcLen.toNat
        ∧ [1, 2].length = (given [] [] [0x21] 1 2).aux.toNat)
      ∧ nibbleAt (given [] [] [0x21, 0x5F] 2 4).mem.oct 2 = some 0xF
      ∧ nibbleAt (given [] [] [0x21, 0x5A] 2 4).mem.oct 2 = some 0xA
      ∧ nibbleAt (given [] [] [0x21, 0x5E] 2 4).mem.oct 2 = some 0xE
      ∧ nibbleAt (given [] [] [0x21] 2 4).mem.oct 2 = none := by decide +kernel

theorem witness_SemiEncTzWritesSignedOctet :
    79 < (given [] [] [] 0 0 80).arg.toInt.natAbs ∧ 79 < (given [] [] [] 0 0 0x80000000).arg.toInt.natAbs
      ∧ (given [] [] [] 0 0 79).arg.toInt.natAbs ≤ 79 ∧ (given [] [] [] 0 0 0xFFFFFFB1).arg.toInt.natAbs ≤ 79 := by decide

theorem witness_SemiDecTzWritesSignedCount :
    9 < (given [] [] [] 0 0 0xA0).arg.toNat % 256 / 16 ∧ (given [] [] [] 0 0 0x9F).arg.toNat % 256 / 16 ≤ 9 := by decide

theorem septetsOf_basic {k : Septet} {c : CodePoint} (h : tableAt defaultParams.basic k = some c) : SeptetsOf c [k] :=
  .inl ⟨k, mem_of_tableAt h, rfl⟩

theorem septetsOf_euro : SeptetsOf 0x20AC [0x1B, 0x65] :=
  .inr ⟨tableIndex_eq_none.mp (by decide +kernel), 0x65, mem_of_tableAt (t := defaultParams.ext) (by decide +kernel), rfl⟩

theorem unmappable_zhong : Unmappable 0x4E2D := fun k =>
  ⟨tableIndex_eq_none.mp (by decide +kernel) k, tableIndex_eq_none.mp (by decide +kernel) k⟩

theorem septetsOf_replicate (n : Nat) :
    List.Forall₂ SeptetsOf (List.replicate n 0x61) (List.replicate n [0x61]) := by
  induction n with
  | zero => exact .nil
  | succ n ih => exact .cons (septetsOf_basic (by decide +kernel)) ih

/-- A text and then one more code point, `n` of them declared. -/
def withOneMore (cs : List CodePoint) (c : CodePoint) (n : Half) : State := given (cs ++ [c]) [] [] n

theorem withOneMore_holds (cs : List CodePoint) (c : CodePoint) (n : Half) : Holds (withOneMore cs c n).mem.txt cs := by
  intro k hk
  have h : (withOneMore cs c n).mem.txt = stage [] (cs ++ [c]) := rfl
  rw [h, readElem_stage, if_pos (by rw [List.length_append]; omega), List.getElem?_append_left hk]

theorem withOneMore_next (cs : List CodePoint) (c : CodePoint) (n : Half) :
    readElem (withOneMore cs c n).mem.txt cs.length = some c := by
  have h : (withOneMore cs c n).mem.txt = stage [] (cs ++ [c]) := rfl
  rw [h, readElem_stage, if_pos (by simp), List.getElem?_append_right (Nat.le_refl _), Nat.sub_self]; rfl

/-- The same witnesses serve G7_MAP, G7_ENCODE and USSD_PACK. -/
theorem witness_G7MapTranslatesCodePoints :
    512 < (given [] [] [] 513).srcLen.toNat
      ∧ (Holds (given [0x61, 0x20AC] [] [] 2).mem.txt [0x61, 0x20AC]
        ∧ List.Forall₂ SeptetsOf [0x61, 0x20AC] [[0x61], [0x1B, 0x65]]
        ∧ [[(0x61 : Septet)], [0x1B, 0x65]].flatten.length ≤ 512
        ∧ [(0x61 : CodePoint), 0x20AC].length = (given [0x61, 0x20AC] [] [] 2).srcLen.toNat)
      ∧ (Holds (given [0x61, 0x4E2D] [] [] 2).mem.txt [0x61]
        ∧ readElem (given [0x61, 0x4E2D] [] [] 2).mem.txt 1 = some 0x4E2D ∧ Unmappable 0x4E2D)
      ∧ ((withOneMore (List.replicate 511 0x61) 0x20AC 512).srcLen.toNat ≤ 512
        ∧ Holds (withOneMore (List.replicate 511 0x61) 0x20AC 512).mem.txt (List.replicate 511 0x61)
        ∧ List.Forall₂ SeptetsOf (List.replicate 511 0x61) (List.replicate 511 [0x61])
        ∧ (List.replicate 511 [(0x61 : Septet)]).flatten.length ≤ 512
        ∧ (List.replicate 511 (0x61 : CodePoint)).length < (withOneMore (List.replicate 511 0x61) 0x20AC 512).srcLen.toNat
        ∧ readElem (withOneMore (List.replicate 511 0x61) 0x20AC 512).mem.txt
            (List.replicate 511 (0x61 : CodePoint)).length = some 0x20AC
        ∧ SeptetsOf 0x20AC [0x1B, 0x65]
        ∧ 512 < (List.replicate 511 [(0x61 : Septet)]).flatten.length + [(0x1B : Septet), 0x65].length)
      ∧ readElem (given [0x61] [] [] 2).mem.txt 1 = none :=
  ⟨by decide +kernel,
    ⟨holds_stage _, .cons (septetsOf_basic (by decide +kernel)) (.cons septetsOf_euro .nil), by decide, by decide⟩,
    ⟨by unfold Holds; decide, by decide, unmappable_zhong⟩,
    ⟨by decide +kernel, withOneMore_holds _ _ _, septetsOf_replicate 511, by decide +kernel, by decide +kernel,
      withOneMore_next _ _ _,
      septetsOf_euro, by decide +kernel⟩, rfl⟩

theorem witness_G7EncodeAndUssdPackTranslateAndPack :
    (Instr.g7Encode = .g7Encode ∨ Instr.g7Encode = .ussdPack) ∧ (Instr.ussdPack = .g7Encode ∨ Instr.ussdPack = .ussdPack)
      ∧ (Holds (given [0x61, 0x20AC] [] [] 2).mem.txt [0x61, 0x20AC]
        ∧ List.Forall₂ SeptetsOf [0x61, 0x20AC] [[0x61], [0x1B, 0x65]]) :=
  ⟨.inl rfl, .inr rfl, holds_stage _, .cons (septetsOf_basic (by decide +kernel)) (.cons septetsOf_euro .nil)⟩

theorem reads_a : Reads [0x61] [0x61] :=
  .basic (by decide) (mem_of_tableAt (by decide +kernel)) .nil

theorem reads_euro : Reads [0x61, 0x1B, 0x65] [0x61, 0x20AC] :=
  .basic (by decide) (mem_of_tableAt (by decide +kernel))
    (.ext (mem_of_tableAt (t := defaultParams.ext) (by decide +kernel)) .nil)

theorem ext_41_undefined : ∀ c, ((0x41 : Septet), c) ∉ defaultParams.ext := tableAt_eq_none.mp (by decide +kernel)

theorem witness_G7UnmapTranslatesSeptets :
    512 < (given [] [] [] 513).srcLen.toNat
      ∧ (Holds (given [] [0x61, 0x1B, 0x65] [] 3).mem.sep [0x61, 0x1B, 0x65] ∧ Reads [0x61, 0x1B, 0x65] [0x61, 0x20AC]
        ∧ [(0x61 : Septet), 0x1B, 0x65].length = (given [] [0x61, 0x1B, 0x65] [] 3).srcLen.toNat)
      ∧ (Holds (given [] [0x61] [] 2).mem.sep [0x61] ∧ Reads [0x61] [0x61]
        ∧ readElem (given [] [0x61] [] 2).mem.sep 1 = none)
      ∧ (readElem (given [] [0x61, 0x1B] [] 2).mem.sep 1 = some 0x1B
        ∧ 1 + 1 = (given [] [0x61, 0x1B] [] 2).srcLen.toNat)
      ∧ (1 + 1 < (given [] [0x61, 0x1B] [] 3).srcLen.toNat ∧ readElem (given [] [0x61, 0x1B] [] 3).mem.sep 2 = none)
      ∧ (readElem (given [] [0x61, 0x1B, 0x41] [] 3).mem.sep 2 = some 0x41
        ∧ ∀ c, ((0x41 : Septet), c) ∉ defaultParams.ext) :=
  ⟨by decide +kernel, ⟨holds_stage _, reads_euro, by decide⟩, ⟨holds_stage _, reads_a, rfl⟩, ⟨rfl, rfl⟩, ⟨by decide, rfl⟩, rfl,
    ext_41_undefined⟩

theorem witness_SeptPackStoresTheBitStream :
    512 < (given [] [] [] 513).srcLen.toNat
      ∧ (Holds (given [] [0x7F, 1] [] 2).mem.sep [0x7F, 1]
        ∧ [(0x7F : Septet), 1].length = (given [] [0x7F, 1] [] 2).srcLen.toNat)
      ∧ readElem (given [] [0x7F] [] 2).mem.sep 1 = none := by
  unfold Holds; decide +kernel

theorem witness_SeptUnpackStoresTheDeclaredSeptets :
    512 < (given [] [] [] 513).srcLen.toNat ∧ 512 < (given [] [] [] 512 513).aux.toNat
      ∧ (given [] [] [1] 1 2).srcLen.toNat < (7 * (given [] [] [1] 1 2).aux.toNat + 7) / 8
      ∧ (Holds (given [] [] [0xE8, 0x34] 2 2).mem.oct [0xE8, 0x34]
        ∧ (7 * (given [] [] [0xE8, 0x34] 2 2).aux.toNat + 7) / 8 ≤ (given [] [] [0xE8, 0x34] 2 2).srcLen.toNat
        ∧ [(0xE8 : Octet), 0x34].length = (7 * (given [] [] [0xE8, 0x34] 2 2).aux.toNat + 7) / 8)
      ∧ readElem (given [] [] [0xE8] 2 2).mem.oct 1 = none := by
  unfold Holds; decide +kernel

theorem witness_G7DecodeUnpacksAndTranslates :
    512 < (given [] [] [] 513).srcLen.toNat ∧ 512 < (given [] [] [] 512 513).aux.toNat
      ∧ (given [] [] [1] 1 2).srcLen.toNat < (7 * (given [] [] [1] 1 2).aux.toNat + 7) / 8
      ∧ readElem (given [] [] [0xE1] 2 2).mem.oct 1 = none
      ∧ (Holds (given [] [] [0xE1, 0x4D, 0x19] 3 3).mem.oct [0xE1, 0x4D, 0x19]
        ∧ Unpacks [0xE1, 0x4D, 0x19] ([0x61, 0x1B, 0x65] ++ []) ∧ Reads [0x61, 0x1B, 0x65] [0x61, 0x20AC])
      ∧ (Unpacks [0xE1, 0x4D] ([0x61] ++ [0x1B]) ∧ Reads [0x61] [0x61])
      ∧ (Unpacks [0xE1, 0x4D, 0x10] ([0x61] ++ [0x1B, 0x41]) ∧ ∀ c, ((0x41 : Septet), c) ∉ defaultParams.ext) :=
  ⟨by decide +kernel, by decide +kernel, by decide +kernel, rfl, ⟨holds_stage _, by unfold Unpacks; decide, reads_euro⟩,
    ⟨by unfold Unpacks; decide, reads_a⟩, by unfold Unpacks; decide, ext_41_undefined⟩

theorem witness_Ucs2EncStoresBigEndianUtf16 :
    512 < (given [] [] [] 513).srcLen.toNat
      ∧ (Holds (given [0xFFFF, 0x10FFFF] [] [] 2).mem.txt [0xFFFF, 0x10FFFF]
        ∧ (∀ c ∈ [(0xFFFF : CodePoint), 0x10FFFF], Utf16Encodable c)
        ∧ ([(0xFFFF : CodePoint), 0x10FFFF].flatMap utf16Octets).length ≤ 512
        ∧ [(0xFFFF : CodePoint), 0x10FFFF].length = (given [0xFFFF, 0x10FFFF] [] [] 2).srcLen.toNat)
      ∧ (readElem (given [0x68, 0xD800] [] [] 2).mem.txt 1 = some 0xD800 ∧ ¬Utf16Encodable 0xD800
        ∧ ¬Utf16Encodable 0xDFFF ∧ ¬Utf16Encodable 0x110000)
      ∧ (Holds (withOneMore (List.replicate 256 0x41) 0x41 257).mem.txt (List.replicate 256 0x41)
        ∧ readElem (withOneMore (List.replicate 256 0x41) 0x41 257).mem.txt
            (List.replicate 256 (0x41 : CodePoint)).length = some 0x41
        ∧ (∀ c ∈ List.replicate 256 (0x41 : CodePoint), Utf16Encodable c)
        ∧ ((List.replicate 256 (0x41 : CodePoint)).flatMap utf16Octets).length = 512
        ∧ 512 < 512 + (utf16Octets 0x41).length)
      ∧ readElem (given [0x68] [] [] 2).mem.txt 1 = none :=
  ⟨by decide +kernel, ⟨holds_stage _, by simp [Utf16Encodable], by decide, by decide⟩,
    ⟨rfl, by unfold Utf16Encodable; decide, by unfold Utf16Encodable; decide, by unfold Utf16Encodable; decide⟩,
    ⟨withOneMore_holds _ _ _, withOneMore_next _ _ _,
      fun c hc => by rw [List.eq_of_mem_replicate hc]; unfold Utf16Encodable; decide, by decide +kernel, by decide⟩, rfl⟩

theorem witness_Ucs2DecReadsBigEndianUtf16 :
    (512 < (given [] [] [] 513).srcLen.toNat ∧ (given [] [] [] 3).srcLen.toNat % 2 = 1)
      ∧ (Holds (given [] [] [0xD7, 0xFF, 0xD8, 0x00, 0xDC, 0x00] 6).mem.oct [0xD7, 0xFF, 0xD8, 0x00, 0xDC, 0x00]
        ∧ ReadsUtf16 [0xD7, 0xFF, 0xD8, 0x00, 0xDC, 0x00] [0xD7FF, 0x10000]
        ∧ [(0xD7 : Octet), 0xFF, 0xD8, 0x00, 0xDC, 0x00].length
          = (given [] [] [0xD7, 0xFF, 0xD8, 0x00, 0xDC, 0x00] 6).srcLen.toNat)
      ∧ (ReadsUtf16 [] [] ∧ readElem (given [] [] [] 2).mem.oct 0 = none
        ∧ readElem (given [] [] [0x00] 2).mem.oct 1 = none)
      ∧ (LowSurrogate (unitOf 0xDC 0x00) ∧ LowSurrogate (unitOf 0xDF 0xFF))
      ∧ (HighSurrogate (unitOf 0xD8 0x00) ∧ HighSurrogate (unitOf 0xDB 0xFF) ∧ 0 + 2 = (given [] [] [0xD8, 0] 2).srcLen.toNat)
      ∧ (0 + 2 < (given [] [] [0xD8, 0] 4).srcLen.toNat ∧ readElem (given [] [] [0xD8, 0] 4).mem.oct 2 = none
        ∧ readElem (given [] [] [0xD8, 0, 0] 4).mem.oct 3 = none)
      ∧ (¬LowSurrogate (unitOf 0xDB 0xFF) ∧ ¬LowSurrogate (unitOf 0xE0 0x00)) := by
  refine ⟨by decide +kernel, ⟨holds_stage _, ?_, by decide⟩, ⟨.nil, rfl, rfl⟩, ?_, ?_, ⟨by decide, rfl, rfl⟩, ?_⟩
  · exact .unit (by unfold HighSurrogate; decide) (by unfold LowSurrogate; decide)
      (.pair (by unfold HighSurrogate; decide) (by unfold LowSurrogate; decide) .nil)
  · unfold LowSurrogate; decide
  · unfold HighSurrogate; decide
  · unfold LowSurrogate; decide

/-! ### Laws -/

theorem witness_PackingAgreesWithGroupForm : 6 ≤ 6 ∧ 7 * 0 + 6 < (pack7 [1, 2, 3, 4, 5, 6, 7]).length
    ∧ 7 * 1 + 0 < (pack7 [1, 2, 3, 4, 5, 6, 7, 8, 9]).length := by decide

theorem witness_SemiOctetDecodersInvertEncoders :
    (Holds (given [99] [] [] 1).mem.txt [99] ∧ ∃ t, exec .semiEncNum (given [99] [] [] 1) = .next t)
      ∧ (Holds (given [9, 8, 7] [] [] 3).mem.txt [9, 8, 7] ∧ ∃ t, exec .semiEncDig (given [9, 8, 7] [] [] 3) = .next t)
      ∧ ((given [] [] [] 0 0 0xFFFFFFB1).arg.toInt.natAbs ≤ 79
        ∧ ∃ t, exec .semiEncTz (given [] [] [] 0 0 0xFFFFFFB1) = .next t) :=
  ⟨⟨holds_stage _, _, rfl⟩, ⟨holds_stage _, _, rfl⟩, by decide, _, rfl⟩

theorem witness_SeptUnpackInvertsSeptPack :
    (Holds (given [] [0x7F, 1] [] 2).mem.sep [0x7F, 1] ∧ ∃ t, exec .septPack (given [] [0x7F, 1] [] 2) = .next t)
      ∧ (([0x7F] : List Octet).length = (7 * 1 + 7) / 8
        ∧ ∀ p, 7 * 1 ≤ p → p < 8 * ([0x7F] : List Octet).length → octetBit [0x7F] p = false)
      ∧ (List.replicate 7 (0 : Septet)).length % 8 = 7 :=
  ⟨⟨holds_stage _, _, rfl⟩, ⟨by decide, fun p h1 h2 => by
    have : p = 7 := by simp at h1 h2; omega
    subst this; decide⟩, by decide⟩

theorem witness_G7DecodeInvertsG7Encode :
    Holds (given [0x68] [] [] 1).mem.txt [0x68] ∧ (∀ c ∈ [(0x68 : CodePoint)], ¬Unmappable c)
      ∧ ∃ t, exec .g7Encode (given [0x68] [] [] 1) = .next t ∧ t.errCode = 0 :=
  ⟨holds_stage _, fun c hc h => by
    simp only [List.mem_singleton] at hc; subst hc
    exact (h 0x68).1 (mem_of_tableAt (t := defaultParams.basic) (by decide +kernel)), _, rfl, rfl⟩

theorem witness_Ucs2DecInvertsUcs2Enc :
    Holds (given [0x1F600] [] [] 1).mem.txt [0x1F600] ∧ (∀ c ∈ [(0x1F600 : CodePoint)], Utf16Encodable c)
      ∧ ∃ t, exec .ucs2Enc (given [0x1F600] [] [] 1) = .next t ∧ t.errCode = 0 :=
  ⟨holds_stage _, by simp [Utf16Encodable], _, rfl, rfl⟩

end Sys2Proof.Tests
end

section
/-! The proofs of the family 00_scope.md: a command depends on its operand registers and its source buffer only (R17).
Both runs answer the same kernel result (`kernel_congr`), so what is left is what a completion makes of one result in
two states: the words a commit stores, and how many of them the lengths it leaves account for. -/

namespace Sys2Proof.Machine

open Sys2Proof.Claims

/-! ## What a completion stores -/

/-- The words a commit stores in a buffer, zero-extended as `readBuffer` reads them. -/
def Commit.words (c : Commit) : Buf → List Word
  | .txt => c.txt
  | .sep => c.sep.map (BitVec.setWidth 32)
  | .oct => c.oct.map (BitVec.setWidth 32)

/-- Staging a list, seen through a function of the elements. -/
theorem map_readElem_stage {w : Nat} (f : BitVec w → Word) (out : List (BitVec w)) (b : Buffer w) (k : Nat) :
    (readElem (stage b out) k).map f
      = if k < (out.map f).length then (out.map f)[k]? else (readElem b k).map f := by
  rw [readElem_stage, apply_ite (Option.map f), List.length_map, List.getElem?_map]

/-- After a commit a buffer reads as the stored words, and beyond them as before (30_encoding.md R97). -/
theorem readBuffer_commitState (c : Commit) (s : State) (b : Buf) (k : Nat) :
    readBuffer b k (commitState c s).mem
      = if k < (c.words b).length then (c.words b)[k]? else readBuffer b k s.mem := by
  cases b with
  | txt => exact readElem_stage c.txt s.mem.txt k
  | sep => exact map_readElem_stage (BitVec.setWidth 32) c.sep s.mem.sep k
  | oct => exact map_readElem_stage (BitVec.setWidth 32) c.oct s.mem.oct k

/-- The statements' list of a command's destinations is the model's (30_encoding.md R95). -/
theorem mem_destinations_iff (i : Instr) (b : Buf) : b ∈ destinations i ↔ writesBuffer i b = true := by
  cases i <;> cases b <;> decide

/-- A commit that fits its command stores in every buffer as many words as the lengths it leaves say. -/
theorem storedCount_commitState {i : Instr} {c : Commit} (hc : Fits i c) (b : Buf) (s : State) :
    storedCount i b (commitState c s) = (c.words b).length := by
  have hd : (BitVec.ofNat 16 c.dstLen).toNat = c.dstLen := by
    rw [BitVec.toNat_ofNat, Nat.mod_eq_of_lt]; have := hc.dstLen; omega
  have hl : (BitVec.ofNat 16 c.lenf).toNat = c.lenf := by
    rw [BitVec.toNat_ofNat, Nat.mod_eq_of_lt]; have := hc.lenf; omega
  cases b with
  | txt => simp [storedCount, mem_destinations_iff, Commit.words, hc.txt, hd]
  | sep => simp [storedCount, mem_destinations_iff, Commit.words, hc.sep, hl]
  | oct => simp [storedCount, mem_destinations_iff, Commit.words, hc.oct, hd]

/-- An error leaves lengths that count no stored element (60_exceptions.md R228). -/
theorem storedCount_errorState (i : Instr) (b : Buf) (e : ErrKind) (pos : Nat) (s : State) :
    storedCount i b (errorState e pos s) = 0 := by
  simp [storedCount]

/-! ## Noninterference -/

/-- Settles O38: the two states' kernels answer the same, and each way to complete a command (a commit, an error, the
model fault) leaves the same status, lengths, scalar result and stored elements in both. -/
theorem commandsDependOnlyOnOperandsAndSource : Obligations.CommandsDependOnlyOnOperandsAndSource := by
  unfold Obligations.CommandsDependOnlyOnOperandsAndSource
  intro i s s' hlen haux harg hsrc
  rw [exec_eq i s, exec_eq i s', kernel_congr defaultParams i hlen haux harg hsrc]
  rcases kernel_outcome i s with ⟨c, hk, hc⟩ | ⟨h, hk, -⟩ <;> rw [hk]
  · simp only [completeCommand_ok]
    refine ⟨nofun, ?_⟩
    rintro t ⟨⟩
    refine ⟨commitState c s', rfl, rfl, rfl, rfl, rfl, ?_, fun b k hb => ?_⟩
    · cases hr : c.result with
      | none => exact .inr (by simp [hr])
      | some r => exact .inl (by simp [hr])
    · rw [storedCount_commitState hc] at hb
      rw [readBuffer_commitState, readBuffer_commitState, if_pos hb, if_pos hb]
  · cases h with
    | raised e pos =>
      simp only [completeCommand_raised]
      refine ⟨nofun, ?_⟩
      rintro t ⟨⟩
      refine ⟨errorState e pos s', rfl, rfl, rfl, rfl, rfl, .inr ⟨rfl, rfl⟩, fun b k hb => ?_⟩
      rw [storedCount_errorState] at hb
      omega
    | unwritten b k => exact ⟨fun _ hf => hf, nofun⟩

end Sys2Proof.Machine
end

section
/-! The proofs of the family 10_state.md. The rules of sections 3 and 5 speak of every step of the machine, so what a
step can do is said once in the statements' own words (`StepEvent`, `stepEvent_of_step`): each of those proofs, and the
machine invariant, is a case analysis of that event. -/

namespace Sys2Proof.Machine

open Sys2Proof.Claims

/-! ## The host's move -/

theorem rst_of_hostMove {s : State} {op : HostOp} {rest : List HostOp} {ts : List Turn} (h : HostMove s op rest ts) :
    s.rst = false := h.2.2

theorem rst_of_completionDue {s : State} (h : CompletionDue s) : s.rst = false := h.1.1

theorem step_write {s : State} {off : Nat} {v : Word} {rest : List HostOp} {ts : List Turn}
    (h : HostMove s (wr off v) rest ts) (ho : off < 0x4000) (ha : off % 4 = 0) :
    step s = .next (hostWrite (targetOf off) v (moved s rest ts)) := by
  obtain ⟨hs, hp, hr⟩ := h
  rw [step_cons hs]
  exact hostTurn_write (s := { s with sched := ts }) hp hr ho ha

theorem step_read {s : State} {off : Nat} {rest : List HostOp} {ts : List Turn}
    (h : HostMove s (rd off) rest ts) (ho : off < 0x4000) (ha : off % 4 = 0) :
    step s = .next (deliver (hostRead (targetOf off) (moved s rest ts))) := by
  obtain ⟨hs, hp, hr⟩ := h
  rw [step_cons hs]
  exact hostTurn_read (s := { s with sched := ts }) hp hr ho ha

theorem step_write_reg (r : Reg) {s : State} {v : Word} {rest : List HostOp} {ts : List Turn}
    (h : HostMove s (wr (regOffset r) v) rest ts) :
    step s = .next (hostWrite (.reg r) v (moved s rest ts)) := by
  rw [step_write h (by cases r <;> decide) (by cases r <;> decide), targetOf_regOffset]

theorem step_read_reg (r : Reg) {s : State} {rest : List HostOp} {ts : List Turn}
    (h : HostMove s (rd (regOffset r)) rest ts) :
    step s = .next (deliver (hostRead (.reg r) (moved s rest ts))) := by
  rw [step_read h (by cases r <;> decide) (by cases r <;> decide), targetOf_regOffset]

theorem bufferOffset_element (b : Buf) {i : Nat} (hi : i < 1024) :
    bufferOffset b + 4 * i < 0x4000 ∧ (bufferOffset b + 4 * i) % 4 = 0 := by
  cases b <;> simp only [bufferOffset] <;> omega

theorem step_write_elem (b : Buf) {s : State} {i : Nat} {v : Word} {rest : List HostOp} {ts : List Turn}
    (hi : i < 1024) (h : HostMove s (wr (bufferOffset b + 4 * i) v) rest ts) :
    step s = .next (hostWrite (.elem b i) v (moved s rest ts)) := by
  rw [step_write h (bufferOffset_element b hi).1 (bufferOffset_element b hi).2, targetOf_element b hi]

theorem step_read_elem (b : Buf) {s : State} {i : Nat} {rest : List HostOp} {ts : List Turn}
    (hi : i < 1024) (h : HostMove s (rd (bufferOffset b + 4 * i)) rest ts) :
    step s = .next (deliver (hostRead (.elem b i) (moved s rest ts))) := by
  rw [step_read h (bufferOffset_element b hi).1 (bufferOffset_element b hi).2, targetOf_element b hi]

/-! ## What a host write does -/

@[simp] theorem capacityOf_eq (b : Buf) : capacityOf b = 512 := by cases b <;> rfl

theorem writeCtrl_keeps {v : Word} (h : v.getLsbD 1 = false) (s : State) :
    writeCtrl v s = { s with ie := v.getLsbD 0 } := by
  rw [writeCtrl, h]; rfl

theorem writeCtrl_resets {v : Word} (h : v.getLsbD 1 = true) (s : State) :
    writeCtrl v s = resetRegisters s := by
  rw [writeCtrl, h]; rfl

theorem writeStatus_eq (v : Word) (s : State) :
    writeStatus v s = { s with done := s.done && !v.getLsbD 1, ovr := s.ovr && !v.getLsbD 2 } := by
  rw [writeStatus]
  cases v.getLsbD 1 <;> cases v.getLsbD 2 <;> simp [clearDone]

theorem writeOperand_idle {s : State} (h : s.busy = false) (written : State) : writeOperand s written = written := by
  simp [writeOperand, h]

theorem hostWrite_elem_idle (b : Buf) {i : Nat} (hi : i < 512) (v : Word) {s : State} (h : s.busy = false) :
    hostWrite (.elem b i) v s = { s with mem := writeBuffer b i v s.mem } := by
  simp [hostWrite, writeOperand_idle h, hi]

/-- While BUSY = 1 a droppable write only sets OVR (70_reset_and_hazards.md R270). -/
theorem hostWrite_dropped {tg : Target} (hd : droppable tg = true) (v : Word) {s : State} (h : s.busy = true) :
    hostWrite tg v s = dropWrite s := by
  cases tg with
  | reserved => cases hd
  | elem b i =>
    have hi : i < 512 := by simpa [droppable] using hd
    simp [hostWrite, writeOperand, h, hi]
  | reg r =>
    cases r with
    | cmd | srcLen | aux | arg => simp only [hostWrite, writeOperand, h, if_true]
    | id | ctrl | status | dstLen | lenf | consumed | result => cases hd

theorem offset_of_dropped {off : Nat} (h : DroppedWhileBusy off) : off < 0x4000 ∧ off % 4 = 0 := by
  rcases h with rfl | rfl | rfl | rfl | ⟨i, hi, rfl | rfl | rfl⟩ <;> omega

/-- The model's droppable targets stand at the offsets R270 lists. -/
theorem droppable_targetOf_iff {off : Nat} (ho : off < 0x4000) (ha : off % 4 = 0) :
    droppable (targetOf off) = true ↔ DroppedWhileBusy off := by
  constructor
  · intro h
    cases ht : targetOf off with
    | reserved => rw [ht] at h; cases h
    | elem b i =>
      obtain ⟨rfl, -⟩ := targetOf_eq_element ho ha ht
      have hi : i < 512 := by simpa [ht, droppable] using h
      refine .inr (.inr (.inr (.inr ⟨i, hi, ?_⟩)))
      cases b <;> simp [bufferOffset]
    | reg r =>
      rw [ht] at h
      rw [targetOf_eq_reg ht]
      cases r with
      | cmd | srcLen | aux | arg => simp [DroppedWhileBusy, regOffset]
      | id | ctrl | status | dstLen | lenf | consumed | result => cases h
  · rintro (rfl | rfl | rfl | rfl | ⟨i, hi, rfl | rfl | rfl⟩)
    · rfl
    · rfl
    · rfl
    · rfl
    · rw [targetOf_txt (by omega)]; simpa [droppable] using hi
    · rw [targetOf_sep (by omega)]; simpa [droppable] using hi
    · rw [targetOf_oct (by omega)]; simpa [droppable] using hi

/-! ## What a step does, in the words of the statements -/

/-- What a step that answers a next state does: the event of section 3 it is, the condition under which that event
happens, and the state it leaves. -/
inductive StepEvent (s : State) : State → Prop where
  /-- No register and no buffer changes: the engine is idle, the host reads, polls, writes to no effect or has nothing
  left, or `rst` is deasserted. -/
  | quiet (rst : Bool) (program : List HostOp) (sched : List Turn) (readData : Option Word) (draws : Nat)
      (hrst : rst = true → s.rst = true) :
      StepEvent s { s with rst := rst, program := program, sched := sched, readData := readData, draws := draws }
  /-- An engine step that is not the last. -/
  | counted (n : Nat) (hnext : EngineNext s) (hbusy : s.busy = true) (hn : s.remaining = n + 2) :
      StepEvent s { s with sched := s.sched.tail, remaining := n + 1 }
  /-- The completion step of a command that succeeds. -/
  | committed (i : Instr) (c : Commit) (hdue : CompletionDue s) (hcmd : decode s.cmd = .command i) (hc : Fits i c) :
      StepEvent s (commitState c { s with sched := s.sched.tail, remaining := 0 })
  /-- The completion step of a command that raises. -/
  | raised (e : ErrKind) (pos : Nat) (hdue : CompletionDue s) (hpos : pos ≤ 512) :
      StepEvent s (errorState e pos { s with sched := s.sched.tail, remaining := 0 })
  /-- A reset: the pin, power-on, or a CTRL write with SRST = 1. -/
  | reset (t : State) (hreset : ResetNext s) (hregs : resetRegisters t = t)
      (hmem : t.mem = s.mem ∨ (t.mem = ⟨[], [], []⟩ ∧ ∃ ts, s.sched = .powerOnReset :: ts)) : StepEvent s t
  /-- A CTRL write with SRST = 0. -/
  | ctrl (v : Word) (rest : List HostOp) (ts : List Turn) (hmove : HostMove s (wr 0x004 v) rest ts)
      (hkeep : v.getLsbD 1 = false) :
      StepEvent s { moved s rest ts with ie := v.getLsbD 0 }
  /-- A STATUS write. -/
  | status (v : Word) (rest : List HostOp) (ts : List Turn) (hmove : HostMove s (wr 0x008 v) rest ts) :
      StepEvent s { moved s rest ts with done := s.done && !v.getLsbD 1, ovr := s.ovr && !v.getLsbD 2 }
  /-- A write dropped while BUSY = 1. -/
  | dropped (rest : List HostOp) (ts : List Turn) (hdrop : DropsAWrite s) : StepEvent s (dropWrite (moved s rest ts))
  /-- The start step of a command. -/
  | started (v : Word) (rest : List HostOp) (ts : List Turn) (hmove : HostMove s (wr 0x00C v) rest ts)
      (hidle : s.busy = false) : StepEvent s (startStep v (moved s rest ts))
  /-- A write of an operand register while BUSY = 0. -/
  | operand (srcLen aux : Half) (arg : Word) (rest : List HostOp) (ts : List Turn) (hrst : s.rst = false)
      (hidle : s.busy = false) : StepEvent s { moved s rest ts with srcLen := srcLen, aux := aux, arg := arg }
  /-- A write of an element within capacity while BUSY = 0. -/
  | element (b : Buf) (i : Nat) (v : Word) (rest : List HostOp) (ts : List Turn)
      (hmove : HostMove s (wr (bufferOffset b + 4 * i) v) rest ts) (hi : i < 512) (hidle : s.busy = false) :
      StepEvent s { moved s rest ts with mem := writeBuffer b i v s.mem }

theorem stepEvent_of_write {s : State} {off : Nat} {v : Word} {rest : List HostOp} {ts : List Turn}
    (hm : HostMove s (wr off v) rest ts) (ho : off < 0x4000) (ha : off % 4 = 0) :
    StepEvent s (hostWrite (targetOf off) v (moved s rest ts)) := by
  rcases hostWrite_cases (targetOf off) v (moved s rest ts) with
    h | ⟨ht, h⟩ | ⟨ht, h⟩ | ⟨hb, hd, h⟩ | ⟨hb, ht, h⟩ | ⟨hb, a, b, c, h⟩ | ⟨hb, b, i, ht, hi, h⟩ <;> rw [h]
  · exact .quiet s.rst rest ts s.readData s.draws id
  · obtain rfl : off = 0x004 := targetOf_eq_reg ht
    cases hv : v.getLsbD 1 with
    | false => rw [writeCtrl_keeps hv]; exact .ctrl v rest ts hm hv
    | true =>
      rw [writeCtrl_resets hv]
      exact .reset _ (.inr ⟨v, ⟨rest, ts, hm⟩, hv⟩) rfl (.inl rfl)
  · obtain rfl : off = 0x008 := targetOf_eq_reg ht
    rw [writeStatus_eq]; exact .status v rest ts hm
  · exact .dropped rest ts ⟨hb, off, v, ⟨rest, ts, hm⟩, (droppable_targetOf_iff ho ha).mp hd⟩
  · obtain rfl : off = 0x00C := targetOf_eq_reg ht
    exact .started v rest ts hm hb
  · exact .operand a b c rest ts (rst_of_hostMove hm) hb
  · obtain ⟨rfl, -⟩ := targetOf_eq_element ho ha ht
    exact .element b i v rest ts hm (by simpa using hi) hb

theorem stepEvent_of_hostTurn {s t : State} {ts : List Turn} (hs : s.sched = .host :: ts)
    (h : hostTurn { s with sched := ts } = .next t) : StepEvent s t := by
  rcases hostTurn_cases h with ⟨-, rfl⟩ | ⟨off, v, rest, hp, hr, ho, ha, rfl⟩ | ⟨off, rest, -, -, -, -, rfl⟩ |
    ⟨rest, -, -, rfl⟩
  · exact .quiet s.rst s.program ts s.readData s.draws id
  · exact stepEvent_of_write ⟨hs, hp, hr⟩ ho ha
  · obtain ⟨d, n, he⟩ := deliver_hostRead (targetOf off) { s with sched := ts, program := rest }
    rw [he]; exact .quiet s.rst rest ts (some d) n id
  · rw [pollStatus_eq]; exact .quiet s.rst _ ts _ s.draws id

theorem stepEvent_of_engineTurn {s t : State} (hs : s.sched = [] ∨ ∃ ts, s.sched = .engine :: ts)
    (h : engineTurn { s with sched := s.sched.tail } = .next t) : StepEvent s t := by
  rcases engineTurn_cases h with ⟨-, rfl⟩ | ⟨hr, hb, n, hn, rfl⟩ | ⟨hr, hb, hn, hc⟩
  · exact .quiet s.rst s.program s.sched.tail s.readData s.draws id
  · exact .counted n ⟨hr, hs⟩ hb hn
  · rcases completionStep_cases hc with ⟨i, c, hd, hf, rfl⟩ | ⟨e, pos, hp, rfl⟩
    · exact .committed i c ⟨⟨hr, hs⟩, hb, hn⟩ hd hf
    · exact .raised e pos ⟨⟨hr, hs⟩, hb, hn⟩ hp

/-- Every step that answers a next state is one of the events. -/
theorem stepEvent_of_step {s t : State} (h : step s = .next t) : StepEvent s t := by
  rcases step_cases h with ⟨hs, he⟩ | ⟨ts, hs, hh⟩ | ⟨ts, hs, rfl⟩ | ⟨ts, hs, rfl⟩ | ⟨ts, -, rfl⟩
  · exact stepEvent_of_engineTurn hs he
  · exact stepEvent_of_hostTurn hs hh
  · exact .reset _ (.inl ⟨ts, .inr hs⟩) rfl (.inr ⟨rfl, ts, hs⟩)
  · exact .reset _ (.inl ⟨ts, .inl hs⟩) rfl (.inl rfl)
  · exact .quiet false s.program ts s.readData s.draws nofun

/-! ## The machine invariant -/

theorem Fits.txt_le {i : Instr} {c : Commit} (h : Fits i c) : c.txt.length ≤ 512 := by
  have := h.txt; have := h.dstLen; split_ifs at * <;> omega

theorem Fits.sep_le {i : Instr} {c : Commit} (h : Fits i c) : c.sep.length ≤ 512 := by
  have := h.sep; have := h.lenf; split_ifs at * <;> omega

theorem Fits.oct_le {i : Instr} {c : Commit} (h : Fits i c) : c.oct.length ≤ 512 := by
  have := h.oct; have := h.dstLen; split_ifs at * <;> omega

theorem toNat_half_le {n : Nat} (h : n ≤ 512) : (BitVec.ofNat 16 n).toNat ≤ 512 := by
  rw [BitVec.toNat_ofNat]; omega

theorem errCodeOf_le (e : ErrKind) : (errCodeOf e).toNat ≤ 6 := by cases e <;> decide

/-- A state whose registers are all at their reset values meets the invariant, if its memory is canonical. -/
theorem inv_of_resetRegisters {t : State} (h : resetRegisters t = t) (hm : t.mem.wf = true) : t.Inv := by
  rw [← h]
  exact ⟨hm, by simp, nofun, by simp, by simp, by simp⟩

/-- Settles O32: after power-on every register is at its reset value and the buffers are empty. -/
theorem resetMeetsTheMachineInvariant : Obligations.ResetMeetsTheMachineInvariant := by
  unfold Obligations.ResetMeetsTheMachineInvariant
  exact inv_of_resetRegisters rfl rfl

theorem StepEvent.inv {s t : State} (hs : s.Inv) (he : StepEvent s t) : t.Inv := by
  obtain ⟨hmem, herr, hpend, hfail, hlen, hres⟩ := hs
  cases he with
  | quiet r p ts d n hr => exact ⟨hmem, herr, hpend, hfail, hlen, fun h => hres (hr h)⟩
  | counted n hnext hbusy hn =>
    obtain ⟨hd, he, -⟩ := hpend hbusy
    exact ⟨hmem, herr, fun _ => ⟨hd, he, by simp⟩, hfail, hlen, hres⟩
  | committed i c hdue hcmd hc =>
    have hr := rst_of_completionDue hdue
    exact ⟨Memory.wf_commit hmem hc.txt_le hc.sep_le hc.oct_le, by simp, nofun, by simp,
      ⟨toNat_half_le hc.dstLen, toNat_half_le hc.lenf, toNat_half_le hc.consumed⟩, by simp [hr]⟩
  | raised e pos hdue hpos =>
    have hr := rst_of_completionDue hdue
    exact ⟨hmem, errCodeOf_le e, nofun, fun _ => ⟨rfl, rfl⟩, ⟨by simp, by simp, toNat_half_le hpos⟩, by simp [hr]⟩
  | reset t hreset hregs hm =>
    refine inv_of_resetRegisters hregs ?_
    rcases hm with hm | ⟨hm, -⟩ <;> rw [hm]
    · exact hmem
    · rfl
  | ctrl v rest ts hmove =>
    have hr := rst_of_hostMove hmove
    exact ⟨hmem, herr, hpend, hfail, hlen, by simp [moved, hr]⟩
  | status v rest ts hmove =>
    have hr := rst_of_hostMove hmove
    refine ⟨hmem, herr, fun hb => ?_, hfail, hlen, by simp [moved, hr]⟩
    obtain ⟨hd, he, hn⟩ := hpend hb
    exact ⟨by simp [hd], he, hn⟩
  | dropped rest ts hdrop =>
    obtain ⟨-, off, v, ⟨rest', ts', hmove⟩, -⟩ := hdrop
    have hr := rst_of_hostMove hmove
    exact ⟨hmem, herr, hpend, hfail, hlen, by simp [moved, hr]⟩
  | started v rest ts hmove hidle =>
    have hr := rst_of_hostMove hmove
    exact ⟨hmem, by simp, fun _ => ⟨rfl, rfl, by simp⟩, by simp, hlen, by simp [moved, hr]⟩
  | operand a b c rest ts hr hidle =>
    exact ⟨hmem, herr, hpend, hfail, hlen, by simp [moved, hr]⟩
  | element b i v rest ts hmove hi hidle =>
    have hr := rst_of_hostMove hmove
    exact ⟨Memory.wf_writeBuffer hmem b (by simpa using hi) v, herr, hpend, hfail, hlen, by simp [moved, hr]⟩

/-- Settles O33: whatever event the step is, the state it leaves meets the invariant. -/
theorem everyStepKeepsTheMachineInvariant : Obligations.EveryStepKeepsTheMachineInvariant := by
  unfold Obligations.EveryStepKeepsTheMachineInvariant
  exact fun s t hs h => (stepEvent_of_step h).inv hs

/-! ## What the listed events leave -/

/-- A reset leaves every register at its reset value (70_reset_and_hazards.md R261). -/
theorem resetRegisters_of_reset {s t : State} (hr : ResetNext s) (h : step s = .next t) : resetRegisters t = t := by
  rcases hr with ⟨ts, hs | hs⟩ | ⟨v, ⟨rest, ts, hm⟩, hv⟩
  · rw [step_cons hs] at h; cases h; rfl
  · rw [step_cons hs] at h; cases h; rfl
  · rw [step_write_reg .ctrl hm, hostWrite, writeCtrl_resets hv] at h; cases h; rfl

/-- A completion step leaves BUSY 0 and DONE 1, whether the command succeeded or raised (R33, R34). -/
theorem flags_of_completion {s t : State} (hd : CompletionDue s) (h : step s = .next t) :
    t.busy = false ∧ t.done = true := by
  obtain ⟨⟨hr, hs⟩, hb, hn⟩ := hd
  rw [step_complete hs hr hb hn] at h
  rcases completionStep_cases h with ⟨i, c, -, -, rfl⟩ | ⟨e, pos, -, rfl⟩ <;> exact ⟨rfl, rfl⟩

theorem step_of_start {s : State} {v : Word} {rest : List HostOp} {ts : List Turn} (hi : s.busy = false)
    (hm : HostMove s (wr 0x00C v) rest ts) : step s = .next (startStep v (moved s rest ts)) := by
  rw [step_write_reg .cmd hm, hostWrite, writeOperand_idle (s := moved s rest ts) hi]

theorem step_of_statusWrite {s : State} {v : Word} {rest : List HostOp} {ts : List Turn}
    (hm : HostMove s (wr 0x008 v) rest ts) :
    step s = .next { moved s rest ts with done := s.done && !v.getLsbD 1, ovr := s.ovr && !v.getLsbD 2 } := by
  rw [step_write_reg .status hm, hostWrite, writeStatus_eq]; rfl

theorem ovr_of_drop {s t : State} (hd : DropsAWrite s) (h : step s = .next t) : t.ovr = true := by
  obtain ⟨hb, off, v, ⟨rest, ts, hm⟩, ho⟩ := hd
  obtain ⟨hlt, ha⟩ := offset_of_dropped ho
  rw [step_write hm hlt ha,
    hostWrite_dropped ((droppable_targetOf_iff hlt ha).mpr ho) v (s := moved s rest ts) hb] at h
  cases h; rfl

theorem done_of_clear {s t : State} (hc : ClearsDone s) (h : step s = .next t) : t.done = false := by
  rcases hc with ⟨hi, v, rest, ts, hm⟩ | ⟨v, ⟨rest, ts, hm⟩, hv⟩ | hr
  · rw [step_of_start hi hm] at h; cases h; rfl
  · rw [step_of_statusWrite hm, hv] at h; cases h; simp
  · rw [← resetRegisters_of_reset hr h]; rfl

theorem ovr_of_clear {s t : State} (hc : ClearsOvr s) (h : step s = .next t) : t.ovr = false := by
  rcases hc with ⟨v, ⟨rest, ts, hm⟩, hv⟩ | hr
  · rw [step_of_statusWrite hm, hv] at h; cases h; simp
  · rw [← resetRegisters_of_reset hr h]; rfl

/-! ## BUSY, DONE, OVR -/

theorem StepEvent.busy_rise {s t : State} (he : StepEvent s t) (h0 : s.busy = false) (h1 : t.busy = true) :
    ∃ v, HostMakes s (wr 0x00C v) := by
  cases he with
  | started v rest ts hmove => exact ⟨v, rest, ts, hmove⟩
  | committed | raised => cases h1
  | reset t _ hregs => rw [← hregs] at h1; cases h1
  | quiet | counted | ctrl | status | dropped | operand | element => exact absurd (h0.symm.trans h1) (by decide)

theorem StepEvent.busy_fall {s t : State} (he : StepEvent s t) (h0 : s.busy = true) (h1 : t.busy = false) :
    CompletionDue s ∨ ResetNext s := by
  cases he with
  | committed i c hdue => exact .inl hdue
  | raised e pos hdue => exact .inl hdue
  | reset t hreset => exact .inr hreset
  | started => cases h1
  | quiet | counted | ctrl | status | dropped | operand | element => exact absurd (h0.symm.trans h1) (by decide)

theorem StepEvent.done_rise {s t : State} (he : StepEvent s t) (h0 : s.done = false) (h1 : t.done = true) :
    CompletionDue s := by
  cases he with
  | committed i c hdue => exact hdue
  | raised e pos hdue => exact hdue
  | started => cases h1
  | reset t _ hregs => rw [← hregs] at h1; cases h1
  | status => simp [h0] at h1
  | quiet | counted | ctrl | dropped | operand | element => exact absurd (h0.symm.trans h1) (by decide)

theorem StepEvent.done_fall {s t : State} (he : StepEvent s t) (h0 : s.done = true) (h1 : t.done = false) :
    ClearsDone s := by
  cases he with
  | started v rest ts hmove hidle => exact .inl ⟨hidle, v, rest, ts, hmove⟩
  | status v rest ts hmove =>
    have hv : v.getLsbD 1 = true := by rw [h0] at h1; simpa only [Bool.true_and, Bool.not_eq_false'] using h1
    exact .inr (.inl ⟨v, ⟨rest, ts, hmove⟩, hv⟩)
  | reset t hreset => exact .inr (.inr hreset)
  | committed | raised => cases h1
  | quiet | counted | ctrl | dropped | operand | element => exact absurd (h0.symm.trans h1) (by decide)

theorem StepEvent.ovr_rise {s t : State} (he : StepEvent s t) (h0 : s.ovr = false) (h1 : t.ovr = true) :
    DropsAWrite s := by
  cases he with
  | dropped rest ts hdrop => exact hdrop
  | status => simp [h0] at h1
  | reset t _ hregs => rw [← hregs] at h1; cases h1
  | quiet | counted | committed | raised | ctrl | started | operand | element =>
    exact absurd (h0.symm.trans h1) (by decide)

theorem StepEvent.ovr_fall {s t : State} (he : StepEvent s t) (h0 : s.ovr = true) (h1 : t.ovr = false) :
    ClearsOvr s := by
  cases he with
  | status v rest ts hmove =>
    have hv : v.getLsbD 2 = true := by rw [h0] at h1; simpa only [Bool.true_and, Bool.not_eq_false'] using h1
    exact .inl ⟨v, ⟨rest, ts, hmove⟩, hv⟩
  | reset t hreset => exact .inr hreset
  | dropped => cases h1
  | quiet | counted | committed | raised | ctrl | started | operand | element =>
    exact absurd (h0.symm.trans h1) (by decide)

/-- Settles O25: a start step leaves BUSY 1, a completion and a reset leave it 0, and every other event keeps it. -/
theorem busyRisesAtStartAndFallsAtCompletionOrReset : Obligations.BusyRisesAtStartAndFallsAtCompletionOrReset := by
  unfold Obligations.BusyRisesAtStartAndFallsAtCompletionOrReset
  intro s t h
  have he := stepEvent_of_step h
  refine ⟨fun h0 => ⟨he.busy_rise h0, ?_⟩, fun h0 => ⟨he.busy_fall h0, ?_⟩⟩
  · rintro ⟨v, rest, ts, hm⟩
    rw [step_of_start h0 hm] at h; cases h; rfl
  · rintro (hd | hr)
    · exact (flags_of_completion hd h).1
    · rw [← resetRegisters_of_reset hr h]; rfl

/-- Settles O26: only a completion sets DONE, only the three events of `ClearsDone` clear it, and each of them does. -/
theorem doneRisesOnlyAtCompletion : Obligations.DoneRisesOnlyAtCompletion := by
  unfold Obligations.DoneRisesOnlyAtCompletion
  intro s t h
  have he := stepEvent_of_step h
  exact ⟨fun hd => (flags_of_completion hd h).2, he.done_rise, fun hc => done_of_clear hc h, he.done_fall⟩

/-- Settles O27: only a dropped write sets OVR, only a STATUS write and a reset clear it, and each of them does. -/
theorem ovrIsStickyUntilClearedOrReset : Obligations.OvrIsStickyUntilClearedOrReset := by
  unfold Obligations.OvrIsStickyUntilClearedOrReset
  intro s t h
  have he := stepEvent_of_step h
  exact ⟨fun hd => ovr_of_drop hd h, he.ovr_rise, fun hc => ovr_of_clear hc h, he.ovr_fall⟩

/-! ## RESULT and the pending operands -/

/-- Settles O28: of the events only a commit and a reset write RESULT, and only a time-zone command's commit has a
scalar result. -/
theorem resultChangesOnlyByTimeZoneCommandsOrReset : Obligations.ResultChangesOnlyByTimeZoneCommandsOrReset := by
  unfold Obligations.ResultChangesOnlyByTimeZoneCommandsOrReset
  intro s t h hne
  cases stepEvent_of_step h with
  | committed i c hdue hcmd hc =>
    have hw : s.cmd = encode i := encode_of_decode hcmd
    by_cases h1 : i = .semiEncTz
    · subst h1; exact .inl ⟨hdue, .inl hw, rfl⟩
    · by_cases h2 : i = .semiDecTz
      · subst h2; exact .inl ⟨hdue, .inr hw, rfl⟩
      · exact absurd (by simp [hc.result h1 h2]) hne
  | reset t hreset => exact .inr hreset
  | quiet | counted | raised | ctrl | status | dropped | started | operand | element => exact absurd rfl hne

/-- Settles O30: of the events possible while BUSY = 1 only a completion and a reset touch these fields, and both leave
BUSY 0. -/
theorem pendingOperandsStayConstant : Obligations.PendingOperandsStayConstant := by
  unfold Obligations.PendingOperandsStayConstant
  intro s t h h0 h1
  cases stepEvent_of_step h with
  | committed | raised => cases h1
  | reset t _ hregs => rw [← hregs] at h1; cases h1
  | started v rest ts hmove hidle => exact absurd (h0.symm.trans hidle) (by decide)
  | operand a b c rest ts hrst hidle => exact absurd (h0.symm.trans hidle) (by decide)
  | element b i v rest ts hmove hi hidle => exact absurd (h0.symm.trans hidle) (by decide)
  | quiet | counted | ctrl | status | dropped => exact ⟨rfl, rfl, rfl, rfl, rfl, rfl, rfl, rfl, rfl⟩

/-! ## Commands -/

/-- Settles O35: the third way a command can end (`exec_outcome`) is its only fault. -/
theorem commandsFaultOnlyOnUnwrittenSources : Obligations.CommandsFaultOnlyOnUnwrittenSources := by
  unfold Obligations.CommandsFaultOnlyOnUnwrittenSources
  intro i s
  rcases exec_outcome i s with ⟨c, -, he⟩ | ⟨e, pos, -, -, he⟩ | ⟨b, k, hs, hk, hn, he⟩ <;> rw [he]
  · exact ⟨nofun, nofun⟩
  · exact ⟨nofun, nofun⟩
  · refine ⟨nofun, ?_⟩
    rintro b' k' ⟨⟩
    exact ⟨hs, hk, hn⟩

theorem kept_commitState (c : Commit) (s : State) : Kept s (commitState c s) := by simp [Kept]

theorem kept_errorState (e : ErrKind) (pos : Nat) (s : State) : Kept s (errorState e pos s) := by simp [Kept]

/-- Settles O37: a commit stores in each buffer the words its lengths count and no further, an error stores none. -/
theorem commandFrame : Obligations.CommandFrame := by
  unfold Obligations.CommandFrame
  intro i s t h
  rcases exec_outcome i s with ⟨c, hc, he⟩ | ⟨e, pos, -, -, he⟩ | ⟨b, k, -, -, -, he⟩ <;> rw [he] at h <;> cases h
  · refine ⟨kept_commitState c s, rfl, rfl, fun h1 h2 => by simp [hc.result h1 h2], fun b k hk => ?_⟩
    rw [storedCount_commitState hc] at hk
    rw [readBuffer_commitState, if_neg (by omega)]
  · exact ⟨kept_errorState e pos s, rfl, rfl, fun _ _ => rfl, fun _ _ _ => rfl⟩

/-! ## Accesses while idle -/

theorem step_write_elem_idle (b : Buf) {s : State} {i : Nat} {v : Word} {rest : List HostOp} {ts : List Turn}
    (hi : i < 512) (h : HostMove s (wr (bufferOffset b + 4 * i) v) rest ts) (hb : s.busy = false) :
    step s = .next { moved s rest ts with mem := writeBuffer b i v s.mem } := by
  rw [step_write_elem b (by omega) h, hostWrite_elem_idle b hi v (s := moved s rest ts) hb]; rfl

/-- Settles O13: each write goes through to its operand field or its element, whose buffer reads back by
`readElem_writeElem`. -/
theorem writesWhileIdleStoreTheLowBits : Obligations.WritesWhileIdleStoreTheLowBits := by
  unfold Obligations.WritesWhileIdleStoreTheLowBits
  intro s off v rest ts hm hb
  have reg (r : Reg) (ho : off = regOffset r) : step s = .next (hostWrite (.reg r) v (moved s rest ts)) :=
    step_write_reg r (ho ▸ hm)
  have elem (b : Buf) {i : Nat} (hi : i < 512) (ho : off = bufferOffset b + 4 * i) :
      step s = .next { moved s rest ts with mem := writeBuffer b i v s.mem } :=
    step_write_elem_idle b hi (ho ▸ hm) hb
  have idle (written : State) : writeOperand (moved s rest ts) written = written :=
    writeOperand_idle (s := moved s rest ts) hb written
  have low (w : Nat) : v.setWidth w = BitVec.ofNat w v.toNat := (BitVec.ofNat_toNat w v).symm
  refine ⟨fun ho => ?_, fun ho => ?_, fun ho => ?_, fun i hi => ⟨fun ho => ?_, fun ho => ?_, fun ho => ?_⟩⟩
  · rw [reg .srcLen ho, hostWrite, idle, low]
  · rw [reg .aux ho, hostWrite, idle, low]
  · rw [reg .arg ho, hostWrite, idle]
  · exact ⟨_, elem .txt hi ho, fun k => readElem_writeElem _ i k v⟩
  · exact ⟨_, elem .sep hi ho, fun k => low 7 ▸ readElem_writeElem _ i k _⟩
  · exact ⟨_, elem .oct hi ho, fun k => low 8 ▸ readElem_writeElem _ i k _⟩

/-- A register as the number a read returns while BUSY = 0 (10_state.md R21 to R32). -/
def regValue (s : State) : Reg → Nat
  | .id => 0x47534D01
  | .ctrl => s.ie.toNat
  | .status => statusValue s
  | .cmd => s.cmd.toNat
  | .srcLen => s.srcLen.toNat
  | .aux => s.aux.toNat
  | .arg => s.arg.toNat
  | .dstLen => s.dstLen.toNat
  | .lenf => s.lenf.toNat
  | .consumed => s.consumed.toNat
  | .result => s.result.toNat

theorem ctrlWord_eq (s : State) : ctrlWord s = BitVec.ofNat 32 s.ie.toNat := by
  cases h : s.ie <;> simp [ctrlWord, bit, h]

theorem statusWord_eq (s : State) : statusWord s = BitVec.ofNat 32 (statusValue s) := by
  rw [statusValue, ← statusWord_toNat, BitVec.ofNat_toNat, BitVec.setWidth_eq]

theorem readResultReg_idle {w : Nat} (x : BitVec w) {s : State} (h : s.busy = false) :
    readResultReg x s = ⟨BitVec.ofNat 32 x.toNat, s⟩ := by
  simp [readResultReg, h]

theorem hostRead_reg_idle (r : Reg) {s : State} (h : s.busy = false) :
    hostRead (.reg r) s = ⟨BitVec.ofNat 32 (regValue s r), s⟩ := by
  cases r with
  | id => rfl
  | ctrl => rw [hostRead, ctrlWord_eq]; rfl
  | status => rw [hostRead, statusWord_eq]; rfl
  | cmd | srcLen | aux | arg => simp [hostRead, regValue]
  | dstLen | lenf | consumed | result => exact readResultReg_idle _ h

theorem pendingWrites_idle (b : Buf) {s : State} (h : s.busy = false) : pendingWrites s b = false := by
  rw [pendingWrites, h]; cases decode s.cmd <;> rfl

theorem hostRead_elem_idle (b : Buf) {i : Nat} (hi : i < 512) {v : Word} {s : State} (h : s.busy = false)
    (hv : readBuffer b i s.mem = some v) : hostRead (.elem b i) s = ⟨v, s⟩ := by
  simp [hostRead, readElement, pendingWrites_idle b h, hv, hi]

theorem hostRead_elem_beyond (b : Buf) {i : Nat} (hi : 512 ≤ i) (s : State) : hostRead (.elem b i) s = ⟨0, s⟩ := by
  simp [hostRead, readElement, hi]

/-- An element never written reads as a free value of its width, a destination of the pending command or not. -/
theorem hostRead_elem_unwritten (b : Buf) {i : Nat} (hi : i < 512) {s : State} (hv : readBuffer b i s.mem = none) :
    hostRead (.elem b i) s = drawRead (elemWidth b) s := by
  simp [hostRead, readElement, hv, hi]

/-- A draw fits its width. -/
theorem drawRead_data_lt (w : Nat) (s : State) : (drawRead w s).data.toNat < 2 ^ w := by
  rw [drawRead, BitVec.toNat_setWidth]
  exact Nat.lt_of_le_of_lt (Nat.mod_le _ _) (drawBits w s).isLt

/-- Settles O17: the offsets are those of a register, a reserved word, an element within capacity or one beyond it. -/
theorem readsWhileIdleReturnTheStoredValues : Obligations.ReadsWhileIdleReturnTheStoredValues := by
  unfold Obligations.ReadsWhileIdleReturnTheStoredValues
  intro s off rest ts hm hb n h
  have reg (r : Reg) (ho : off = regOffset r ∧ n = regValue s r) :
      step s = .next { moved s rest ts with readData := some (BitVec.ofNat 32 n) } := by
    obtain ⟨rfl, rfl⟩ := ho
    rw [step_read_reg r hm, hostRead_reg_idle r (s := moved s rest ts) hb]; rfl
  have elem (b : Buf) {i : Nat} (hi : i < 512) (hv : readBuffer b i s.mem = some (BitVec.ofNat 32 n))
      (ho : off = bufferOffset b + 4 * i) :
      step s = .next { moved s rest ts with readData := some (BitVec.ofNat 32 n) } := by
    subst ho
    rw [step_read_elem b (by omega) hm, hostRead_elem_idle b hi (s := moved s rest ts) hb hv]; rfl
  have beyond (b : Buf) {i : Nat} (hi : 512 ≤ i) (hlt : i < 1024) (hn : n = 0) (ho : off = bufferOffset b + 4 * i) :
      step s = .next { moved s rest ts with readData := some (BitVec.ofNat 32 n) } := by
    subst ho hn
    rw [step_read_elem b hlt hm, hostRead_elem_beyond b hi]; rfl
  rcases h with h | h | h | h | h | h | h | h | h | h | h | ⟨h1, h2, ha, rfl⟩ | ⟨i, hi, v, ho, hv, rfl⟩ |
    ⟨i, hi, v, ho, hv, rfl⟩ | ⟨i, hi, v, ho, hv, rfl⟩ | ⟨i, hi, hlt, hn, ho | ho | ho⟩
  · exact reg .id h
  · exact reg .ctrl h
  · exact reg .status h
  · exact reg .cmd h
  · exact reg .srcLen h
  · exact reg .aux h
  · exact reg .arg h
  · exact reg .dstLen h
  · exact reg .lenf h
  · exact reg .consumed h
  · exact reg .result h
  · rw [step_read hm (by omega) ha, targetOf_reserved h1 h2]; rfl
  · exact elem .txt hi (by simp [readBuffer, hv]) ho
  · exact elem .sep hi (by simp [readBuffer, hv]) ho
  · exact elem .oct hi (by simp [readBuffer, hv]) ho
  · exact beyond .txt hi hlt hn ho
  · exact beyond .sep hi hlt hn ho
  · exact beyond .oct hi hlt hn ho

/-- Settles O19: the read draws a free value, whatever is pending, and the draw has the element's width. -/
theorem readOfUnwrittenElementCompletes : Obligations.ReadOfUnwrittenElementCompletes := by
  unfold Obligations.ReadOfUnwrittenElementCompletes
  intro s off i rest ts hm hi
  have elem (b : Buf) (hv : readBuffer b i s.mem = none) (ho : off = bufferOffset b + 4 * i) :
      step s = .next { moved s rest ts with
        readData := some (drawRead (elemWidth b) (moved s rest ts)).data, draws := s.draws + 1 } := by
    subst ho
    rw [step_read_elem b (by omega) hm, hostRead_elem_unwritten b hi (s := moved s rest ts) hv]; rfl
  refine ⟨fun ho hv => ?_, fun ho hv => ?_, fun ho hv => ?_⟩
  · exact ⟨_, elem .txt hv ho⟩
  · exact ⟨_, drawRead_data_lt _ _, elem .sep (by simp [readBuffer, hv]) ho⟩
  · exact ⟨_, drawRead_data_lt _ _, elem .oct (by simp [readBuffer, hv]) ho⟩

end Sys2Proof.Machine
end

section
/-! The proofs of the family 20_memory.md: a host access is admitted or refused before the block is touched (R64), and
an admitted read touches only the model's own record of the outside (R67). -/

namespace Sys2Proof.Machine

open Sys2Proof.Claims

/-- An access that is not admitted makes its step a refusal, write or read. -/
theorem step_refused {s : State} {addr : Nat} {size : AccessSize} {v : Word} {rest : List HostOp} {ts : List Turn}
    {why : Refusal}
    (h : HostMove s (.write addr size v) rest ts ∨ HostMove s (.read addr size) rest ts)
    (ha : admission addr size s = .error why) : step s = .refused why := by
  rcases h with ⟨hs, hp, -⟩ | ⟨hs, hp, -⟩
  · rw [step_cons hs]; exact hostTurn_refused (s := { s with sched := ts }) (v := v) (.inl hp) ha
  · rw [step_cons hs]; exact hostTurn_refused (s := { s with sched := ts }) (v := v) (.inr hp) ha

/-- Settles O20: a read that is not admitted has no next state, and an admitted one only delivers its word. -/
theorem readsChangeNoBlockState : Obligations.ReadsChangeNoBlockState := by
  unfold Obligations.ReadsChangeNoBlockState
  intro s t addr size rest ts hm h
  cases ha : admission addr size s with
  | error why => rw [step_refused (v := 0) (.inr hm) ha] at h; cases h
  | ok off =>
    obtain ⟨-, rfl, rfl, ho, hal⟩ := admission_eq_ok ha
    rw [step_read hm ho hal] at h
    cases h
    exact deliver_hostRead (targetOf off) (moved s rest ts)

/-- Settles O21: an aligned word access is admitted whatever it reaches, and a refused one is refused for what
`admission` says of its width or its alignment. -/
theorem onlyAlignedWordAccessesAreAdmitted : Obligations.OnlyAlignedWordAccessesAreAdmitted := by
  unfold Obligations.OnlyAlignedWordAccessesAreAdmitted
  intro s off size v rest ts ho hm
  have hr : s.rst = false := hm.elim rst_of_hostMove rst_of_hostMove
  refine ⟨?_, fun hs => step_refused hm (admission_narrow hr ho hs), ?_⟩
  · rintro rfl hal
    rcases hm with hw | hrd
    · exact ⟨_, step_write hw ho hal⟩
    · exact ⟨_, step_read hrd ho hal⟩
  · rintro rfl hal
    exact step_refused hm (admission_misaligned hr ho hal)

end Sys2Proof.Machine
end

section
/-! The proofs of the family 30_encoding.md. A command word is told by its number alone (R92, R93): it equals a row of the
opcode map, or lies in one of the ranges the map leaves out. The rest is one turn of the host or of the engine (R96 to
R100), each said once as a lemma about `step` under the statements' own hypotheses. -/

namespace Sys2Proof.Machine

open Sys2Proof.Claims

/-! ## The command word -/

theorem encode_toNat (i : Instr) : (encode i).toNat = opcode i := by cases i <;> rfl

theorem decode_eq_command_iff {w : Word} {i : Instr} : decode w = .command i ↔ w = encode i :=
  Laws.CommandWord.decode_iff i w

/-- A word selects a command exactly when its number is the command's row of the opcode map. -/
theorem decode_eq_command_iff_toNat {w : Word} {i : Instr} : decode w = .command i ↔ w.toNat = opcode i := by
  rw [decode_eq_command_iff, ← encode_toNat, BitVec.toNat_inj]

theorem decode_illegal_iff_forall_ne {w : Word} :
    (∃ why, decode w = .illegal why) ↔ ∀ i, decode w ≠ .command i := by
  cases decode w <;> simp

/-- The ranges of R93 are what the opcode map leaves out: within each family the functions run from 0 without a gap. -/
theorem illegalWordValue_iff {n : Nat} : IllegalWordValue n ↔ ∀ i, n ≠ opcode i := by
  constructor
  · intro h i
    unfold IllegalWordValue at h
    cases i <;> simp only [opcode] <;> omega
  · intro h
    have control : n ≠ 0x00 := h .nop
    have semiOctet : ¬(0x10 ≤ n ∧ n ≤ 0x15) := by
      rintro ⟨hl, hu⟩
      interval_cases n
      exacts [h .semiEncNum rfl, h .semiDecNum rfl, h .semiEncDig rfl, h .semiDecDig rfl, h .semiEncTz rfl,
        h .semiDecTz rfl]
    have gsm7 : ¬(0x20 ≤ n ∧ n ≤ 0x26) := by
      rintro ⟨hl, hu⟩
      interval_cases n
      exacts [h .g7Map rfl, h .g7Unmap rfl, h .septPack rfl, h .septUnpack rfl, h .g7Encode rfl, h .g7Decode rfl,
        h .ussdPack rfl]
    have ucs2 : ¬(0x30 ≤ n ∧ n ≤ 0x31) := by
      rintro ⟨hl, hu⟩
      interval_cases n
      exacts [h .ucs2Enc rfl, h .ucs2Dec rfl]
    unfold IllegalWordValue
    omega

theorem decode_illegal_iff {w : Word} : (∃ why, decode w = .illegal why) ↔ IllegalWordValue w.toNat := by
  simp only [decode_illegal_iff_forall_ne, illegalWordValue_iff, ne_eq, decode_eq_command_iff_toNat]

/-- Settles O1: `decode` and `encode` invert each other, and the sixteen words have the numbers of R92's table. -/
theorem decodeSelectsExactlyTheOpcodeMap : Obligations.DecodeSelectsExactlyTheOpcodeMap := by
  unfold Obligations.DecodeSelectsExactlyTheOpcodeMap
  exact ⟨fun i => ⟨encode_toNat i, decode_encode i⟩, fun _ _ => decode_eq_command_iff⟩

/-- Settles O2: each word is the number of its row in the opcode map. -/
theorem sampleCommandWordsDecode : Obligations.SampleCommandWordsDecode := by
  unfold Obligations.SampleCommandWordsDecode
  simp only [decode_eq_command_iff_toNat]
  exact ⟨rfl, rfl, rfl, rfl, rfl, rfl⟩

/-! ## The completion step -/

theorem step_complete_command {s : State} {i : Instr} (hd : CompletionDue s) (hi : decode s.cmd = .command i) :
    step s = exec i { s with sched := s.sched.tail, remaining := 0 } := by
  obtain ⟨⟨hr, hs⟩, hb, hn⟩ := hd
  rw [step_complete hs hr hb hn]
  exact completionStep_command hi

/-- An illegal word completes as the error outcome of R228 with code 1 at position 0 (R221). -/
theorem step_complete_illegal {s : State} {why : IllegalWord} (hd : CompletionDue s)
    (hw : decode s.cmd = .illegal why) :
    step s = .next (failedWith 1 0 { s with sched := s.sched.tail, remaining := 0 }) := by
  obtain ⟨⟨hr, hs⟩, hb, hn⟩ := hd
  rw [step_complete hs hr hb hn]
  exact completionStep_illegal hw

/-- Settles O3: a start step does not look at the word it stores, and only the completion step decodes it. -/
theorem illegalWordsCompleteWithIllegalCommand : Obligations.IllegalWordsCompleteWithIllegalCommand := by
  unfold Obligations.IllegalWordsCompleteWithIllegalCommand
  refine ⟨fun w => decode_illegal_iff, fun s w rest ts _ hm hi => ?_, fun s hd hw => ?_⟩
  · exact ⟨_, step_of_start hi hm, rfl, rfl, Nat.le_add_left 1 _⟩
  · obtain ⟨why, hw⟩ := decode_illegal_iff.mpr hw
    exact step_complete_illegal hd hw

/-- Settles O6: the engine counts down while more than one step is left, and its last step is the completion step. -/
theorem engineStepDecrementsOrRunsTheDecodedCommand : Obligations.EngineStepDecrementsOrRunsTheDecodedCommand := by
  unfold Obligations.EngineStepDecrementsOrRunsTheDecodedCommand
  intro s he hb
  have due (h : s.remaining = 1) : CompletionDue s := ⟨he, hb, h.le⟩
  obtain ⟨hr, hs⟩ := he
  exact ⟨fun n hn => step_count hs hr hb hn, fun h i hi => step_complete_command (due h) hi,
    fun h why hw => step_complete_illegal (due h) hw, fun h t ht => flags_of_completion (due h) ht⟩

/-! ## The model's placing of a command word (log 14) -/

theorem withFetchWord_toNat (s : State) (w : Word) : s.withFetchWord 32 w.toNat = pendingCommand w s := by
  rw [State.withFetchWord, Nat.mod_eq_of_lt w.isLt, BitVec.ofNat_toNat, BitVec.setWidth_eq]

theorem decodeTableWord_toNat {w : Word} {i : Instr} (h : decode w = .command i) :
    decodeTableWord 32 w.toNat = some i := by
  rw [decodeTableWord, Nat.mod_eq_of_lt w.isLt, BitVec.ofNat_toNat, BitVec.setWidth_eq, h]

theorem completionDue_pendingCommand (w : Word) (s : State) : CompletionDue (pendingCommand w s) :=
  ⟨⟨rfl, .inr ⟨s.sched, rfl⟩⟩, rfl, Nat.le_refl 1⟩

/-- Settles O7: the placed word is pending with one engine step left, and that step is the next turn. -/
theorem placedCommandWordRunsNext : Obligations.PlacedCommandWordRunsNext := by
  unfold Obligations.PlacedCommandWordRunsNext
  intro s w i hi
  refine ⟨decodeTableWord_toNat hi, ?_⟩
  rw [withFetchWord_toNat]
  exact step_complete_command (completionDue_pendingCommand w s) hi

/-! ## The host's moves -/

/-- Settles O8: an idle block takes the start step, whose draw is one more than a free latency; a busy one drops the
write. -/
theorem cmdWriteStartsACommandOnlyWhileIdle : Obligations.CmdWriteStartsACommandOnlyWhileIdle := by
  unfold Obligations.CmdWriteStartsACommandOnlyWhileIdle
  intro s v rest ts hm
  refine ⟨fun hi => ?_, fun hb => ?_⟩
  · exact ⟨Config.freeLatency s.draws + 1, Nat.le_add_left 1 _, step_of_start hi hm⟩
  · rw [step_write_reg .cmd hm, hostWrite_dropped (tg := .reg .cmd) rfl v (s := moved s rest ts) hb]; rfl

theorem step_wait {s : State} {rest : List HostOp} {ts : List Turn} (h : HostMove s .wait rest ts) :
    step s = .next (pollStatus rest { s with sched := ts }) := by
  obtain ⟨hs, hp, hr⟩ := h
  rw [step_cons hs]
  exact hostTurn_wait (s := { s with sched := ts }) hp hr

/-- Settles O11: the poll keeps WAIT as the next move exactly while the STATUS word it reads has BUSY = 1. -/
theorem waitPollsStatusUntilIdle : Obligations.WaitPollsStatusUntilIdle := by
  unfold Obligations.WaitPollsStatusUntilIdle
  intro s rest ts hm
  rw [step_wait hm, pollStatus_eq, statusWord_eq]; rfl

/-! ## Host-program lines (R99) -/

theorem regOffset_eq_offsetOf (r : Reg) : regOffset r = offsetOf r := by cases r <;> rfl

theorem lineOp_w (r : Reg) (v : Word) : lineOp (.w r v) = wr (offsetOf r) v := by
  rw [lineOp, wr, regOffset_eq_offsetOf]

theorem lineOp_r (r : Reg) : lineOp (.r r) = rd (offsetOf r) := by rw [lineOp, rd, regOffset_eq_offsetOf]

theorem lineOp_wb (b : Buf) (i : Nat) (v : Word) : lineOp (.wb b i v) = wr (bufferOffset b + 4 * i) v := by
  rw [lineOp, wr, Nat.add_assoc]

theorem lineOp_rb (b : Buf) (i : Nat) : lineOp (.rb b i) = rd (bufferOffset b + 4 * i) := by
  rw [lineOp, rd, Nat.add_assoc]

/-- Settles O4: each line is the access at BASE plus the offset of its register or element. -/
theorem notationLinesAreBusAccesses : Obligations.NotationLinesAreBusAccesses := by
  unfold Obligations.NotationLinesAreBusAccesses
  exact ⟨fun r v => ⟨lineOp_w r v, lineOp_r r⟩, fun i v => ⟨lineOp_wb .txt i v, lineOp_wb .sep i v, lineOp_wb .oct i v,
    lineOp_rb .txt i, lineOp_rb .sep i, lineOp_rb .oct i⟩⟩

end Sys2Proof.Machine
end

section
/-! The proofs of the family 41_semi_octet.md. What a command's pseudocode answers is in Laws/SemiOctet, and `exec_eq`
makes it the command's meaning. So what is left is each completion in the statements' words, and the rules' own
arithmetic (R110, R111, R115 to R118) against the model's bit fields. -/

namespace Sys2Proof.Machine

open Sys2Proof.Claims

/-! ## Completions in the statements' words -/

theorem errorState_eq_failedWith (e : ErrKind) (pos : Nat) (s : State) :
    errorState e pos s = failedWith (errCodeOf e).toNat pos s := by cases e <;> rfl

theorem exec_of_kernel_ok {i : Instr} {s : State} {c : Commit} (h : kernel defaultParams i s = .ok c) :
    exec i s = .next (commitState c s) := by rw [exec_eq, h]; rfl

theorem exec_of_kernel_raised {i : Instr} {s : State} {pos : Nat} (e : ErrKind)
    (h : kernel defaultParams i s = .error (.raised e pos)) :
    exec i s = .next (failedWith (errCodeOf e).toNat pos s) := by
  rw [exec_eq, h, completeCommand_raised, errorState_eq_failedWith]

theorem exec_of_kernel_unwritten {i : Instr} {s : State} {b : Buf} {k : Nat}
    (h : kernel defaultParams i s = .error (.unwritten b k)) : exec i s = .fault (.unwrittenElement b k) := by
  rw [exec_eq, h]; rfl

theorem half_toNat {n : Nat} (h : n ≤ 512) : (BitVec.ofNat 16 n).toNat = n := Nat.mod_eq_of_lt (by omega)

/-- Lengths within the default capacities fit their registers, so a commit leaves them as they are. -/
theorem succeeded_commitState {c : Commit} (s : State) (hd : c.dstLen ≤ 512) (hl : c.lenf ≤ 512)
    (hu : c.consumed ≤ 512) : Succeeded s (commitState c s) c.dstLen c.lenf c.consumed :=
  ⟨kept_commitState c s, rfl, rfl, rfl, half_toNat hd, half_toNat hl, half_toNat hu⟩

theorem stored_stage {w : Nat} (b : Buffer w) (out : List (BitVec w)) : Stored b (stage b out) out :=
  readElem_stage out b

theorem holds_stage {w : Nat} (b : Buffer w) (xs : List (BitVec w)) : Holds (stage b xs) xs := fun k hk => by
  rw [readElem_stage, if_pos hk]

/-! ## The rules' arithmetic -/

theorem nibbles_eq {lo hi : Nat} (h1 : lo < 16) (h2 : hi < 16) : nibbles lo hi = BitVec.ofNat 8 (hi * 16 + lo) := by
  refine BitVec.eq_of_toNat_eq ?_
  rw [nibbles_toNat h1 h2, BitVec.toNat_ofNat]
  omega

theorem lowNibble_nibbles {lo hi : Nat} (h1 : lo < 16) (h2 : hi < 16) : lowNibble (nibbles lo hi) = lo := by
  rw [lowNibble_eq, nibbles_toNat h1 h2]; omega

theorem highNibble_nibbles {lo hi : Nat} (h1 : lo < 16) (h2 : hi < 16) : highNibble (nibbles lo hi) = hi := by
  rw [highNibble_eq, nibbles_toNat h1 h2]; omega

theorem semiOctet_eq_semi {x : Word} (h : x.toNat ≤ 99) : semiOctet x.toNat = semi x :=
  nibbles_eq (by omega) (by omega)

theorem semiNumber_eq_unsemi (b : Octet) : semiNumber b = unsemi b := by
  rw [semiNumber, unsemi, lowNibble_eq, highNibble_eq]

theorem digitOctet_iff (b : Octet) : DigitOctet b ↔ ¬(9 < lowNibble b ∨ 9 < highNibble b) := by
  rw [DigitOctet, lowNibble_eq, highNibble_eq]; omega

theorem nibbleAt_eq_nibbleOf (b : Buffer 8) (k : Nat) : nibbleAt b k = nibbleOf b k := by
  simp only [nibbleAt, nibbleOf, digitNibble, lowNibble_eq, highNibble_eq]

theorem lowNibble_semi {x : Word} (h : x.toNat ≤ 99) : lowNibble (semi x) = x.toNat / 10 := by
  rw [← semiOctet_eq_semi h]; exact lowNibble_nibbles (by omega) (by omega)

theorem highNibble_semi {x : Word} (h : x.toNat ≤ 99) : highNibble (semi x) = x.toNat % 10 := by
  rw [← semiOctet_eq_semi h]; exact highNibble_nibbles (by omega) (by omega)

theorem digitOctet_semi {x : Word} (h : x.toNat ≤ 99) : DigitOctet (semi x) := by
  rw [digitOctet_iff, lowNibble_semi h, highNibble_semi h]; omega

theorem unsemi_semi {x : Word} (h : x.toNat ≤ 99) : unsemi (semi x) = x := by
  rw [← semiNumber_eq_unsemi, semiNumber, lowNibble_semi h, highNibble_semi h, Nat.div_add_mod,
    BitVec.ofNat_toNat, BitVec.setWidth_eq]

/-- Past its first pair a digit string is encoded as if it began there. -/
theorem pairOctets_cons_cons (d e : Word) (rest : List Word) :
    pairOctets (d :: e :: rest) = nibbles d.toNat e.toNat :: pairOctets rest := by
  have hcount : ceilDiv (d :: e :: rest).length 2 = ceilDiv rest.length 2 + 1 := by
    simp only [ceilDiv_two, List.length_cons]; omega
  have hnext (k : Nat) : pairOctet (d :: e :: rest) (k + 1) = pairOctet rest k := by
    simp only [pairOctet, show 2 * (k + 1) = 2 * k + 1 + 1 from rfl, List.getD_cons_succ, List.length_cons,
      Nat.add_lt_add_iff_right]
  have hfirst : pairOctet (d :: e :: rest) 0 = nibbles d.toNat e.toNat := by simp [pairOctet]
  rw [pairOctets, hcount, List.range_succ_eq_map, List.map_cons, hfirst, List.map_map]
  exact congrArg _ (List.map_congr_left fun k _ => hnext k)

theorem pairOctets_eq_digitOctets (ds : List Word) (h : ∀ d ∈ ds, d.toNat ≤ 9) : pairOctets ds = digitOctets ds := by
  induction ds using digitOctets.induct with
  | case1 => rfl
  | case2 d =>
    have hd := h d (by simp)
    rw [digitOctets, ← nibbles_eq (by omega) (by omega)]
    simp [pairOctets, pairOctet, ceilDiv_two]
  | case3 d e rest ih =>
    have hd := h d (by simp)
    have he := h e (by simp)
    rw [pairOctets_cons_cons, digitOctets, ih fun x hx => h x (by simp [hx]), nibbles_eq (by omega) (by omega)]

/-- Digit `k` is the nibble `k` of the octets of a digit string: the padding lies beyond the last digit. -/
theorem digitNibble_pairOctet {ds : List Word} (h : ∀ d ∈ ds, d.toNat ≤ 9) {k : Nat} (hk : k < ds.length) :
    digitNibble (pairOctet ds (k / 2)) k = ds[k].toNat := by
  have digit {j : Nat} (hj : j < ds.length) : (ds.getD j 0).toNat < 16 := by
    rw [List.getD_eq_getElem _ _ hj]; have := h _ (List.getElem_mem hj); omega
  have lo : (ds.getD (2 * (k / 2)) 0).toNat < 16 := digit (by omega)
  have hi : (if 2 * (k / 2) + 1 < ds.length then (ds.getD (2 * (k / 2) + 1) 0).toNat else 0xF) < 16 := by
    split
    · exact digit ‹_›
    · decide
  rw [digitNibble, pairOctet, lowNibble_nibbles lo hi, highNibble_nibbles lo hi, ← List.getD_eq_getElem _ 0 hk]
  rcases Nat.mod_two_eq_zero_or_one k with hpar | hpar
  · rw [if_pos hpar, show 2 * (k / 2) = k by omega]
  · rw [if_neg (by omega), show 2 * (k / 2) + 1 = k by omega, if_pos hk]

/-- The octets of a digit string, once stored, read back digit by digit (R115). -/
theorem nibbleAt_digitOctets {b : Buffer 8} {ds : List Word} (hb : Holds b (digitOctets ds))
    (h : ∀ d ∈ ds, d.toNat ≤ 9) {k : Nat} (hk : k < ds.length) :
    nibbleAt b k = (ds.map BitVec.toNat)[k]? := by
  rw [← pairOctets_eq_digitOctets ds h] at hb
  have hl : k / 2 < (pairOctets ds).length := by rw [pairOctets_length, ceilDiv_two]; omega
  have hread : readElem b (k / 2) = some (pairOctet ds (k / 2)) := by
    rw [hb _ hl, List.getElem?_eq_getElem hl]; simp [pairOctets]
  rw [nibbleAt_eq_nibbleOf, nibbleOf, hread, Option.map_some, digitNibble_pairOctet h hk,
    List.getElem?_map, List.getElem?_eq_getElem hk, Option.map_some]

/-! ## Numbers -/

/-- SEMI_ENC_NUM on numbers 0 to 99. -/
theorem exec_semiEncNum_numbers {s : State} {xs : List Word} (h : Holds s.mem.txt xs) (hx : ∀ x ∈ xs, x.toNat ≤ 99)
    (hl : xs.length = s.srcLen.toNat) (hn : xs.length ≤ 512) :
    exec .semiEncNum s = .next (commitState
      { oct := xs.map semi, dstLen := xs.length, lenf := xs.length, consumed := xs.length } s) := by
  refine exec_of_kernel_ok ?_
  rw [kernel, srcLenOf, ← hl, semiEncNum_ok h hx hn hn, List.map_congr_left fun x hm => semiOctet_eq_semi (hx x hm)]

/-- SEMI_DEC_NUM on octets of two decimal digits. -/
theorem exec_semiDecNum_digitOctets {s : State} {bs : List Octet} (h : Holds s.mem.oct bs)
    (hb : ∀ b ∈ bs, DigitOctet b) (hl : bs.length = s.srcLen.toNat) (hn : bs.length ≤ 512) :
    exec .semiDecNum s = .next (commitState
      { txt := bs.map unsemi, dstLen := bs.length, lenf := bs.length, consumed := bs.length } s) := by
  refine exec_of_kernel_ok ?_
  rw [kernel, srcLenOf, ← hl, semiDecNum_ok h (fun b hm => (digitOctet_iff b).mp (hb b hm)) hn hn,
    List.map_congr_left fun b _ => semiNumber_eq_unsemi b]

/-- Settles O40: the loop stops at the first element that is unwritten or above 99, and with none it encodes all. -/
theorem semiEncNumStoresOneOctetPerNumber : Obligations.SemiEncNumStoresOneOctetPerNumber := by
  unfold Obligations.SemiEncNumStoresOneOctetPerNumber
  intro s
  refine ⟨fun h => exec_of_kernel_raised .incorrectSize (semiEncNum_size h _),
    fun xs hn h hx => ⟨fun hl => ?_, fun hl => ?_⟩⟩
  · have hcap : xs.length ≤ 512 := hl.trans_le hn
    exact ⟨_, exec_semiEncNum_numbers h hx hl hcap, succeeded_commitState s hcap hcap hcap, stored_stage _ _,
      rfl, rfl, rfl⟩
  · have hcap : xs.length ≤ 512 := hl.le.trans hn
    exact ⟨fun x hr hbad => exec_of_kernel_raised .invalidDigits (semiEncNum_invalid h hx hn hcap hl hr hbad),
      fun hr => exec_of_kernel_unwritten (semiEncNum_unwritten h hx hn hcap hl hr)⟩

/-- Settles O41: the loop stops at the first octet that is unwritten or has a nibble above 9, and with none it decodes
all. -/
theorem semiDecNumStoresOneNumberPerOctet : Obligations.SemiDecNumStoresOneNumberPerOctet := by
  unfold Obligations.SemiDecNumStoresOneNumberPerOctet
  intro s
  refine ⟨fun h => exec_of_kernel_raised .incorrectSize (semiDecNum_size h _),
    fun bs hn h hb => ⟨fun hl => ?_, fun hl => ?_⟩⟩
  · have hcap : bs.length ≤ 512 := hl.trans_le hn
    exact ⟨_, exec_semiDecNum_digitOctets h hb hl hcap, succeeded_commitState s hcap hcap hcap, stored_stage _ _,
      rfl, rfl, rfl⟩
  · have hcap : bs.length ≤ 512 := hl.le.trans hn
    have hb' : ∀ b ∈ bs, ¬(9 < lowNibble b ∨ 9 < highNibble b) := fun b hm => (digitOctet_iff b).mp (hb b hm)
    refine ⟨fun b hr hbad => ?_, fun hr => ?_⟩
    · have hbad' : 9 < lowNibble b ∨ 9 < highNibble b := by rwa [digitOctet_iff, not_not] at hbad
      exact exec_of_kernel_raised .invalidDigits (semiDecNum_invalid h hb' hn hcap hl hr hbad')
    · exact exec_of_kernel_unwritten (semiDecNum_unwritten h hb' hn hcap hl hr)

/-! ## Digit strings -/

/-- SEMI_ENC_DIG on digits 0 to 9. -/
theorem exec_semiEncDig_digits {s : State} {ds : List Word} (h : Holds s.mem.txt ds) (hd : ∀ d ∈ ds, d.toNat ≤ 9)
    (hl : ds.length = s.srcLen.toNat) (hn : ds.length ≤ 512) :
    exec .semiEncDig s = .next (commitState
      { oct := digitOctets ds, dstLen := (ds.length + 1) / 2, lenf := ds.length, consumed := ds.length } s) := by
  have ho : ceilDiv ds.length 2 ≤ 512 := by rw [ceilDiv_two]; omega
  refine exec_of_kernel_ok ?_
  rw [kernel, srcLenOf, ← hl, semiEncDig_ok h hd hn ho, pairOctets_eq_digitOctets ds hd, ceilDiv_two]

/-- SEMI_DEC_DIG on digits that fill the declared count or end at a nibble 0xF. -/
theorem exec_semiDecDig_digits {s : State} {ds : List Nat} (hm : s.srcLen.toNat ≤ 512) (ha : s.aux.toNat ≤ 512)
    (hs : (s.aux.toNat + 1) / 2 ≤ s.srcLen.toNat) (h : ∀ k < ds.length, nibbleAt s.mem.oct k = ds[k]?)
    (hd : ∀ d ∈ ds, d ≤ 9)
    (hend : ds.length = s.aux.toNat ∨ (ds.length < s.aux.toNat ∧ nibbleAt s.mem.oct ds.length = some 0xF)) :
    exec .semiDecDig s = .next (commitState
      { txt := ds.map (BitVec.ofNat 32), dstLen := ds.length, lenf := ds.length,
        consumed := (s.aux.toNat + 1) / 2 } s) := by
  simp only [nibbleAt_eq_nibbleOf] at h hend
  exact exec_of_kernel_ok (semiDecDig_ok hm ha hs h hd hend)

/-- Settles O42: the loop stops at the first digit, at an even or an odd index, that is unwritten or above 9, and with
none it encodes all. -/
theorem semiEncDigStoresPaddedDigitPairs : Obligations.SemiEncDigStoresPaddedDigitPairs := by
  unfold Obligations.SemiEncDigStoresPaddedDigitPairs
  intro s
  refine ⟨fun h => exec_of_kernel_raised .incorrectSize (semiEncDig_size h _),
    fun ds hn h hd => ⟨fun hl => ?_, fun hl => ?_⟩⟩
  · have hcap : ds.length ≤ 512 := hl.trans_le hn
    have hpairs : (ds.length + 1) / 2 ≤ 512 := by omega
    exact ⟨_, exec_semiEncDig_digits h hd hl hcap, succeeded_commitState s hpairs hcap hcap, stored_stage _ _,
      rfl, rfl, rfl⟩
  · have hpairs : ceilDiv ds.length 2 ≤ 512 := by rw [ceilDiv_two]; omega
    exact ⟨fun d hr hbad => exec_of_kernel_raised .invalidDigits (semiEncDig_invalid h hd hn hpairs hl hr hbad),
      fun hr => exec_of_kernel_unwritten (semiEncDig_unwritten h hd hn hpairs hl hr)⟩

/-- Settles O43: the three checks in their order, then the loop, which ends at the declared count, at a nibble 0xF, at
another nibble above 9, or at an octet never written. -/
theorem semiDecDigReadsDigitsUpToCountOrTerminator : Obligations.SemiDecDigReadsDigitsUpToCountOrTerminator := by
  unfold Obligations.SemiDecDigReadsDigitsUpToCountOrTerminator
  intro s
  refine ⟨fun h => exec_of_kernel_raised .incorrectSize (semiDecDig_size (.inl h) _),
    fun _ h => exec_of_kernel_raised .incorrectSize (semiDecDig_size (.inr h) _),
    fun hm ha hs => exec_of_kernel_raised .truncated (semiDecDig_truncated hm ha hs _),
    fun ds hm ha hs h hd => ⟨fun hend => ?_, fun hl => ?_⟩⟩
  · have hcap : ds.length ≤ 512 := by omega
    have hused : (s.aux.toNat + 1) / 2 ≤ 512 := hs.trans hm
    exact ⟨_, exec_semiDecDig_digits hm ha hs h hd hend, succeeded_commitState s hcap hcap hused, stored_stage _ _,
      rfl, rfl, rfl⟩
  · simp only [nibbleAt_eq_nibbleOf] at h ⊢
    exact ⟨fun n hr h1 h2 => exec_of_kernel_raised .invalidDigits
        (semiDecDig_invalid hm ha hs h hd hl hr (by omega) (by omega)),
      fun hr => exec_of_kernel_unwritten (semiDecDig_unwritten hm ha hs h hd hl hr)⟩

/-! ## Time zones -/

/-- The time-zone octet of a signed quarter-hour count (R116, R117). -/
def tzValue (q : Int) : Nat := q.natAbs % 10 * 16 + q.natAbs / 10 + (if q < 0 then 8 else 0)

/-- SEMI_ENC_TZ on a magnitude up to 79. -/
theorem exec_semiEncTz_inRange {s : State} (h : s.arg.toInt.natAbs ≤ 79) :
    exec .semiEncTz s = .next (commitState
      { result := some (BitVec.ofNat 32 (tzValue s.arg.toInt)), dstLen := 0, lenf := 0, consumed := 0 } s) := by
  have hsign : (decide (s.arg.toInt < 0)).toNat * 8 = if s.arg.toInt < 0 then 8 else 0 := by split <;> simp [*]
  refine exec_of_kernel_ok ?_
  rw [kernel, semiEncTz_ok h, hsign, tzValue]

theorem extractOctet_toNat (w : Word) : (w.extractLsb' 0 8).toNat = w.toNat % 256 := by
  simp [BitVec.extractLsb'_toNat]

/-- SEMI_DEC_TZ on a units nibble up to 9. -/
theorem exec_semiDecTz_inRange {s : State} (h : s.arg.toNat % 256 / 16 ≤ 9) :
    exec .semiDecTz s = .next (commitState
      { result := some (tzResult (s.arg.extractLsb' 0 8)), dstLen := 0, lenf := 0, consumed := 0 } s) := by
  rw [← extractOctet_toNat] at h
  exact exec_of_kernel_ok (semiDecTz_ok h)

/-- The count that SEMI_DEC_TZ reads from bits 7:0 of ARG (R118). -/
theorem tzResult_extractOctet_toInt (w : Word) : (tzResult (w.extractLsb' 0 8)).toInt =
    if w.toNat / 8 % 2 = 1 then -(10 * (w.toNat % 8) + w.toNat % 256 / 16 : Int)
      else (10 * (w.toNat % 8) + w.toNat % 256 / 16 : Int) := by
  rw [tzResult_toInt, extractOctet_toNat]
  split_ifs <;> omega

/-- Settles O44: a range check on the magnitude, and the octet as a sum of its three fields. -/
theorem semiEncTzWritesSignedOctet : Obligations.SemiEncTzWritesSignedOctet := by
  unfold Obligations.SemiEncTzWritesSignedOctet
  intro s
  exact ⟨fun h => exec_of_kernel_raised .invalidDigits (semiEncTz_invalid h), fun h => exec_semiEncTz_inRange h⟩

/-- Settles O45: a check on the units nibble, and the count as a signed value. -/
theorem semiDecTzWritesSignedCount : Obligations.SemiDecTzWritesSignedCount := by
  unfold Obligations.SemiDecTzWritesSignedCount
  intro s
  refine ⟨fun h => ?_, fun h => ⟨_, exec_semiDecTz_inRange h, tzResult_extractOctet_toInt s.arg⟩⟩
  rw [← extractOctet_toNat] at h
  exact exec_of_kernel_raised .invalidDigits (semiDecTz_invalid h)

/-- The fields of a time-zone octet read back: the units in bits 7:4, the tens in bits 2:0, the sign in bit 3. -/
theorem tzValue_fields {q : Int} (h : q.natAbs ≤ 79) :
    tzValue q < 256 ∧ tzValue q / 16 ≤ 9 ∧ 10 * (tzValue q % 8) + tzValue q / 16 = q.natAbs
      ∧ (tzValue q / 8 % 2 = 1 ↔ q < 0) := by
  have htens : q.natAbs / 10 ≤ 7 := by omega
  have hunits : q.natAbs % 10 ≤ 9 := by omega
  rw [← Nat.div_add_mod q.natAbs 10, tzValue]
  generalize q.natAbs / 10 = tens at htens
  generalize q.natAbs % 10 = units at hunits
  split_ifs <;> omega

/-! ## The decoders invert the encoders -/

theorem map_map_eq_self {α β : Type} {f : α → β} {g : β → α} {xs : List α} (h : ∀ x ∈ xs, g (f x) = x) :
    (xs.map f).map g = xs := by
  rw [List.map_map]
  exact (List.map_congr_left h).trans (List.map_id xs)

/-- SEMI_DEC_NUM on the semi-octets of numbers 0 to 99. -/
theorem exec_semiDecNum_semi {s : State} {xs : List Word} (h : Holds s.mem.oct (xs.map semi))
    (hx : ∀ x ∈ xs, x.toNat ≤ 99) (hl : xs.length = s.srcLen.toNat) (hn : xs.length ≤ 512) :
    exec .semiDecNum s = .next (commitState
      { txt := xs, dstLen := xs.length, lenf := xs.length, consumed := xs.length } s) := by
  have hdigits : ∀ b ∈ xs.map semi, DigitOctet b := List.forall_mem_map.mpr fun x hm => digitOctet_semi (hx x hm)
  have hback : (xs.map semi).map unsemi = xs := map_map_eq_self fun x hm => unsemi_semi (hx x hm)
  rw [exec_semiDecNum_digitOctets h hdigits (by rwa [List.length_map]) (by rwa [List.length_map]), hback,
    List.length_map]

/-- SEMI_DEC_DIG on the octets of a digit string, given its digit count. -/
theorem exec_semiDecDig_digitOctets {s : State} {ds : List Word} (h : Holds s.mem.oct (digitOctets ds))
    (hd : ∀ d ∈ ds, d.toNat ≤ 9) (hm : s.srcLen.toNat = (ds.length + 1) / 2) (ha : s.aux.toNat = ds.length)
    (hn : ds.length ≤ 512) :
    exec .semiDecDig s = .next (commitState
      { txt := ds, dstLen := ds.length, lenf := ds.length, consumed := (ds.length + 1) / 2 } s) := by
  have hl : (ds.map BitVec.toNat).length = ds.length := List.length_map _
  have hread : ∀ k < (ds.map BitVec.toNat).length, nibbleAt s.mem.oct k = (ds.map BitVec.toNat)[k]? :=
    fun k hk => nibbleAt_digitOctets h hd (hl ▸ hk)
  have hdigits : ∀ d ∈ ds.map BitVec.toNat, d ≤ 9 := List.forall_mem_map.mpr hd
  have hback : (ds.map BitVec.toNat).map (BitVec.ofNat 32) = ds :=
    map_map_eq_self fun d _ => (BitVec.ofNat_toNat 32 d).trans d.setWidth_eq
  rw [exec_semiDecDig_digits (by omega) (by omega) (by omega) hread hdigits (.inl (hl.trans ha.symm)), hback, hl, ha]

/-- SEMI_DEC_TZ on the time-zone octet of a count. -/
theorem exec_semiDecTz_tzValue {s : State} {w : Word} (hw : w.toInt.natAbs ≤ 79)
    (ha : s.arg = BitVec.ofNat 32 (tzValue w.toInt)) :
    exec .semiDecTz s = .next (commitState { result := some w, dstLen := 0, lenf := 0, consumed := 0 } s) := by
  obtain ⟨hlt, hunits, hcount, hsign⟩ := tzValue_fields hw
  have harg : s.arg.toNat = tzValue w.toInt := by rw [ha]; exact Nat.mod_eq_of_lt (by omega)
  have hback : tzResult (s.arg.extractLsb' 0 8) = w := by
    refine BitVec.eq_of_toInt_eq ?_
    rw [tzResult_extractOctet_toInt, harg, show (tzValue w.toInt : Int) % 256 = tzValue w.toInt by omega]
    split_ifs <;> omega
  rw [exec_semiDecTz_inRange (by omega), hback]

/-- Settles O55: each decoder finds in OCT or ARG what its encoder stored, and gives it back. -/
theorem semiOctetDecodersInvertEncoders : Obligations.SemiOctetDecodersInvertEncoders := by
  unfold Obligations.SemiOctetDecodersInvertEncoders
  intro s t
  refine ⟨fun xs h hx hl hn ht => ?_, fun ds h hd hl hn ht => ?_, fun hq ht => ?_⟩
  · rw [exec_semiEncNum_numbers h hx hl hn] at ht
    cases ht
    exact ⟨_, exec_semiDecNum_semi (holds_stage _ _) hx (half_toNat hn).symm hn, rfl, holds_stage _ _, half_toNat hn⟩
  · rw [exec_semiEncDig_digits h hd hl hn] at ht
    cases ht
    have hpairs : (ds.length + 1) / 2 ≤ 512 := by omega
    exact ⟨_, exec_semiDecDig_digitOctets (holds_stage _ _) hd (half_toNat hpairs) hl.symm hn, rfl, holds_stage _ _,
      half_toNat hn⟩
  · rw [exec_semiEncTz_inRange hq] at ht
    cases ht
    exact ⟨_, exec_semiDecTz_tzValue hq rfl, rfl, rfl⟩

end Sys2Proof.Machine
end

section
/-! The proofs of the family 42_gsm7.md. What a command's pseudocode answers is in Laws/Gsm7, and `exec_eq` makes it the
command's meaning. What is left is the statements' words against the model's: a list of septets or octets is its bit
stream (R150, R154), `SeptetsOf` is `enc7` (R145), and `Reads` is the translation of the default tables (R157). -/

namespace Sys2Proof.Machine

open Sys2Proof.Claims

/-! ## The alphabet tables -/

theorem Params.wf_requiredEntries {p : Params} (h : p.wf = true) :
    (∀ k ∈ [(0x68 : Septet), 0x65, 0x6C, 0x6F, 0x69], (k, k.setWidth 32) ∈ p.basic)
      ∧ ∀ c ∈ [(0x20AC : CodePoint), 0x7B, 0x7D, 0x5B, 0x5C, 0x5D, 0x5E, 0x7E, 0x7C, 0x0C], ∃ k, (k, c) ∈ p.ext := by
  simp only [Params.wf, Bool.and_eq_true] at h
  obtain ⟨-, h⟩ := h
  simpa [requiredEntries, and_assoc] using h

/-- Settles O5: the check of a build says what R140 to R142 ask, and the default build passes it. -/
theorem defaultTablesMeetTheirConstraints : Obligations.DefaultTablesMeetTheirConstraints := by
  unfold Obligations.DefaultTablesMeetTheirConstraints
  obtain ⟨hb, hbi, he, hei, hd, hbe, hee⟩ := Params.wf_tables defaultParams_wf
  obtain ⟨hrb, hre⟩ := Params.wf_requiredEntries defaultParams_wf
  refine ⟨defaultParams_wf, hb, hbi, he, hei, hd, fun c => ⟨fun h => hbe _ c h rfl, fun h => hee _ c h rfl⟩,
    fun k hk => ?_, hrb, hre⟩
  obtain ⟨c, hc⟩ := defaultParams_basic_total k hk
  exact ⟨c, mem_of_tableAt hc⟩

/-! ## Bit streams -/

theorem septetBit_eq_septetStreamBit (ss : List Septet) (p : Nat) : septetBit ss p = septetStreamBit ss p := by
  rw [septetBit, septetStreamBit, List.getD_eq_getElem?_getD]
  split
  · rfl
  · rw [List.getElem?_eq_none (by omega)]; exact BitVec.getLsbD_zero

theorem octetBit_eq_octetStreamBit (os : List Octet) (p : Nat) : octetBit os p = octetStreamBit os p := by
  rw [octetBit, octetStreamBit, List.getD_eq_getElem?_getD]

theorem septetBit_of_le {ss : List Septet} {p : Nat} (h : 7 * ss.length ≤ p) : septetBit ss p = false := by
  rw [septetBit_eq_septetStreamBit, septetStreamBit, if_neg (by omega)]

/-- Bit `k` of element `i`, as a bit of the stream. -/
theorem septetBit_getElem {ss : List Septet} {i k : Nat} (hi : i < ss.length) (hk : k < 7) :
    septetBit ss (7 * i + k) = ss[i].getLsbD k := by
  rw [septetBit_eq_septetStreamBit, septetStreamBit_of_lt ss i k hi hk]

theorem octetBit_getElem {os : List Octet} {j b : Nat} (hj : j < os.length) (hb : b < 8) :
    octetBit os (8 * j + b) = os[j].getLsbD b := by
  rw [octetBit, show (8 * j + b) / 8 = j by omega, show (8 * j + b) % 8 = b by omega, List.getElem?_eq_getElem hj,
    Option.getD_some]

/-- A list of septets is its length and its bit stream. -/
theorem eq_of_septetBit_eq {ss ts : List Septet} (hl : ss.length = ts.length)
    (h : ∀ p < 7 * ss.length, septetBit ss p = septetBit ts p) : ss = ts := by
  refine List.ext_getElem hl fun i h1 h2 => BitVec.eq_of_getLsbD_eq fun k hk => ?_
  rw [← septetBit_getElem h1 hk, ← septetBit_getElem h2 hk, h _ (by omega)]

/-- A list of octets is its length and its bit stream. -/
theorem eq_of_octetBit_eq {os qs : List Octet} (hl : os.length = qs.length)
    (h : ∀ p < 8 * os.length, octetBit os p = octetBit qs p) : os = qs := by
  refine List.ext_getElem hl fun j h1 h2 => BitVec.eq_of_getLsbD_eq fun b hb => ?_
  rw [← octetBit_getElem h1 hb, ← octetBit_getElem h2 hb, h _ (by omega)]

theorem pack7_length_eq (ss : List Septet) : (pack7 ss).length = (7 * ss.length + 7) / 8 := by
  rw [pack7_length, ceilDiv_eight]

theorem pack7_length_le {ss : List Septet} {n : Nat} (h : ss.length ≤ n) : (pack7 ss).length ≤ n := by
  rw [pack7_length_eq]; omega

/-- Each stream bit of PACK7's octets is that of the septets, the padding bits being 0 (R150). -/
theorem octetBit_pack7 {ss : List Septet} {p : Nat} (hp : p < 8 * (pack7 ss).length) :
    octetBit (pack7 ss) p = septetBit ss p := by
  have hj : p / 8 < (pack7 ss).length := by omega
  have hb : p % 8 < 8 := Nat.mod_lt p (by decide)
  rw [septetBit_eq_septetStreamBit]
  conv_lhs => rw [← Nat.div_add_mod p 8]
  rw [octetBit_getElem hj hb, pack7_getElem, packedOctet_getLsbD, Nat.div_add_mod, decide_eq_true hb, Bool.true_and]

theorem packs_pack7 (ss : List Septet) : Packs ss (pack7 ss) := ⟨pack7_length_eq ss, fun _ => octetBit_pack7⟩

/-- UNPACK7 meets R154. -/
theorem unpacks_unpack7 (os : List Octet) (l : Nat) : Unpacks os (unpack7 os l) := by
  intro p hp
  have hi : p / 7 < (unpack7 os l).length := by omega
  have hk : p % 7 < 7 := Nat.mod_lt p (by decide)
  rw [octetBit_eq_octetStreamBit]
  conv_lhs => rw [← Nat.div_add_mod p 7]
  rw [septetBit_getElem hi hk, unpack7_getElem, unpackedSeptet_getLsbD, Nat.div_add_mod, decide_eq_true hk,
    Bool.true_and]

theorem eq_pack7_of_packs {ss : List Septet} {os : List Octet} (h : Packs ss os) : os = pack7 ss := by
  obtain ⟨hl, hbit⟩ := h
  have hl' : os.length = (pack7 ss).length := by rw [hl, pack7_length_eq]
  exact eq_of_octetBit_eq hl' fun p hp => by rw [hbit p hp, octetBit_pack7 (hl' ▸ hp)]

theorem eq_unpack7_of_unpacks {os : List Octet} {ss : List Septet} (h : Unpacks os ss) : ss = unpack7 os ss.length := by
  have hl : ss.length = (unpack7 os ss.length).length := by rw [unpack7_length]
  exact eq_of_septetBit_eq hl fun p hp => by rw [h p hp, unpacks_unpack7 os ss.length p (hl ▸ hp)]

/-- Octets whose padding bits are 0 are the packing of their unpacking (R163). -/
theorem pack7_unpack7 {n : Nat} {os : List Octet} (hl : os.length = (7 * n + 7) / 8)
    (hpad : ∀ p, 7 * n ≤ p → p < 8 * os.length → octetBit os p = false) : pack7 (unpack7 os n) = os := by
  refine (eq_pack7_of_packs ⟨by rw [unpack7_length, hl], fun p hp => ?_⟩).symm
  rcases Nat.lt_or_ge p (7 * n) with h | h
  · exact (unpacks_unpack7 os n p (by rwa [unpack7_length])).symm
  · rw [hpad p h hp, septetBit_of_le (by rwa [unpack7_length])]

/-- Bits `i` to `i + 7` of two septets in a row, as the group form of the packing writes them (R152). -/
theorem groupOctet_getLsbD (x y : Septet) {i b : Nat} (hi : i ≤ 6) (hb : b < 8) :
    (BitVec.ofNat 8 ((x.toNat >>> i ||| y.toNat <<< (7 - i)) &&& 0xFF)).getLsbD b
      = if i + b < 7 then x.getLsbD (i + b) else y.getLsbD (i + b - 7) := by
  have hmask : (0xFF).testBit b = true := by
    rw [show 0xFF = 2 ^ 8 - 1 from rfl, Nat.testBit_two_pow_sub_one, decide_eq_true hb]
  rw [BitVec.getLsbD_ofNat, decide_eq_true hb, Bool.true_and, Nat.testBit_and, hmask, Bool.and_true, Nat.testBit_or,
    Nat.testBit_shiftRight, Nat.testBit_shiftLeft, BitVec.testBit_toNat, BitVec.testBit_toNat]
  split
  case isTrue h => rw [decide_eq_false (by omega : ¬b ≥ 7 - i), Bool.false_and, Bool.or_false]
  case isFalse h =>
    rw [BitVec.getLsbD_of_ge x _ (by omega), decide_eq_true (by omega : b ≥ 7 - i), Bool.true_and, Bool.false_or,
      show b - (7 - i) = i + b - 7 by omega]

/-- Settles O54: bit `b` of octet `7g + i` is stream bit `7 (8g + i) + (i + b)`, which lies in septet `8g + i` or in the
next one. -/
theorem packingAgreesWithGroupForm : Obligations.PackingAgreesWithGroupForm := by
  unfold Obligations.PackingAgreesWithGroupForm
  intro ss g i hi hl
  rw [List.getElem?_eq_getElem hl, Option.some_inj]
  refine BitVec.eq_of_getLsbD_eq fun b hb => ?_
  rw [groupOctet_getLsbD _ _ hi hb, ← octetBit_getElem hl hb, octetBit_pack7 (by omega), septetBit]
  split
  case isTrue h =>
    rw [show (8 * (7 * g + i) + b) / 7 = 8 * g + i by omega, show (8 * (7 * g + i) + b) % 7 = i + b by omega]
  case isFalse h =>
    rw [show (8 * (7 * g + i) + b) / 7 = 8 * g + i + 1 by omega, show (8 * (7 * g + i) + b) % 7 = i + b - 7 by omega]

/-! ## SEPT_PACK and SEPT_UNPACK -/

theorem exec_septPack_septets {s : State} {ss : List Septet} (h : Holds s.mem.sep ss) (hl : ss.length = s.srcLen.toNat)
    (hn : ss.length ≤ 512) :
    exec .septPack s = .next (commitState
      { oct := pack7 ss, dstLen := (pack7 ss).length, lenf := ss.length, consumed := ss.length } s) := by
  have ho : ceilDiv (7 * ss.length) 8 ≤ 512 := pack7_length ss ▸ pack7_length_le hn
  refine exec_of_kernel_ok ?_
  rw [kernel, srcLenOf, ← hl, septPack_ok h hn ho, pack7_length]

theorem exec_septUnpack_octets {s : State} {os : List Octet} (h : Holds s.mem.oct os) (hm : s.srcLen.toNat ≤ 512)
    (ha : s.aux.toNat ≤ 512) (hs : os.length ≤ s.srcLen.toNat) (hl : os.length = (7 * s.aux.toNat + 7) / 8) :
    exec .septUnpack s = .next (commitState
      { sep := unpack7 os s.aux.toNat, dstLen := s.aux.toNat, lenf := s.aux.toNat, consumed := os.length } s) :=
  exec_of_kernel_ok (septUnpack_ok hm ha (hl.ge.trans hs) h hl)

/-- SEPT_UNPACK of a packing, given its septet count. -/
theorem exec_septUnpack_pack7 {s : State} {ss : List Septet} (h : Holds s.mem.oct (pack7 ss))
    (hm : s.srcLen.toNat = (pack7 ss).length) (ha : s.aux.toNat = ss.length) (hn : ss.length ≤ 512) :
    exec .septUnpack s = .next (commitState
      { sep := ss, dstLen := ss.length, lenf := ss.length, consumed := (pack7 ss).length } s) := by
  rw [exec_septUnpack_octets h (hm.trans_le (pack7_length_le hn)) (ha.trans_le hn) hm.ge (ha ▸ pack7_length_eq ss), ha,
    unpack7_pack7]

/-- Settles O48: the size check, then the septets are read in order and packed. -/
theorem septPackStoresTheBitStream : Obligations.SeptPackStoresTheBitStream := by
  unfold Obligations.SeptPackStoresTheBitStream
  intro s
  refine ⟨fun h => exec_of_kernel_raised .incorrectSize (septPack_size (.inl h) _),
    fun ss hn h => ⟨fun hl => ?_, fun hl hr => ?_⟩⟩
  · have hcap : ss.length ≤ 512 := hl.trans_le hn
    have hoct : (pack7 ss).length ≤ 512 := pack7_length_le hcap
    exact ⟨_, _, exec_septPack_septets h hl hcap, packs_pack7 ss, succeeded_commitState s hoct hcap hcap,
      stored_stage _ _, rfl, rfl, rfl⟩
  · have hoct : ceilDiv (7 * s.srcLen.toNat) 8 ≤ 512 := by rw [ceilDiv_eight]; omega
    exact exec_of_kernel_unwritten (septPack_unwritten h hn hoct hl hr)

/-- Settles O49: the three checks in their order, then the octets of the declared septets are read and unpacked. -/
theorem septUnpackStoresTheDeclaredSeptets : Obligations.SeptUnpackStoresTheDeclaredSeptets := by
  unfold Obligations.SeptUnpackStoresTheDeclaredSeptets
  intro s
  refine ⟨fun h => exec_of_kernel_raised .incorrectSize (septUnpack_size (.inl h) _),
    fun _ h => exec_of_kernel_raised .incorrectSize (septUnpack_size (.inr h) _),
    fun hm ha hs => exec_of_kernel_raised .truncated (septUnpack_truncated hm ha hs _),
    fun os hm ha hs h => ⟨fun hl => ?_, fun hl hr => exec_of_kernel_unwritten (septUnpack_unwritten hm ha hs h hl hr)⟩⟩
  have hneed : os.length ≤ s.srcLen.toNat := hl.trans_le hs
  exact ⟨_, _, exec_septUnpack_octets h hm ha hneed hl, unpack7_length _ _, unpacks_unpack7 _ _,
    succeeded_commitState s ha ha (hneed.trans hm), stored_stage _ _, rfl, rfl, rfl⟩

/-- Settles O56: `unpack7` is the inverse of `pack7` on the octets with zero padding, and OCT holds the packing when
SEPT_UNPACK runs. -/
theorem septUnpackInvertsSeptPack : Obligations.SeptUnpackInvertsSeptPack := by
  unfold Obligations.SeptUnpackInvertsSeptPack
  refine ⟨fun s t ss h hl hn ht => ?_, fun n os hl hpad => ?_, fun ss => ⟨pack7_length_eq ss, fun p hp hp' => ?_⟩,
    pack7_append_zero⟩
  · rw [exec_septPack_septets h hl hn] at ht
    cases ht
    have hoct : (pack7 ss).length ≤ 512 := pack7_length_le hn
    exact ⟨_, exec_septUnpack_pack7 (holds_stage _ _) (half_toNat hoct) hl.symm hn, rfl, holds_stage _ _, half_toNat hn⟩
  · exact ⟨unpack7 os n, ⟨unpack7_length os n, pack7_unpack7 hl hpad⟩,
      fun ss ⟨hss, hpack⟩ => by rw [← hpack, ← hss, unpack7_pack7]⟩
  · rw [octetBit_pack7 hp', septetBit_of_le hp]

/-! ## Code points and septets -/

theorem septetsOf_iff_enc7 {c : CodePoint} {ss : List Septet} : SeptetsOf c ss ↔ enc7 defaultParams c = some ss := by
  obtain ⟨-, hb, -, he, -⟩ := Params.wf_tables defaultParams_wf
  rcases enc7_cases defaultParams c with ⟨k, hk, henc⟩ | ⟨hnone, e, hm, henc⟩ | ⟨hnone, hnone', henc⟩ <;>
    rw [henc, SeptetsOf]
  · refine ⟨?_, fun h => .inl ⟨k, hk, (Option.some.inj h).symm⟩⟩
    rintro (⟨l, hl, rfl⟩ | ⟨hno, -⟩)
    · rw [hb k l c hk hl]
    · exact absurd hk (hno k)
  · refine ⟨?_, fun h => .inr ⟨hnone, e, hm, (Option.some.inj h).symm⟩⟩
    rintro (⟨l, hl, -⟩ | ⟨-, f, hf, rfl⟩)
    · exact absurd hl (hnone l)
    · rw [he e f c hm hf]; rfl
  · refine ⟨?_, nofun⟩
    rintro (⟨l, hl, -⟩ | ⟨-, f, hf, -⟩)
    · exact absurd hl (hnone l)
    · exact absurd hf (hnone' f)

theorem unmappable_iff_enc7 {c : CodePoint} : Unmappable c ↔ enc7 defaultParams c = none := by
  rcases enc7_cases defaultParams c with ⟨k, hk, henc⟩ | ⟨-, e, hm, henc⟩ | ⟨hnone, hnone', henc⟩ <;> rw [henc]
  · exact ⟨fun h => absurd hk (h k).1, nofun⟩
  · exact ⟨fun h => absurd hm (h e).2, nofun⟩
  · exact ⟨fun _ => rfl, fun _ k => ⟨hnone k, hnone' k⟩⟩

theorem enc7_eq_some_septetsOf {p : Params} {c : CodePoint} (h : enc7 p c ≠ none) :
    enc7 p c = some (septetsOf p c) := by
  obtain ⟨ss, hs⟩ := Option.ne_none_iff_exists'.mp h
  rw [septetsOf, hs, Option.getD_some]

/-- The blocks of septets of a text are those that `enc7` gives its code points. -/
theorem blocks_of_septetsOf {cs : List CodePoint} {blocks : List (List Septet)} (h : List.Forall₂ SeptetsOf cs blocks) :
    (∀ c ∈ cs, enc7 defaultParams c = some (septetsOf defaultParams c))
      ∧ blocks.flatten = cs.flatMap (septetsOf defaultParams) := by
  induction h with
  | nil => exact ⟨nofun, rfl⟩
  | @cons c ss cs blocks hc _ ih =>
    obtain ⟨hcs, hflat⟩ := ih
    have henc := septetsOf_iff_enc7.mp hc
    have hss : septetsOf defaultParams c = ss := by rw [septetsOf, henc, Option.getD_some]
    rw [List.forall_mem_cons, List.flatten_cons, List.flatMap_cons, hflat, hss]
    exact ⟨⟨henc, hcs⟩, rfl⟩

/-! ## G7_MAP, G7_ENCODE and USSD_PACK -/

/-- The three commands that begin with MAP7. -/
def Maps (i : Instr) : Prop := i = .g7Map ∨ i = .g7Encode ∨ i = .ussdPack

theorem Maps.kernel_size {i : Instr} (hi : Maps i) {s : State} (h : 512 < s.srcLen.toNat) :
    kernel defaultParams i s = .error (.raised .incorrectSize 0) := by
  rcases hi with rfl | rfl | rfl
  · exact g7Map_size h _
  · exact g7Encode_size h _
  · exact g7Encode_size h _

theorem Maps.kernel_halt {i : Instr} (hi : Maps i) {s : State} {e : Halt} (hn : s.srcLen.toNat ≤ 512)
    (h : map7 defaultParams s.mem.txt s.srcLen.toNat = .error e) : kernel defaultParams i s = .error e := by
  rcases hi with rfl | rfl | rfl
  · exact g7Map_halt hn h
  · exact g7Encode_halt hn h
  · exact g7Encode_halt hn h

/-- The stops of MAP7 after a text that goes through: a code point in neither table, septets that do not fit, an element
never written (R156). -/
theorem Maps.exec_stops {i : Instr} (hi : Maps i) {s : State} {cs : List CodePoint} {blocks : List (List Septet)}
    (hn : s.srcLen.toNat ≤ 512) (h : Holds s.mem.txt cs) (hb : List.Forall₂ SeptetsOf cs blocks)
    (hcap : blocks.flatten.length ≤ 512) (hl : cs.length < s.srcLen.toNat) :
    (∀ c, readElem s.mem.txt cs.length = some c → Unmappable c → exec i s = .next (failedWith 5 cs.length s))
      ∧ (∀ c ss, readElem s.mem.txt cs.length = some c → SeptetsOf c ss → 512 < blocks.flatten.length + ss.length →
        exec i s = .next (failedWith 2 cs.length s))
      ∧ (readElem s.mem.txt cs.length = none → exec i s = .fault (.unwrittenElement .txt cs.length)) := by
  obtain ⟨henc, hflat⟩ := blocks_of_septetsOf hb
  rw [hflat] at hcap ⊢
  have stop {e : Halt}
      (he : map7Body defaultParams s.mem.txt cs.length (cs.flatMap (septetsOf defaultParams)) = .error e) :
      kernel defaultParams i s = .error e := hi.kernel_halt hn (map7_halt hl h henc hcap he)
  exact ⟨fun c hr hc =>
      exec_of_kernel_raised .unmappableChar (stop (map7Body_unmappable hr (unmappable_iff_enc7.mp hc) _)),
    fun c ss hr hc hfull =>
      exec_of_kernel_raised .incorrectSize (stop (map7Body_full hr (septetsOf_iff_enc7.mp hc) hcap hfull)),
    fun hr => exec_of_kernel_unwritten (stop (map7Body_unwritten hr _))⟩

theorem map7_blocks {txt : Buffer 32} {cs : List CodePoint} {blocks : List (List Septet)} (h : Holds txt cs)
    (hb : List.Forall₂ SeptetsOf cs blocks) (hcap : blocks.flatten.length ≤ 512) :
    map7 defaultParams txt cs.length = .ok blocks.flatten := by
  obtain ⟨henc, hflat⟩ := blocks_of_septetsOf hb
  rw [hflat] at hcap ⊢
  exact map7_ok h henc hcap

/-- Settles O46: the loop stops at the first code point that does not go through, and with none it stores the septets
of all. -/
theorem g7MapTranslatesCodePoints : Obligations.G7MapTranslatesCodePoints := by
  unfold Obligations.G7MapTranslatesCodePoints
  intro s
  have hi : Maps .g7Map := .inl rfl
  refine ⟨fun h => exec_of_kernel_raised .incorrectSize (hi.kernel_size h),
    fun cs blocks hn h hb hcap => ⟨fun hl => ?_, hi.exec_stops hn h hb hcap⟩⟩
  have hmap : map7 defaultParams s.mem.txt s.srcLen.toNat = .ok blocks.flatten := hl ▸ map7_blocks h hb hcap
  rw [hl]
  exact ⟨_, exec_of_kernel_ok (g7Map_ok hn hmap), succeeded_commitState s hcap hcap hn, stored_stage _ _, rfl, rfl, rfl⟩

/-- G7_ENCODE and USSD_PACK on a text whose septets are known. -/
theorem exec_g7Encode_septets {i : Instr} {s : State} {ss : List Septet} (hi : i = .g7Encode ∨ i = .ussdPack)
    (hn : s.srcLen.toNat ≤ 512) (hmap : map7 defaultParams s.mem.txt s.srcLen.toNat = .ok ss) (hcap : ss.length ≤ 512) :
    exec i s = .next (commitState
      { sep := ss, oct := pack7 ss, dstLen := (pack7 ss).length, lenf := ss.length,
        consumed := s.srcLen.toNat } s) := by
  have ho : ceilDiv (7 * ss.length) 8 ≤ 512 := pack7_length ss ▸ pack7_length_le hcap
  rw [pack7_length]
  rcases hi with rfl | rfl
  · exact exec_of_kernel_ok (g7Encode_ok hn hmap ho)
  · exact exec_of_kernel_ok (g7Encode_ok hn hmap ho)

/-- Settles O50: the stops of G7_MAP, and with none the septets of all and their packing, which always fits. -/
theorem g7EncodeAndUssdPackTranslateAndPack : Obligations.G7EncodeAndUssdPackTranslateAndPack := by
  unfold Obligations.G7EncodeAndUssdPackTranslateAndPack
  intro i s hi
  have hmaps : Maps i := .inr hi
  refine ⟨fun h => exec_of_kernel_raised .incorrectSize (hmaps.kernel_size h),
    fun cs blocks hn h hb hcap => ⟨fun hl => ?_, hmaps.exec_stops hn h hb hcap⟩⟩
  have hmap : map7 defaultParams s.mem.txt s.srcLen.toNat = .ok blocks.flatten := hl ▸ map7_blocks h hb hcap
  rw [hl]
  exact ⟨_, _, exec_g7Encode_septets hi hn hmap hcap, packs_pack7 _,
    succeeded_commitState s (pack7_length_le hcap) hcap hn, stored_stage _ _, stored_stage _ _, rfl, rfl⟩

/-! ## G7_UNMAP and G7_DECODE -/

theorem translates_of_reads {ss : List Septet} {cs : List CodePoint} (h : Reads ss cs) :
    Translates defaultParams ss cs := by
  obtain ⟨hb, -, he, -⟩ := Params.wf_tables defaultParams_wf
  induction h with
  | nil => exact .nil
  | basic hs hc _ ih => exact .basic hs (tableAt_of_mem hb hc) ih
  | ext hc _ ih => exact .ext (tableAt_of_mem he hc) ih

/-- Settles O47: after septets that read as text the loop ends, or it stops at a lone escape, at an escape before an
undefined index, or at an element never written. -/
theorem g7UnmapTranslatesSeptets : Obligations.G7UnmapTranslatesSeptets := by
  unfold Obligations.G7UnmapTranslatesSeptets
  intro s
  refine ⟨fun h => exec_of_kernel_raised .incorrectSize (g7Unmap_size h _), fun ss cs hn h hread => ?_⟩
  have ht := translates_of_reads hread
  have stop {m : Nat} {e : Halt} (hm : ss.length + m = s.srcLen.toNat)
      (he : unmapFrom defaultParams (fetchElem .sep s.mem.sep) id m ss.length cs = .error e) :
      kernel defaultParams .g7Unmap s = .error e := by
    have hcap : ss.length ≤ 512 := (Nat.le.intro hm).trans hn
    refine g7Unmap_halt h ht hn (ht.length_le.trans hcap) (Nat.le.intro hm) ?_
    rwa [srcLenOf, ← hm, Nat.add_sub_cancel_left]
  refine ⟨fun hl => ?_, fun hl hr => ?_, fun hl hr => ?_, fun hl hr => ?_⟩
  · have hcap : ss.length ≤ 512 := hl.trans_le hn
    have hcap' : cs.length ≤ 512 := ht.length_le.trans hcap
    have hk : kernel defaultParams .g7Unmap s = .ok
        { txt := cs, dstLen := cs.length, lenf := ss.length, consumed := ss.length } := by
      rw [kernel, srcLenOf, ← hl]; exact g7Unmap_ok h ht hcap hcap'
    exact ⟨_, exec_of_kernel_ok hk, succeeded_commitState s hcap' hcap hcap, stored_stage _ _, rfl, rfl, rfl⟩
  · obtain ⟨m, hm⟩ := Nat.exists_eq_add_of_lt hl
    exact exec_of_kernel_unwritten (stop hm.symm (unmapFrom_halt (fetchElem_none hr)))
  · exact exec_of_kernel_raised .truncatedEscape (stop hl (unmapFrom_truncated (fetchElem_some hr)))
  · obtain ⟨m, hm⟩ := Nat.exists_eq_add_of_lt hl
    have hm' : ss.length + (m + 2) = s.srcLen.toNat := by omega
    exact ⟨fun hr' => exec_of_kernel_unwritten
        (stop hm' (unmapFrom_halt_index (fetchElem_some hr) (fetchElem_none hr'))),
      fun e hr' hu => exec_of_kernel_raised .unmappableChar
        (stop hm' (unmapFrom_undefined (fetchElem_some hr) (fetchElem_some hr') (tableAt_eq_none.mpr hu)))⟩

theorem g7Decode_ok {p : Params} {oct : Buffer 8} {os : List Octet} {m l : Nat} {ss : List Septet} {cs : List CodePoint}
    (h1 : m ≤ p.nOct) (h2 : l ≤ p.nSep) (h3 : os.length ≤ m) (h : Holds oct os) (hl : os.length = ceilDiv (7 * l) 8)
    (hu : unpack7 os l = ss) (ht : Translates p ss cs) (ho : cs.length ≤ p.nTxt) :
    g7Decode p m l oct = .ok { sep := ss, txt := cs, dstLen := cs.length, lenf := l, consumed := os.length } := by
  have hlen : ss.length = l := by rw [← hu, unpack7_length]
  have hloop := unmapFrom_list (ts := []) (pos := septetOctet) ht ho
  rw [List.append_nil, List.length_nil, hlen] at hloop
  rw [g7Decode_loop h1 h2 (hl ▸ h3) h hl, hu, hloop]
  rfl

/-- A halt of G7_DECODE after unpacked septets that read as text. -/
theorem g7Decode_halt {p : Params} {oct : Buffer 8} {os : List Octet} {m l : Nat} {pre post : List Septet}
    {cs : List CodePoint} {e : Halt} (h1 : m ≤ p.nOct) (h2 : l ≤ p.nSep) (h3 : os.length ≤ m) (h : Holds oct os)
    (hl : os.length = ceilDiv (7 * l) 8) (hu : unpack7 os l = pre ++ post) (ht : Translates p pre cs)
    (ho : cs.length ≤ p.nTxt)
    (he : unmapFrom p (readList (pre ++ post)) septetOctet post.length pre.length cs = .error e) :
    g7Decode p m l oct = .error e := by
  have hlen : (pre ++ post).length = l := by rw [← hu, unpack7_length]
  have hloop := unmapFrom_list (ts := post) (pos := septetOctet) ht ho
  rw [hlen, he] at hloop
  rw [g7Decode_loop h1 h2 (hl ▸ h3) h hl, hu, hloop]

theorem readList_append (pre post : List Septet) (k : Nat) :
    readList (pre ++ post) (pre.length + k) = readList post k := by
  rw [readList, readList, List.getD_append_right _ _ _ _ (Nat.le_add_right _ _), Nat.add_sub_cancel_left]

/-- Settles O51: SEPT_UNPACK's stops, then the loop over the unpacked septets, which ends, or stops at a lone escape or
at an escape before an undefined index. -/
theorem g7DecodeUnpacksAndTranslates : Obligations.G7DecodeUnpacksAndTranslates := by
  unfold Obligations.G7DecodeUnpacksAndTranslates
  intro s
  refine ⟨fun h => exec_of_kernel_raised .incorrectSize (g7Decode_size (.inl h) _),
    fun _ h => exec_of_kernel_raised .incorrectSize (g7Decode_size (.inr h) _),
    fun hm ha hs => exec_of_kernel_raised .truncated (g7Decode_truncated hm ha hs _),
    fun os hm ha hs h => ⟨fun hl hr => exec_of_kernel_unwritten (g7Decode_unwritten hm ha hs h hl hr),
      fun pre post cs hl hlen hu hread => ?_⟩⟩
  have ht := translates_of_reads hread
  have hneed : os.length ≤ s.srcLen.toNat := hl.trans_le hs
  have hunpack : unpack7 os s.aux.toNat = pre ++ post := by rw [← hlen]; exact (eq_unpack7_of_unpacks hu).symm
  have hcap : cs.length ≤ 512 := by
    have := ht.length_le
    rw [List.length_append] at hlen
    omega
  refine ⟨?_, ?_, ?_⟩
  · rintro rfl
    rw [List.append_nil] at hunpack
    exact ⟨_, exec_of_kernel_ok (g7Decode_ok hm ha hneed h hl hunpack ht hcap),
      succeeded_commitState s hcap ha (hneed.trans hm), stored_stage _ _, stored_stage _ _, rfl, rfl⟩
  · rintro rfl
    exact exec_of_kernel_raised .truncatedEscape
      (g7Decode_halt hm ha hneed h hl hunpack ht hcap (unmapFrom_truncated (readList_append pre _ 0)))
  · rintro e rest rfl hundef
    exact exec_of_kernel_raised .unmappableChar
      (g7Decode_halt hm ha hneed h hl hunpack ht hcap
        (unmapFrom_undefined (readList_append pre _ 0) (readList_append pre _ 1) (tableAt_eq_none.mpr hundef)))

/-! ## G7_DECODE inverts G7_ENCODE -/

/-- An error leaves an error code other than 0. -/
theorem kernel_ne_error_of_success {i : Instr} {s t : State} (h : exec i s = .next t) (hcode : t.errCode = 0)
    (e : Halt) : kernel defaultParams i s ≠ .error e := by
  intro hk
  rw [exec_eq, hk] at h
  cases e with
  | raised kind pos => cases h; cases kind <;> cases hcode
  | unwritten b k => cases h

/-- MAP7's list after `k` code points: their septets, within N_SEP. -/
def MappedPrefix (p : Params) (cs : List CodePoint) (k : Nat) (out : List Septet) : Prop :=
  out = (cs.take k).flatMap (septetsOf p) ∧ out.length ≤ p.nSep

theorem map7Body_ok {p : Params} {txt : Buffer 32} {i : Nat} {c : CodePoint} {ss : List Septet}
    (h : readElem txt i = some c) (hc : enc7 p c = some ss) {out : List Septet}
    (hroom : out.length + ss.length ≤ p.nSep) : map7Body p txt i out = .ok (out ++ ss) := by
  rw [map7Body, fetchElem_some h]; simp only [hc]; exact pushAll_ok _ _ _ _ hroom

theorem map7Body_mappedPrefix {p : Params} {txt : Buffer 32} {cs : List CodePoint} (h : Holds txt cs)
    (henc : ∀ c ∈ cs, enc7 p c ≠ none) {k : Nat} (hk : k < cs.length) {a b : List Septet} (ha : MappedPrefix p cs k a)
    (hb : map7Body p txt k a = .ok b) : MappedPrefix p cs (k + 1) b := by
  obtain ⟨rfl, hfit⟩ := ha
  have hr : readElem txt k = some cs[k] := by rw [h k hk, List.getElem?_eq_getElem hk]
  have hc : enc7 p cs[k] = some (septetsOf p cs[k]) := enc7_eq_some_septetsOf (henc _ (List.getElem_mem hk))
  rcases Nat.lt_or_ge p.nSep (((cs.take k).flatMap (septetsOf p)).length + (septetsOf p cs[k]).length) with
    hfull | hroom
  · exact absurd (hb.symm.trans (map7Body_full hr hc hfit hfull)) nofun
  · obtain rfl : _ = b := Except.ok.inj ((map7Body_ok hr hc hroom).symm.trans hb)
    refine ⟨?_, by rwa [List.length_append]⟩
    rw [List.take_succ_eq_append_getElem hk, List.flatMap_append, List.flatMap_singleton]

/-- If MAP7 answers, it answers the septets of all code points, and they fit. -/
theorem map7_eq_ok {p : Params} {txt : Buffer 32} {cs : List CodePoint} {ss : List Septet} (h : Holds txt cs)
    (henc : ∀ c ∈ cs, enc7 p c ≠ none) (hmap : map7 p txt cs.length = .ok ss) :
    ss = cs.flatMap (septetsOf p) ∧ ss.length ≤ p.nSep := by
  have start : MappedPrefix p cs 0 [] := ⟨rfl, Nat.zero_le _⟩
  rcases forFrom_invariant (MappedPrefix p cs) 0 cs.length [] start
      (fun k a b _ hk => map7Body_mappedPrefix h henc (by omega)) with
    ⟨out, ⟨hout, hfit⟩, hok⟩ | ⟨k, out, e, -, -, -, -, herr⟩
  · obtain rfl : out = ss := Except.ok.inj (hok.symm.trans hmap)
    exact ⟨by rwa [Nat.zero_add, List.take_length] at hout, hfit⟩
  · exact absurd (herr.symm.trans hmap) nofun

/-- G7_DECODE of a packing, given its septet count, when the septets read as text. -/
theorem exec_g7Decode_pack7 {s : State} {ss : List Septet} {cs : List CodePoint} (h : Holds s.mem.oct (pack7 ss))
    (hm : s.srcLen.toNat = (pack7 ss).length) (ha : s.aux.toNat = ss.length) (hn : ss.length ≤ 512)
    (ht : Translates defaultParams ss cs) :
    exec .g7Decode s = .next (commitState
      { sep := ss, txt := cs, dstLen := cs.length, lenf := s.aux.toNat, consumed := (pack7 ss).length } s) := by
  have hunpack : unpack7 (pack7 ss) s.aux.toNat = ss := by rw [ha, unpack7_pack7]
  exact exec_of_kernel_ok (g7Decode_ok (hm.trans_le (pack7_length_le hn)) (ha.trans_le hn) hm.ge h
    (by rw [auxOf, ha, pack7_length]) hunpack ht (ht.length_le.trans hn))

/-- Settles O57: a G7_ENCODE that succeeds leaves the packing of the text's septets, which unpack to themselves and read
back as the text. -/
theorem g7DecodeInvertsG7Encode : Obligations.G7DecodeInvertsG7Encode := by
  unfold Obligations.G7DecodeInvertsG7Encode
  intro s t cs h hl hmappable hexec hcode
  have henc : ∀ c ∈ cs, enc7 defaultParams c ≠ none := fun c hc he => hmappable c hc (unmappable_iff_enc7.mpr he)
  have no_error := kernel_ne_error_of_success hexec hcode
  have hi : Maps .g7Encode := .inr (.inl rfl)
  have hn : s.srcLen.toNat ≤ 512 := Nat.le_of_not_lt fun hn => no_error _ (hi.kernel_size hn)
  cases hmap : map7 defaultParams s.mem.txt s.srcLen.toNat with
  | error e => exact absurd (hi.kernel_halt hn hmap) (no_error e)
  | ok ss =>
    obtain ⟨rfl, hcap⟩ := map7_eq_ok h henc (hl ▸ hmap)
    have ht := translates_flatMap defaultParams_wf henc
    rw [exec_g7Encode_septets (.inl rfl) hn hmap hcap] at hexec
    cases hexec
    exact ⟨_, exec_g7Decode_pack7 (holds_stage _ _) (half_toNat (pack7_length_le hcap)) (half_toNat hcap) hcap ht, rfl,
      holds_stage _ _, half_toNat (hl.trans_le hn)⟩

end Sys2Proof.Machine
end

section
/-! The proofs of the family 43_ucs2.md. What a command's pseudocode answers is in Laws/Ucs2, and `exec_eq` makes it the
command's meaning. What is left is the statements' words against the model's: `utf16Octets` is `octetsOf` on the code
points UTF-16 can encode (R191, R192), and `ReadsUtf16` is `Utf16` (R191, R193). -/

namespace Sys2Proof.Machine

open Sys2Proof.Claims

/-! ## The statements' words -/

theorem unitOf_eq_codeUnit (hi lo : Octet) : unitOf hi lo = codeUnit hi lo := (codeUnit_eq hi lo).symm

theorem isHighSurrogate_iff {u : Nat} : isHighSurrogate u = true ↔ HighSurrogate u := by
  simp [isHighSurrogate, HighSurrogate]

theorem isLowSurrogate_iff {u : Nat} : isLowSurrogate u = true ↔ LowSurrogate u := by
  simp [isLowSurrogate, LowSurrogate]

theorem isHighSurrogate_eq_false {u : Nat} : isHighSurrogate u = false ↔ ¬HighSurrogate u := by
  rw [← isHighSurrogate_iff, Bool.not_eq_true]

theorem isLowSurrogate_eq_false {u : Nat} : isLowSurrogate u = false ↔ ¬LowSurrogate u := by
  rw [← isLowSurrogate_iff, Bool.not_eq_true]

theorem notUtf16_iff {c : CodePoint} : notUtf16 c ↔ ¬Utf16Encodable c := by
  simp only [notUtf16, isSurrogate, Utf16Encodable, Bool.and_eq_true, decide_eq_true_eq]
  omega

theorem not_notUtf16 {c : CodePoint} (h : Utf16Encodable c) : ¬notUtf16 c := fun hc => notUtf16_iff.mp hc h

theorem unitOctets_eq (u : Nat) : unitOctets u = [unitHigh u, unitLow u] := by
  rw [unitOctets, unitHigh_eq, unitLow_eq]

/-- The statements' octets of a code point are the model's: one code unit, or a surrogate pair (R191). -/
theorem utf16Octets_eq_octetsOf {c : CodePoint} (h : Utf16Encodable c) : utf16Octets c = octetsOf c := by
  obtain ⟨hmax, -⟩ := h
  rw [utf16Octets, octetsOf]
  split_ifs with hle
  · rw [codeUnits_single hle, unitOctets_eq]; rfl
  · rw [codeUnits_pair (Nat.lt_of_not_le hle) hmax, unitOctets_eq, unitOctets_eq]; rfl

theorem flatMap_utf16Octets {cs : List CodePoint} (h : ∀ c ∈ cs, Utf16Encodable c) :
    cs.flatMap utf16Octets = cs.flatMap octetsOf :=
  List.flatMap_congr fun c hc => utf16Octets_eq_octetsOf (h c hc)

theorem utf16_of_readsUtf16 {os : List Octet} {cs : List CodePoint} (h : ReadsUtf16 os cs) : Utf16 os cs := by
  induction h with
  | nil => exact .nil
  | unit hhigh hlow _ ih =>
    rw [unitOf_eq_codeUnit] at hhigh hlow ⊢
    exact .unit (isHighSurrogate_eq_false.mpr hhigh) (isLowSurrogate_eq_false.mpr hlow) ih
  | pair hhigh hlow _ ih =>
    rw [unitOf_eq_codeUnit] at hhigh hlow
    rw [unitOf_eq_codeUnit, unitOf_eq_codeUnit, ← pairCodePoint_eq]
    exact .pair (isHighSurrogate_iff.mpr hhigh) (isLowSurrogate_iff.mpr hlow) ih

/-! ## UCS2_ENC -/

/-- UCS2_ENC on a text of encodable code points whose octets fit. -/
theorem exec_ucs2Enc_octets {s : State} {cs : List CodePoint} (h : Holds s.mem.txt cs) (hl : cs.length = s.srcLen.toNat)
    (hn : cs.length ≤ 512) (henc : ∀ c ∈ cs, ¬notUtf16 c) (hcap : (cs.flatMap octetsOf).length ≤ 512) :
    exec .ucs2Enc s = .next (commitState
      { oct := cs.flatMap octetsOf, dstLen := (cs.flatMap octetsOf).length
        lenf := (cs.flatMap octetsOf).length, consumed := cs.length } s) := by
  refine exec_of_kernel_ok ?_
  rw [kernel, srcLenOf, ← hl]
  exact ucs2Enc_ok h henc hn hcap

/-- Settles O52: the loop stops at the first code point that does not go through, and with none it stores the octets of
all. -/
theorem ucs2EncStoresBigEndianUtf16 : Obligations.Ucs2EncStoresBigEndianUtf16 := by
  unfold Obligations.Ucs2EncStoresBigEndianUtf16
  intro s
  refine ⟨fun h => exec_of_kernel_raised .incorrectSize (ucs2Enc_size h _), fun cs hn h henc hcap => ?_⟩
  rw [flatMap_utf16Octets henc] at hcap ⊢
  have henc' : ∀ c ∈ cs, ¬notUtf16 c := fun c hc => not_notUtf16 (henc c hc)
  refine ⟨fun hl => ?_, fun hl => ?_⟩
  · have hn' : cs.length ≤ 512 := hl.trans_le hn
    exact ⟨_, exec_ucs2Enc_octets h hl hn' henc' hcap, succeeded_commitState s hcap hcap hn', stored_stage _ _,
      rfl, rfl, rfl⟩
  · have stop {e : Halt}
        (he : ucs2EncBody defaultParams s.mem.txt cs.length (cs.flatMap octetsOf) = .error e) :
        kernel defaultParams .ucs2Enc s = .error e := ucs2Enc_halt hl h henc' hn hcap he
    refine ⟨fun c hr hc => ?_, fun c hr hc hfull => ?_, fun hr => ?_⟩
    · exact exec_of_kernel_raised .unmappableChar (stop (ucs2EncBody_unmappable hr (notUtf16_iff.mpr hc) _))
    · rw [utf16Octets_eq_octetsOf hc] at hfull
      exact exec_of_kernel_raised .incorrectSize (stop (ucs2EncBody_full hr (not_notUtf16 hc) hcap hfull))
    · exact exec_of_kernel_unwritten (stop (ucs2EncBody_unwritten hr _))

/-! ## UCS2_DEC -/

/-- UCS2_DEC on octets that read as text. -/
theorem exec_ucs2Dec_text {s : State} {os : List Octet} {cs : List CodePoint} (h : Holds s.mem.oct os)
    (hl : os.length = s.srcLen.toNat) (hn : os.length ≤ 512) (hu : Utf16 os cs) (hcap : cs.length ≤ 512) :
    exec .ucs2Dec s = .next (commitState
      { txt := cs, dstLen := cs.length, lenf := os.length, consumed := os.length } s) := by
  refine exec_of_kernel_ok ?_
  rw [kernel, srcLenOf, ← hl]
  exact ucs2Dec_ok hn h hu hcap

theorem Utf16.text_length_le {os : List Octet} {cs : List CodePoint} (h : Utf16 os cs) (hn : os.length ≤ 512) :
    cs.length ≤ 512 := by
  have := h.length_le
  omega

/-- UCS2_DEC stops where its loop stops after `j` code units that read as text. -/
theorem kernel_ucs2Dec_halt {s : State} {os : List Octet} {cs : List CodePoint} {j m : Nat} {e : Halt}
    (hn : s.srcLen.toNat ≤ 512) (h : Holds s.mem.oct os) (hu : Utf16 os cs) (hj : os.length = 2 * j)
    (hm : s.srcLen.toNat = 2 * (j + m)) (he : ucs2DecFrom defaultParams s.mem.oct m j cs = .error e) :
    kernel defaultParams .ucs2Dec s = .error e := by
  refine ucs2Dec_halt hn (by rw [srcLenOf]; omega) h hu (hu.text_length_le (by omega)) (by rw [srcLenOf]; omega) ?_
  rw [show srcLenOf s / 2 - os.length / 2 = m by rw [srcLenOf]; omega, show os.length / 2 = j by omega]
  exact he

/-- Settles O53: after code units that read as text the loop ends, or it stops at an octet never written, at a low
surrogate, or at a high one that is last or not followed by a low one. -/
theorem ucs2DecReadsBigEndianUtf16 : Obligations.Ucs2DecReadsBigEndianUtf16 := by
  unfold Obligations.Ucs2DecReadsBigEndianUtf16
  intro s
  refine ⟨fun h => exec_of_kernel_raised .incorrectSize (ucs2Dec_size h _), fun os cs hn heven h hread => ?_⟩
  have hu := utf16_of_readsUtf16 hread
  refine ⟨fun hl => ?_, fun hl => ?_⟩
  · have hcap : os.length ≤ 512 := hl.trans_le hn
    have hcap' := hu.text_length_le hcap
    exact ⟨_, exec_ucs2Dec_text h hl hcap hu hcap', succeeded_commitState s hcap' hcap hcap, stored_stage _ _,
      rfl, rfl, rfl⟩
  obtain ⟨j, hj⟩ : ∃ j, os.length = 2 * j := ⟨os.length / 2, by have := hu.length_even; omega⟩
  obtain ⟨m, hm⟩ : ∃ m, s.srcLen.toNat = 2 * (j + (m + 1)) := ⟨s.srcLen.toNat / 2 - j - 1, by omega⟩
  rw [hj]
  refine ⟨fun ha => ?_, fun a ha hb => ?_, fun a b ha hb => ?_⟩
  · exact exec_of_kernel_unwritten
      (kernel_ucs2Dec_halt hn h hu hj hm (ucs2DecFrom_halt (fetchUnit_high_unwritten ha)))
  · exact exec_of_kernel_unwritten
      (kernel_ucs2Dec_halt hn h hu hj hm (ucs2DecFrom_halt (fetchUnit_low_unwritten ha hb)))
  have hunit := fetchUnit_ok ha hb
  rw [← unitOf_eq_codeUnit] at hunit
  refine ⟨fun hlow => ?_, fun hhigh hlast => ?_, fun hhigh hmore => ?_⟩
  · exact exec_of_kernel_raised .unmappableChar
      (kernel_ucs2Dec_halt hn h hu hj hm (ucs2DecFrom_low hunit (isLowSurrogate_iff.mpr hlow)))
  · obtain rfl : m = 0 := by omega
    exact exec_of_kernel_raised .unmappableChar
      (kernel_ucs2Dec_halt hn h hu hj hm (ucs2DecFrom_high_last hunit (isHighSurrogate_iff.mpr hhigh)))
  obtain ⟨m, rfl⟩ : ∃ n, m = n + 1 := ⟨m - 1, by omega⟩
  have hhigh' := isHighSurrogate_iff.mpr hhigh
  refine ⟨fun hc => ?_, fun c hc hd => ?_, fun c d hc hd hlow => ?_⟩
  · exact exec_of_kernel_unwritten (kernel_ucs2Dec_halt hn h hu hj hm
      (ucs2DecFrom_high_halt hunit hhigh' (fetchUnit_high_unwritten hc)))
  · exact exec_of_kernel_unwritten (kernel_ucs2Dec_halt hn h hu hj hm
      (ucs2DecFrom_high_halt hunit hhigh' (fetchUnit_low_unwritten hc hd)))
  · rw [unitOf_eq_codeUnit] at hlow
    exact exec_of_kernel_raised .unmappableChar (kernel_ucs2Dec_halt hn h hu hj hm
      (ucs2DecFrom_high_alone hunit hhigh' (fetchUnit_ok hc hd) (isLowSurrogate_eq_false.mpr hlow)))

/-! ## UCS2_DEC inverts UCS2_ENC -/

/-- A list whose images overflow a capacity has a first element whose image no longer fits. -/
theorem exists_first_overflow {α β : Type} (f : α → List β) {cap : Nat} (xs : List α)
    (h : cap < (xs.flatMap f).length) :
    ∃ pre x post, xs = pre ++ x :: post ∧ (pre.flatMap f).length ≤ cap
      ∧ cap < (pre.flatMap f).length + (f x).length := by
  induction xs using List.reverseRecOn with
  | nil => simp at h
  | append_singleton ys y ih =>
    rcases Nat.lt_or_ge cap (ys.flatMap f).length with hover | hfit
    · obtain ⟨pre, x, post, rfl, hpre, hx⟩ := ih hover
      exact ⟨pre, x, post ++ [y], by simp, hpre, hx⟩
    · exact ⟨ys, y, [], rfl, hfit, by simpa using h⟩

theorem holds_of_append {w : Nat} {b : Buffer w} {xs ys : List (BitVec w)} (h : Holds b (xs ++ ys)) : Holds b xs :=
  fun k hk => by rw [h k (by rw [List.length_append]; omega), List.getElem?_append_left hk]

theorem readElem_of_holds_append_cons {w : Nat} {b : Buffer w} {xs ys : List (BitVec w)} {x : BitVec w}
    (h : Holds b (xs ++ x :: ys)) : readElem b xs.length = some x := by
  rw [h xs.length (by simp), List.getElem?_append_right (Nat.le_refl _), Nat.sub_self]; rfl

/-- UCS2_ENC on encodable code points whose octets do not fit raises at the first one that overflows. -/
theorem ucs2Enc_full {p : Params} {txt : Buffer 32} {cs : List CodePoint} (h : Holds txt cs)
    (henc : ∀ c ∈ cs, ¬notUtf16 c) (hn : cs.length ≤ p.nTxt) (hover : p.nOct < (cs.flatMap octetsOf).length) :
    ∃ k, ucs2Enc p cs.length txt = .error (.raised .incorrectSize k) := by
  obtain ⟨pre, c, post, rfl, hfit, hfull⟩ := exists_first_overflow octetsOf cs hover
  have henc_pre : ∀ d ∈ pre, ¬notUtf16 d := fun d hd => henc d (List.mem_append_left _ hd)
  have hbody := ucs2EncBody_full (readElem_of_holds_append_cons h) (henc c (by simp)) hfit hfull
  exact ⟨pre.length, ucs2Enc_halt (by simp) (holds_of_append h) henc_pre hn hfit hbody⟩

/-- Settles O58: a UCS2_ENC that succeeds leaves the octets of all code points, and they read back as the text. -/
theorem ucs2DecInvertsUcs2Enc : Obligations.Ucs2DecInvertsUcs2Enc := by
  unfold Obligations.Ucs2DecInvertsUcs2Enc
  intro s t cs h hl hencodable hexec hcode
  have henc : ∀ c ∈ cs, ¬notUtf16 c := fun c hc => not_notUtf16 (hencodable c hc)
  have no_error := kernel_ne_error_of_success hexec hcode
  rw [kernel, srcLenOf, ← hl] at no_error
  have hn : cs.length ≤ 512 := Nat.le_of_not_lt fun hn => no_error _ (ucs2Enc_size hn _)
  have hcap : (cs.flatMap octetsOf).length ≤ 512 := Nat.le_of_not_lt fun hover =>
    (ucs2Enc_full h henc hn hover).elim fun _ he => no_error _ he
  rw [exec_ucs2Enc_octets h hl hn henc hcap] at hexec
  cases hexec
  exact ⟨_, exec_ucs2Dec_text (holds_stage _ _) (half_toNat hcap).symm hcap (utf16_flatMap henc) hn, rfl,
    holds_stage _ _, half_toNat hn, rfl⟩

end Sys2Proof.Machine
end

section
/-! The proofs of the family 44_control.md. No access that this family speaks of looks at BUSY, so each of its rules
is the host's move (`step_write_reg`, `step_read_reg`) followed by what the access does to its register. -/

namespace Sys2Proof.Machine

open Sys2Proof.Claims

/-! ## NOP -/

/-- Settles O39: NOP commits empty lists and no scalar result, so only the status and length registers are written. -/
theorem nopClearsLengthsAndStatus : Obligations.NopClearsLengthsAndStatus := by
  unfold Obligations.NopClearsLengthsAndStatus
  intro s
  have hk : kernel defaultParams .nop s = .ok { dstLen := 0, lenf := 0, consumed := 0 } := rfl
  rw [exec_of_kernel_ok hk]; rfl

/-! ## CTRL -/

theorem step_write_ctrl_keeps {s : State} {v : Word} {rest : List HostOp} {ts : List Turn}
    (h : HostMove s (wr 0x004 v) rest ts) (hv : v.getLsbD 1 = false) :
    step s = .next { moved s rest ts with ie := v.getLsbD 0 } := by
  rw [step_write_reg .ctrl h, hostWrite, writeCtrl_keeps hv]

theorem step_write_ctrl_resets {s : State} {v : Word} {rest : List HostOp} {ts : List Turn}
    (h : HostMove s (wr 0x004 v) rest ts) (hv : v.getLsbD 1 = true) :
    step s = .next (registersReset (moved s rest ts) 0) := by
  rw [step_write_reg .ctrl h, hostWrite, writeCtrl_resets hv]; rfl

theorem step_read_ctrl {s : State} {rest : List HostOp} {ts : List Turn} (h : HostMove s (rd 0x004) rest ts) :
    step s = .next { moved s rest ts with readData := some (BitVec.ofNat 32 s.ie.toNat) } := by
  rw [step_read_reg .ctrl h, hostRead, ctrlWord_eq]; rfl

/-- Settles O15: the soft reset comes after the write of IE, so nothing of that write is left under it. -/
theorem ctrlWriteSetsIeThenSoftResets : Obligations.CtrlWriteSetsIeThenSoftResets := by
  unfold Obligations.CtrlWriteSetsIeThenSoftResets
  intro s rest ts
  exact ⟨fun v hm => ⟨step_write_ctrl_keeps hm, fun hv => ⟨0, step_write_ctrl_resets hm hv⟩⟩, step_read_ctrl⟩

/-! ## STATUS -/

theorem step_read_status {s : State} {rest : List HostOp} {ts : List Turn} (h : HostMove s (rd 0x008) rest ts) :
    step s = .next { moved s rest ts with readData := some (BitVec.ofNat 32 (statusValue s)) } := by
  rw [step_read_reg .status h, hostRead, statusWord_eq]; rfl

/-- Settles O16: a flag masked with the complement of its written bit is cleared exactly where that bit is 1. -/
theorem statusWriteClearsAndReadPacksTheFlags : Obligations.StatusWriteClearsAndReadPacksTheFlags := by
  unfold Obligations.StatusWriteClearsAndReadPacksTheFlags
  intro s rest ts
  have cleared (flag w : Bool) : (flag && !w) = if w then false else flag := by cases w <;> simp
  refine ⟨fun v hm => ?_, step_read_status⟩
  rw [step_of_statusWrite hm, cleared, cleared]

/-! ## Ignored writes -/

theorem hostWrite_elem_beyond (b : Buf) {i : Nat} (hi : 512 ≤ i) (v : Word) (s : State) :
    hostWrite (.elem b i) v s = s := by
  simp [hostWrite, hi]

/-- Settles O14: an ignored offset is that of a read-only register, a reserved word, or an element beyond capacity, and
a write of each leaves the state it finds. -/
theorem readOnlyAndReservedWritesAreIgnored : Obligations.ReadOnlyAndReservedWritesAreIgnored := by
  unfold Obligations.ReadOnlyAndReservedWritesAreIgnored
  intro s off v rest ts hm h
  have beyond (b : Buf) {i : Nat} (hi : 512 ≤ i) (hlt : i < 1024) (ho : off = bufferOffset b + 4 * i) :
      step s = .next (moved s rest ts) := by
    subst ho
    rw [step_write_elem b hlt hm, hostWrite_elem_beyond b hi]
  rcases h with rfl | rfl | rfl | rfl | rfl | ⟨h1, h2, ha⟩ | ⟨i, hi, hlt, ho | ho | ho⟩
  · exact step_write_reg .id hm
  · exact step_write_reg .dstLen hm
  · exact step_write_reg .lenf hm
  · exact step_write_reg .consumed hm
  · exact step_write_reg .result hm
  · rw [step_write hm (by omega) ha, targetOf_reserved h1 h2, hostWrite]
  · exact beyond .txt hi hlt ho
  · exact beyond .sep hi hlt ho
  · exact beyond .oct hi hlt ho

end Sys2Proof.Machine
end

section
/-! The proofs of the family 60_exceptions.md. irq is DONE and IE, so it moves with one of the two: the events of DONE
are said in `StepEvent.done_rise`, `StepEvent.done_fall` and `done_of_clear`, and those of IE are said here. -/

namespace Sys2Proof.Machine

open Sys2Proof.Claims

/-! ## IE -/

/-- Only a CTRL write sets IE (44_control.md R211). -/
theorem StepEvent.ie_rise {s t : State} (he : StepEvent s t) (h0 : s.ie = false) (h1 : t.ie = true) :
    ∃ v, HostMakes s (wr 0x004 v) ∧ v.getLsbD 0 = true := by
  cases he with
  | ctrl v rest ts hmove => exact ⟨v, ⟨rest, ts, hmove⟩, h1⟩
  | reset t _ hregs => rw [← hregs] at h1; cases h1
  | quiet | counted | committed | raised | status | dropped | started | operand | element =>
    exact absurd (h0.symm.trans h1) (by decide)

/-- Only a CTRL write and a reset clear IE (44_control.md R211, 70_reset_and_hazards.md R261). -/
theorem StepEvent.ie_fall {s t : State} (he : StepEvent s t) (h0 : s.ie = true) (h1 : t.ie = false) :
    ResetNext s ∨ ∃ v, HostMakes s (wr 0x004 v) ∧ v.getLsbD 0 = false := by
  cases he with
  | ctrl v rest ts hmove => exact .inr ⟨v, ⟨rest, ts, hmove⟩, h1⟩
  | reset t hreset => exact .inl hreset
  | quiet | counted | committed | raised | status | dropped | started | operand | element =>
    exact absurd (h0.symm.trans h1) (by decide)

/-- No command writes CTRL (10_state.md R46), and an illegal word's completion does not either. -/
theorem ie_of_completion {s t : State} (hd : CompletionDue s) (h : step s = .next t) : t.ie = s.ie := by
  obtain ⟨⟨hr, hs⟩, hb, hn⟩ := hd
  rw [step_complete hs hr hb hn] at h
  rcases completionStep_cases h with ⟨i, c, -, -, rfl⟩ | ⟨e, pos, -, rfl⟩ <;> rfl

/-- A CTRL write that is not a soft reset leaves its bit 0 in IE and DONE as it was. -/
theorem flags_of_ctrlWrite {s t : State} {v : Word} (hm : HostMakes s (wr 0x004 v)) (hr : ¬ResetNext s)
    (h : step s = .next t) : t.done = s.done ∧ t.ie = v.getLsbD 0 := by
  have hv : v.getLsbD 1 = false := Bool.eq_false_iff.mpr fun hv => hr (.inr ⟨v, hm, hv⟩)
  obtain ⟨rest, ts, hmove⟩ := hm
  rw [step_write_ctrl_keeps hmove hv] at h
  cases h; exact ⟨rfl, rfl⟩

/-! ## irq -/

theorem irq_eq_true_iff {s : State} : irq s = true ↔ s.done = true ∧ s.ie = true := by rw [irq, Bool.and_eq_true]

theorem irq_eq_false_iff {s : State} : irq s = false ↔ s.done = false ∨ s.ie = false := by rw [irq, Bool.and_eq_false_iff]

theorem irq_of_clear {s t : State} (hc : ClearsDone s) (h : step s = .next t) : irq t = false :=
  irq_eq_false_iff.mpr (.inl (done_of_clear hc h))

theorem StepEvent.irq_rise {s t : State} (he : StepEvent s t) (h0 : irq s = false) (h1 : irq t = true) :
    CompletionDue s ∨ (s.done = true ∧ ∃ v, HostMakes s (wr 0x004 v) ∧ v.getLsbD 0 = true) := by
  obtain ⟨hdone, hie⟩ := irq_eq_true_iff.mp h1
  cases hd : s.done with
  | false => exact .inl (he.done_rise hd hdone)
  | true =>
    have hi : s.ie = false := (irq_eq_false_iff.mp h0).resolve_left (by simp [hd])
    exact .inr ⟨rfl, he.ie_rise hi hie⟩

theorem StepEvent.irq_fall {s t : State} (he : StepEvent s t) (h0 : irq s = true) (h1 : irq t = false) :
    ClearsDone s ∨ ∃ v, HostMakes s (wr 0x004 v) ∧ v.getLsbD 0 = false := by
  obtain ⟨hdone, hie⟩ := irq_eq_true_iff.mp h0
  rcases irq_eq_false_iff.mp h1 with hd | hi
  · exact .inl (he.done_fall hdone hd)
  · exact (he.ie_fall hie hi).imp_left fun hr => .inr (.inr hr)

/-- Settles O31: a fall or rise of irq is one of DONE or of IE, whose events are known; a CTRL write that clears IE
lowers irq through IE, or, where it is a soft reset too, through DONE. -/
theorem irqRisesAndFallsOnlyByTheListedEvents : Obligations.IrqRisesAndFallsOnlyByTheListedEvents := by
  unfold Obligations.IrqRisesAndFallsOnlyByTheListedEvents
  intro s t h
  have he := stepEvent_of_step h
  refine ⟨rfl, fun hd => ?_, ?_, he.irq_rise, ?_, he.irq_fall⟩
  · rw [irq, (flags_of_completion hd h).2, ie_of_completion hd h, Bool.true_and]
  · rintro hdone hr ⟨v, hm, hv⟩
    obtain ⟨hd, hi⟩ := flags_of_ctrlWrite hm hr h
    exact irq_eq_true_iff.mpr ⟨hd.trans hdone, hi.trans hv⟩
  · rintro (hc | ⟨v, hm, hv⟩)
    · exact irq_of_clear hc h
    · by_cases hr : ResetNext s
      · exact irq_of_clear (.inr (.inr hr)) h
      · exact irq_eq_false_iff.mpr (.inr ((flags_of_ctrlWrite hm hr h).2.trans hv))

/-! ## The error state -/

theorem two_le_errCodeOf {e : ErrKind} (h : e ≠ .illegalCommand) : 2 ≤ (errCodeOf e).toNat := by
  cases e with
  | illegalCommand => exact absurd rfl h
  | incorrectSize | truncated | truncatedEscape | unmappableChar | invalidDigits => decide

/-- Settles O36: a commit leaves ERRCODE 0, so a command that ends with an error code has raised (`exec_outcome`), and
the position it raised at fits CONSUMED. -/
theorem errorsWriteNothingButStatusAndLengths : Obligations.ErrorsWriteNothingButStatusAndLengths := by
  unfold Obligations.ErrorsWriteNothingButStatusAndLengths
  intro i s t h hcode
  rcases exec_outcome i s with ⟨c, -, he⟩ | ⟨e, pos, hne, hpos, he⟩ | ⟨b, k, -, -, -, he⟩ <;> rw [he] at h <;> cases h
  · exact absurd rfl hcode
  · refine ⟨two_le_errCodeOf hne, errCodeOf_le e, ?_⟩
    rw [errorState_errCode, errorState_consumed, half_toNat hpos, errorState_eq_failedWith]

end Sys2Proof.Machine
end

section
/-! The proofs of the family 70_reset_and_hazards.md. Most statements are about one turn, so each is the lemma about
`step` for that turn followed by what the turn's agent does under BUSY or `rst`. Two go further: the buffers' statement
is a case analysis of `StepEvent`, and the one about a pending command runs the engine's countdown by induction. -/

namespace Sys2Proof.Machine

open Sys2Proof.Claims

/-! ## Commands whose sources are written -/

/-- Settles O34: of the three ways a command can end (`exec_outcome`) only the fault has no next state, and it names a
source element below SRC_LEN that is unwritten. -/
theorem writtenSourcesMakeEveryCommandComplete : Obligations.WrittenSourcesMakeEveryCommandComplete := by
  unfold Obligations.WrittenSourcesMakeEveryCommandComplete
  intro i s hw
  rcases exec_outcome i s with ⟨c, -, he⟩ | ⟨e, pos, -, -, he⟩ | ⟨b, k, hs, hk, hn, -⟩
  · exact ⟨_, he⟩
  · exact ⟨_, he⟩
  · have hwritten : written b k s := hw b hs k hk
    rw [written, hn] at hwritten
    cases hwritten

/-- A completion step that is due has a next state, unless its command finds a source element unwritten: an illegal word
reads none. -/
theorem step_complete_of_sourcesWritten {s : State} (hd : CompletionDue s)
    (hw : ∀ i, decode s.cmd = .command i → SourcesWritten i s) : ∃ t, step s = .next t := by
  cases hc : decode s.cmd with
  | illegal why => exact ⟨_, step_complete_illegal hd hc⟩
  | command i =>
    rw [step_complete_command hd hc]
    exact writtenSourcesMakeEveryCommandComplete i { s with sched := s.sched.tail, remaining := 0 } (hw i hc)

/-! ## The engine's countdown -/

theorem run_succ {M : Host.Core} (n : Nat) {s t : M.State} (h : M.step s = .next t) : M.run (n + 1) s = M.run n t := by
  rw [Host.Core.run, h]

/-- A run that has come to a state goes on with that state's step. -/
theorem run_succ_of_run {M : Host.Core} {n : Nat} {s t u : M.State} (h : M.run n s = .next t)
    (hu : M.step t = .next u) : M.run (n + 1) s = .next u := by
  induction n generalizing s with
  | zero => cases h; exact run_succ 0 hu
  | succ n ih =>
    cases hs : M.step s with
    | next s' => rw [run_succ _ hs] at h ⊢; exact ih h
    | fault | refused => rw [Host.Core.run, hs] at h; cases h

/-- With no turn scheduled the engine counts `remaining` down to 1 and changes nothing else (30_encoding.md R98). -/
theorem run_countdown (n : Nat) {s : State} (hb : s.busy = true) (hr : s.rst = false) (hs : s.sched = [])
    (hn : s.remaining = n + 1) : Host.Core.run core n s = .next { s with remaining := 1 } := by
  induction n generalizing s with
  | zero => cases s; cases hn; rfl
  | succ n ih =>
    have hstep : step s = .next { s with remaining := n + 1 } := by
      rw [step_count (.inl hs) hr hb hn, hs, List.tail_nil, ← hs]
    exact (run_succ (M := core) n hstep).trans (ih (s := { s with remaining := n + 1 }) hb hr hs rfl)

/-- Settles O9: the countdown leaves the completion step due, and with its sources written that step has a next
state. -/
theorem pendingCommandCompletesAfterRemainingSteps : Obligations.PendingCommandCompletesAfterRemainingSteps := by
  unfold Obligations.PendingCommandCompletesAfterRemainingSteps
  intro n s hb hr hs hn
  have hrun := run_countdown n hb hr hs hn
  have hd : CompletionDue { s with remaining := 1 } := ⟨⟨hr, .inl hs⟩, hb, Nat.le_refl 1⟩
  refine ⟨hrun, fun hw => ?_⟩
  obtain ⟨t, ht⟩ := step_complete_of_sourcesWritten hd hw
  exact ⟨t, run_succ_of_run (M := core) hrun ht, flags_of_completion hd ht⟩

/-- Settles O10: an engine that is idle only uses up its turn. -/
theorem idleEngineDoesNothing : Obligations.IdleEngineDoesNothing := by
  unfold Obligations.IdleEngineDoesNothing
  exact fun s ⟨_, hs⟩ hb => step_idle hs (.inr hb)

/-! ## Writes while BUSY = 1 -/

theorem step_write_dropped {s : State} {off : Nat} {v : Word} {rest : List HostOp} {ts : List Turn}
    (hm : HostMove s (wr off v) rest ts) (hb : s.busy = true) (hd : DroppedWhileBusy off) :
    step s = .next (dropWrite (moved s rest ts)) := by
  obtain ⟨ho, ha⟩ := offset_of_dropped hd
  have ht : droppable (targetOf off) = true := (droppable_targetOf_iff ho ha).mpr hd
  rw [step_write hm ho ha, hostWrite_dropped ht v (s := moved s rest ts) hb]

/-- Settles O12: a droppable target drops the write; CTRL, STATUS and the ignored offsets do not look at BUSY. -/
theorem writesWhileBusyAreDroppedAndSetOvr : Obligations.WritesWhileBusyAreDroppedAndSetOvr := by
  unfold Obligations.WritesWhileBusyAreDroppedAndSetOvr
  intro s off v rest ts hm hb
  refine ⟨step_write_dropped hm hb, ?_, ?_, ?_, readOnlyAndReservedWritesAreIgnored s off v rest ts hm⟩
  · rintro rfl; exact step_of_statusWrite hm
  · rintro rfl hv; exact step_write_ctrl_keeps hm hv
  · rintro rfl hv; exact ⟨0, step_write_ctrl_resets hm hv⟩

/-! ## Reads while BUSY = 1 -/

/-- The field width of a result register, whose read is a draw while BUSY = 1 (R271); the other registers have none. -/
def resultWidth : Reg → Option Nat
  | .dstLen | .lenf | .consumed => some 16
  | .result => some 32
  | .id | .ctrl | .status | .cmd | .srcLen | .aux | .arg => none

theorem readResultReg_busy {w : Nat} (x : BitVec w) {s : State} (h : s.busy = true) :
    readResultReg x s = drawRead w s := by
  rw [readResultReg, if_pos h]

theorem hostRead_result_busy {r : Reg} {w : Nat} (hw : resultWidth r = some w) {s : State} (h : s.busy = true) :
    hostRead (.reg r) s = drawRead w s := by
  cases r with
  | dstLen | lenf | consumed | result => cases hw; exact readResultReg_busy _ h
  | id | ctrl | status | cmd | srcLen | aux | arg => cases hw

/-- A register that is no result register reads as its value, BUSY or not. -/
theorem hostRead_reg_of_not_result {r : Reg} (hw : resultWidth r = none) (s : State) :
    hostRead (.reg r) s = ⟨BitVec.ofNat 32 (regValue s r), s⟩ := by
  cases r with
  | dstLen | lenf | consumed | result => cases hw
  | id => rfl
  | ctrl => rw [hostRead, ctrlWord_eq]; rfl
  | status => rw [hostRead, statusWord_eq]; rfl
  | cmd | srcLen | aux | arg => simp [hostRead, regValue]

theorem pendingWrites_of_destination {s : State} {i : Instr} {b : Buf} (hc : decode s.cmd = .command i)
    (hb : s.busy = true) (hd : b ∈ destinations i) : pendingWrites s b = true := by
  simp [pendingWrites, hc, hb, (mem_destinations_iff i b).mp hd]

theorem pendingWrites_of_notPendingDestination {s : State} {b : Buf} (h : NotPendingDestination s b) :
    pendingWrites s b = false := by
  rw [pendingWrites]
  cases hc : decode s.cmd with
  | illegal why => rfl
  | command i =>
    have hw : ¬writesBuffer i b = true := (mem_destinations_iff i b).not.mp (h i hc)
    simp [hw]

theorem hostRead_elem_pending (b : Buf) {k : Nat} (hk : k < 512) {s : State} (h : pendingWrites s b = true) :
    hostRead (.elem b k) s = drawRead (elemWidth b) s := by
  simp [hostRead, readElement, hk, h]

theorem hostRead_elem_written (b : Buf) {k : Nat} (hk : k < 512) {v : Word} {s : State}
    (h : pendingWrites s b = false) (hv : readBuffer b k s.mem = some v) : hostRead (.elem b k) s = ⟨v, s⟩ := by
  simp [hostRead, readElement, hk, h, hv]

/-- The word read is a draw, whatever the result registers and the buffers hold. -/
theorem step_read_result_busy {r : Reg} {w : Nat} (hw : resultWidth r = some w) {s : State} {rest : List HostOp}
    {ts : List Turn} (hm : HostMove s (rd (regOffset r)) rest ts) (hb : s.busy = true) :
    step s = .next { moved s rest ts with readData := some (drawRead w s).data, draws := s.draws + 1 } := by
  rw [step_read_reg r hm, hostRead_result_busy hw (s := moved s rest ts) hb]; rfl

theorem step_read_elem_pending (b : Buf) {k : Nat} (hk : k < 512) {s : State} {rest : List HostOp} {ts : List Turn}
    (hm : HostMove s (rd (bufferOffset b + 4 * k)) rest ts) (hp : pendingWrites s b = true) :
    step s = .next { moved s rest ts with readData := some (drawRead (elemWidth b) s).data, draws := s.draws + 1 } := by
  rw [step_read_elem b (by omega) hm, hostRead_elem_pending b hk (s := moved s rest ts) hp]; rfl

/-- Settles O18: a result register and a destination element read as a draw, which the model's counter alone picks; the
other registers and the written elements of the other buffers read as their values. -/
theorem readsWhileBusyHideResultsAndDestinations : Obligations.ReadsWhileBusyHideResultsAndDestinations := by
  unfold Obligations.ReadsWhileBusyHideResultsAndDestinations
  intro s off rest ts hm hb
  have result (r : Reg) {w : Nat} (hw : resultWidth r = some w) (ho : off = regOffset r) :
      ∃ d : Word, ∀ (dst len used : Half) (res : Word) (m : Memory),
        step { s with dstLen := dst, lenf := len, consumed := used, result := res, mem := m }
          = .next { moved s rest ts with
              dstLen := dst, lenf := len, consumed := used, result := res, mem := m
              readData := some d, draws := s.draws + 1 } :=
    ⟨(drawRead w s).data, fun dst len used res m => step_read_result_busy hw
      (s := { s with dstLen := dst, lenf := len, consumed := used, result := res, mem := m }) (ho ▸ hm) hb⟩
  have hidden (b : Buf) {i : Instr} {k : Nat} (hc : decode s.cmd = .command i) (hk : k < 512)
      (ho : off = bufferOffset b + 4 * k ∧ b ∈ destinations i) :
      ∃ d : Word, ∀ m : Memory, step { s with mem := m }
        = .next { moved s rest ts with mem := m, readData := some d, draws := s.draws + 1 } :=
    ⟨(drawRead (elemWidth b) s).data, fun m => step_read_elem_pending b hk (s := { s with mem := m }) (ho.1 ▸ hm)
      (pendingWrites_of_destination hc hb ho.2)⟩
  have reg (r : Reg) (hw : resultWidth r = none) {n : Nat} (ho : off = regOffset r ∧ n = regValue s r) :
      step s = .next { moved s rest ts with readData := some (BitVec.ofNat 32 n) } := by
    obtain ⟨rfl, rfl⟩ := ho
    rw [step_read_reg r hm, hostRead_reg_of_not_result hw]; rfl
  have elem (b : Buf) {k n : Nat} (hk : k < 512) (ho : off = bufferOffset b + 4 * k) (hd : NotPendingDestination s b)
      (hv : readBuffer b k s.mem = some (BitVec.ofNat 32 n)) :
      step s = .next { moved s rest ts with readData := some (BitVec.ofNat 32 n) } := by
    subst ho
    have hp : pendingWrites (moved s rest ts) b = false := pendingWrites_of_notPendingDestination hd
    rw [step_read_elem b (by omega) hm, hostRead_elem_written b hk hp hv]; rfl
  refine ⟨?_, fun i hc k hk => ?_, fun n => ?_, fun k hk n => ?_⟩
  · rintro (h | h | h | h)
    exacts [result .dstLen rfl h, result .lenf rfl h, result .consumed rfl h, result .result rfl h]
  · rintro (h | h | h)
    exacts [hidden .txt hc hk h, hidden .sep hc hk h, hidden .oct hc hk h]
  · rintro (h | h | h | h | h | h | h)
    exacts [reg .id rfl h, reg .ctrl rfl h, reg .status rfl h, reg .cmd rfl h, reg .srcLen rfl h, reg .aux rfl h,
      reg .arg rfl h]
  · rintro (⟨ho, hd, v, hv, rfl⟩ | ⟨ho, hd, v, hv, rfl⟩ | ⟨ho, hd, v, hv, rfl⟩)
    · exact elem .txt hk ho hd (by simp [readBuffer, hv])
    · exact elem .sep hk ho hd (by simp [readBuffer, hv])
    · exact elem .oct hk ho hd (by simp [readBuffer, hv])

/-! ## Reset -/

theorem readBuffer_empty (b : Buf) (k : Nat) : readBuffer b k ⟨[], [], []⟩ = none := by cases b <;> rfl

/-- Settles O22: the reset state gives every register the value 0 and every buffer no entry. -/
theorem resetStateIsAllZeroAndUnwritten : Obligations.ResetStateIsAllZeroAndUnwritten := by
  unfold Obligations.ResetStateIsAllZeroAndUnwritten
  exact ⟨rfl, rfl, readBuffer_empty⟩

/-- Settles O23: each of the three resets is `resetRegisters`, which writes no buffer; power-on then empties them. -/
theorem resetSetsRegistersAndKeepsBuffers : Obligations.ResetSetsRegistersAndKeepsBuffers := by
  unfold Obligations.ResetSetsRegistersAndKeepsBuffers
  intro s ts
  refine ⟨fun hs => ?_, fun hs => ?_, fun v rest hm hv => ⟨0, step_write_ctrl_resets hm hv⟩⟩
  · exact ⟨0, step_cons hs⟩
  · exact ⟨0, ⟨[], [], []⟩, step_cons hs, readBuffer_empty⟩

/-- While `rst` is asserted every move of the host is refused, WAIT's read of STATUS included. -/
theorem hostTurn_inReset {s : State} {op : HostOp} {rest : List HostOp} (hp : s.program = op :: rest)
    (hr : s.rst = true) : hostTurn s = .refused .accessDuringReset := by
  cases op with
  | write addr size v => exact hostTurn_refused (.inl hp) (admission_inReset hr addr size)
  | read addr size => exact hostTurn_refused (v := 0) (.inr hp) (admission_inReset hr addr size)
  | wait => rw [hostTurn, hp]; exact if_pos hr

/-- Settles O24: the host's turn is refused, the engine's does nothing, and the deassertion changes only `rst`. -/
theorem assertedResetAdmitsNoAccess : Obligations.AssertedResetAdmitsNoAccess := by
  unfold Obligations.AssertedResetAdmitsNoAccess
  intro s ts hr
  refine ⟨fun op rest hs hp => ?_, fun hs => ?_, fun hs => step_cons hs⟩
  · rw [step_cons hs]; exact hostTurn_inReset (s := { s with sched := ts }) hp hr
  · rw [step_idle (.inr ⟨ts, hs⟩) (.inl hr), hs, List.tail_cons]

/-! ## What changes a buffer element -/

theorem readBuffer_writeBuffer_other {b b' : Buf} {i k : Nat} (h : b ≠ b' ∨ k ≠ i) (v : Word) (m : Memory) :
    readBuffer b k (writeBuffer b' i v m) = readBuffer b k m := by
  have other (hb : b = b') : k ≠ i := h.resolve_left (not_not_intro hb)
  cases b with
  | txt =>
    cases b' with
    | txt => exact readElem_writeElem_other m.txt v (other rfl)
    | sep | oct => rfl
  | sep =>
    cases b' with
    | sep => exact congrArg (Option.map _) (readElem_writeElem_other m.sep _ (other rfl))
    | txt | oct => rfl
  | oct =>
    cases b' with
    | oct => exact congrArg (Option.map _) (readElem_writeElem_other m.oct _ (other rfl))
    | txt | sep => rfl

/-- Settles O29: of the events only a host write of an element, a commit and power-on write a buffer, and the host's
write changes no element but its own. -/
theorem buffersChangeOnlyByWritesCompletionsAndPowerOn :
    Obligations.BuffersChangeOnlyByWritesCompletionsAndPowerOn := by
  unfold Obligations.BuffersChangeOnlyByWritesCompletionsAndPowerOn
  intro s t b k h hne
  cases stepEvent_of_step h with
  | element b' i v rest ts hmove hi hidle =>
    obtain ⟨rfl, rfl⟩ : b = b' ∧ k = i := by
      by_contra hother
      exact hne (readBuffer_writeBuffer_other (not_and_or.mp hother) v s.mem)
    exact .inl ⟨hidle, hi, v, rest, ts, hmove⟩
  | committed i c hdue => exact .inr (.inl ⟨hdue, rfl⟩)
  | reset t hreset hregs hmem =>
    rcases hmem with hmem | ⟨-, hpower⟩
    · rw [hmem] at hne; exact absurd rfl hne
    · exact .inr (.inr hpower)
  | quiet | counted | raised | ctrl | status | dropped | started | operand => exact absurd rfl hne

end Sys2Proof.Machine
end
